-- ==== Sys2Proof/Word.lean ====
section
/-! DEFINITION. The word types of the block and nothing else. Spec: 00_scope.md R7, R8 (`uN`, bit 0 least significant). -/

namespace Sys2Proof

/-- `u8`: one byte of the Memory Source (20_memory.md R60). -/
abbrev Byte := BitVec 8

/-- A 16-bit pattern: a PCM16 halfword, or one output sample (20_memory.md R63, 44_mixer.md R187). -/
abbrev Half := BitVec 16

/-- `u32`: a register of a channel, a byte address, a command word (00_scope.md R5). Also the pattern of an `i32`. -/
abbrev Word := BitVec 32

/-- 64 bits: the argument of a command and the result of RD (30_encoding.md R91, R92), the `FREQ` pattern. -/
abbrev Dword := BitVec 64

/-- A channel id, 0..15 (10_state.md R21). -/
abbrev ChannelId := Fin 16

/-- An index of the step table, 0..127 (10_state.md R37). -/
abbrev TableIndex := Fin 128

end Sys2Proof
end

