-- ==== Sys2Proof/Config.lean ====
section
/-! DEFINITION. What the block's builder fixes (00_scope.md R5, R6) and the free values of the model. The parameters
the spec leaves open are a structure that the state carries unchanged (log 3), so that every statement about every
state is a statement about every choice of them. -/

namespace Sys2Proof

/-- `NUMERICS` (00_scope.md R6): "the only value this spec defines is `exact`" (log 22). -/
inductive Numerics
  | exact
  deriving DecidableEq, Repr

/-- The parameters the source leaves open (00_scope.md R6). No command changes one. -/
structure Params where
  /-- `ADPCM_SEED`, the seed of the step-table recurrence (40_adpcm_decoder.md R110). -/
  adpcmSeed : Word
  /-- `ACC_WIDTH`, the width of the recurrence accumulator in bits (40_adpcm_decoder.md R115). -/
  accWidth : Nat
  /-- `MIXBUF_LEN`, the capacity of the mix buffer in slots (10_state.md R38). -/
  mixbufLen : Nat
  /-- `HOST_BUF_SAMPLES`, the buffer size INIT asks the device for (45_host_commands.md R212). -/
  hostBufSamples : Nat
  /-- `NUMERICS`. -/
  numerics : Numerics
  /-- `ADPCM_EXPAND`: whether ADH and ADX exist (40_adpcm_decoder.md R120). -/
  adpcmExpand : Bool
  /-- `MEM_STABLE`: whether the Memory Source is constant during a command (20_memory.md R74). -/
  memStable : Bool
  /-- `RESET_MAIN_VOLUME` (10_state.md R43). -/
  resetMainVolume : BitVec 7
  /-- `CFG_DEFAULT_RATE`, power-on content of `cfg.sample_rate` (45_host_commands.md R203). -/
  cfgDefaultRate : Word
  /-- `CFG_DEFAULT_VOLUME`, power-on content of `cfg.volume`, at most 128 (45_host_commands.md R203). -/
  cfgDefaultVolume : BitVec 8
  deriving DecidableEq, Repr

/-- The defaults of 00_scope.md R6. The seed is from general knowledge there (log 23). The two `CFG_DEFAULT_*` have no
default in the spec: 44100 and 128 are the model's (DESIGN CHOICE, unsafe, log 4), the values the programs of
95_test_vectors.md start from. -/
def Params.default : Params where
  adpcmSeed := 0x000776D2
  accWidth := 32
  mixbufLen := 4096
  hostBufSamples := 4096
  numerics := .exact
  adpcmExpand := false
  memStable := true
  resetMainVolume := 0
  cfgDefaultRate := 44100
  cfgDefaultVolume := 128

namespace Config

/-- FREE VALUE. The `k`-th free slot value of a run: what a mix slot that nothing has written since reset reads as
(93_implementation_defined.md U6, log 7), and what a slot holds after an update whose exact value is outside `i32`
(log 8). Nothing constrains it but the width. -/
opaque freeSlot : Nat → Word

/-- FREE VALUE. The byte at an address the platform has not populated: "any value per byte, fixed for the run"
(93_implementation_defined.md U14, log 9). -/
opaque unpopulated : Nat → Byte

/-- FREE VALUE. The value of a `freq` pattern that is not legal; no register can hold one (10_state.md R30, log 12). -/
opaque illegalFreqValue : Dword → Rat

end Config

end Sys2Proof
end

