-- ==== Sys2Proof/Syntax.lean ====
section
/-! DEFINITION. The instructions: one constructor per row of spec/opcode_table.json (30_encoding.md R97): thirteen host
commands (format CMD), four sample micro-operations (CNT.FMT) and four boundary micro-operations (CNT.LM). -/

namespace Sys2Proof

/-- The format selector `cnt[30:29]` (30_encoding.md R93). -/
inductive Fmt
  | pcm8 | pcm16 | adpcm | psg
  deriving DecidableEq, Repr

/-- The loop-mode selector `cnt[28:27]` (30_encoding.md R93). -/
inductive LoopMode
  | none | loop | stop | rsvd
  deriving DecidableEq, Repr

/-- The fields of a channel that WR and RD name, `f` = 0..12 in this order (10_state.md R41). -/
inductive ChField
  | cnt | dataSrc | dataPos | loopStart | len | samples | volume | playing | freq
  | adpcmHeader | adpcmIndex | adpcmVal | enable
  deriving DecidableEq, Repr

/-- The engine and configuration registers that WR and RD name (10_state.md R41). -/
inductive EngReg
  | soundOn | stereo | sampleRate | mainVolume | channelMasterVolume | lifecycle | cfgSampleRate | cfgVolume
  deriving DecidableEq, Repr

/-- A register index of WR and RD, decoded (30_encoding.md R95). A reserved index keeps its number. -/
inductive Reg
  | ch (id : ChannelId) (f : ChField)
  | eng (r : EngReg)
  | reserved (r : BitVec 9)
  deriving DecidableEq, Repr

/-- One constructor per row of the opcode table. `n` and `byteLength` are counts; WellFormed bounds them by the width
of their fields (30_encoding.md R92). -/
inductive Instr
  | nop
  | reset
  | init
  | shutdown
  | wr (r : Reg) (arg : Dword)
  | rd (r : Reg)
  | gen (id : ChannelId) (n : Nat)
  | dmix (n : Nat)
  | mix (byteLength : Nat)
  | tblinit
  | tblrd (a : TableIndex)
  | adh (id : ChannelId)
  | adx (id : ChannelId) (d : BitVec 4)
  | smpPcm8
  | smpPcm16
  | smpAdpcm
  | smpPsg
  | bndNone
  | bndLoop
  | bndStop
  | bndRsvd
  deriving DecidableEq, Repr

/-- The three formats of the opcode table (30_encoding.md R94, R97): a command word, and the two decodes of a control
word. -/
inductive WordKind
  | cmd | cntFmt | cntLm
  deriving DecidableEq, Repr

/-- Which format an instruction's row has. -/
def Instr.kind : Instr → WordKind
  | .nop => .cmd
  | .reset => .cmd
  | .init => .cmd
  | .shutdown => .cmd
  | .wr _ _ => .cmd
  | .rd _ => .cmd
  | .gen _ _ => .cmd
  | .dmix _ => .cmd
  | .mix _ => .cmd
  | .tblinit => .cmd
  | .tblrd _ => .cmd
  | .adh _ => .cmd
  | .adx _ _ => .cmd
  | .smpPcm8 => .cntFmt
  | .smpPcm16 => .cntFmt
  | .smpAdpcm => .cntFmt
  | .smpPsg => .cntFmt
  | .bndNone => .cntLm
  | .bndLoop => .cntLm
  | .bndStop => .cntLm
  | .bndRsvd => .cntLm

end Sys2Proof
end

