-- ==== Sys2Proof/WellFormed.lean ====
section
/-! DEFINITION. Which instructions an encoding exists for: a count fits its field (30_encoding.md R92), a reserved
register index is one that names no register (10_state.md R41). Every other operand fits by its type. -/

namespace Sys2Proof

/-- The indices of 10_state.md R41 that name no register: fields 13..15 of a channel, and of `r[8] = 1` all but 0x100
to 0x105, 0x110, 0x111. -/
def reservedIndex (r : BitVec 9) : Bool :=
  if r.toNat < 0x100 then 13 ≤ r.toNat % 16
  else (0x106 ≤ r.toNat && r.toNat ≤ 0x10F) || 0x112 ≤ r.toNat

/-- A register of WR and RD is well formed when a `reserved` one is reserved. -/
def Reg.wf : Reg → Bool
  | .ch _ _ => true
  | .eng _ => true
  | .reserved r => reservedIndex r

/-- An instruction is well formed when its encoding can hold it. -/
def Instr.wf : Instr → Bool
  | .nop => true
  | .reset => true
  | .init => true
  | .shutdown => true
  | .wr r _ => r.wf
  | .rd r => r.wf
  | .gen _ n => n < 2 ^ 24
  | .dmix n => n < 2 ^ 24
  | .mix byteLength => byteLength < 2 ^ 28
  | .tblinit => true
  | .tblrd _ => true
  | .adh _ => true
  | .adx _ _ => true
  | .smpPcm8 => true
  | .smpPcm16 => true
  | .smpAdpcm => true
  | .smpPsg => true
  | .bndNone => true
  | .bndLoop => true
  | .bndStop => true
  | .bndRsvd => true

end Sys2Proof
end

