-- ==== Sys2Proof/Decode.lean ====
section
/-! DEFINITION. Decoding and encoding (30_encoding.md R90 to R97). A command is a 32-bit word and a 64-bit argument; a
control word `cnt` is decoded twice, by `cnt[30:29]` and by `cnt[28:27]` (R94). The same 32 bits can be a word of each
format, so the format is an input of `decodeAs` (log 15). The decoder is total: what it does not accept it rejects by
name. -/

namespace Sys2Proof

/-- Why a word is no instruction: `cmd[31:28]` is 0xD, 0xE or 0xF (30_encoding.md R98). -/
inductive DecodeError
  | reservedCommand (op : BitVec 4)
  deriving DecidableEq, Repr

/-! ## Control words -/

/-- `fmt <- cnt[30:29]` (30_encoding.md R93, R94). -/
def decodeFmt (cnt : Word) : Fmt :=
  match (cnt.extractLsb' 29 2).toNat with
  | 0 => .pcm8
  | 1 => .pcm16
  | 2 => .adpcm
  | _ => .psg

/-- `lm <- cnt[28:27]` (30_encoding.md R93, R94). -/
def decodeLoopMode (cnt : Word) : LoopMode :=
  match (cnt.extractLsb' 27 2).toNat with
  | 0 => .none
  | 1 => .loop
  | 2 => .stop
  | _ => .rsvd

/-- The sample micro-operation a format selects (30_encoding.md R97). -/
def Fmt.instr : Fmt → Instr
  | .pcm8 => .smpPcm8
  | .pcm16 => .smpPcm16
  | .adpcm => .smpAdpcm
  | .psg => .smpPsg

/-- The boundary micro-operation a loop mode selects (30_encoding.md R97). -/
def LoopMode.instr : LoopMode → Instr
  | .none => .bndNone
  | .loop => .bndLoop
  | .stop => .bndStop
  | .rsvd => .bndRsvd

/-- The CNT.FMT decode of a control word. -/
def decodeSample (cnt : Word) : Instr := (decodeFmt cnt).instr

/-- The CNT.LM decode of a control word. -/
def decodeBoundary (cnt : Word) : Instr := (decodeLoopMode cnt).instr

/-! ## Register indices -/

/-- Field numbers `f` of 10_state.md R41. -/
def ChField.ofNum : Nat → Option ChField
  | 0 => some .cnt
  | 1 => some .dataSrc
  | 2 => some .dataPos
  | 3 => some .loopStart
  | 4 => some .len
  | 5 => some .samples
  | 6 => some .volume
  | 7 => some .playing
  | 8 => some .freq
  | 9 => some .adpcmHeader
  | 10 => some .adpcmIndex
  | 11 => some .adpcmVal
  | 12 => some .enable
  | _ => none

/-- The low eight bits of the indices from 0x100 (10_state.md R41). -/
def EngReg.ofNum : Nat → Option EngReg
  | 0x00 => some .soundOn
  | 0x01 => some .stereo
  | 0x02 => some .sampleRate
  | 0x03 => some .mainVolume
  | 0x04 => some .channelMasterVolume
  | 0x05 => some .lifecycle
  | 0x10 => some .cfgSampleRate
  | 0x11 => some .cfgVolume
  | _ => none

/-- A 4-bit field read as a channel id, "always in 0..15" (30_encoding.md R96). -/
def channelIdOf (b : BitVec 4) : ChannelId := ⟨b.toNat, b.isLt⟩

/-- `r[8] = 0` selects a channel register with `r[7:4]` the channel and `r[3:0]` the field; `r[8] = 1` an engine or
configuration register by `r[7:0]` (30_encoding.md R95). -/
def Reg.ofIndex (r : BitVec 9) : Reg :=
  if r.getLsbD 8 then
    match EngReg.ofNum (r.extractLsb' 0 8).toNat with
    | some e => .eng e
    | none => .reserved r
  else
    match ChField.ofNum (r.extractLsb' 0 4).toNat with
    | some f => .ch (channelIdOf (r.extractLsb' 4 4)) f
    | none => .reserved r

/-! ## Commands -/

/-- `cmd[31:28]` and the operand fields of each command in `cmd[27:0]` (30_encoding.md R92, R97). Bits a command does
not name are ignored (R98). -/
def decodeOp (op : BitVec 4) (operand : BitVec 28) (arg : Dword) : Except DecodeError Instr :=
  match op.toNat with
  | 0x0 => .ok .nop
  | 0x1 => .ok .reset
  | 0x2 => .ok .init
  | 0x3 => .ok .shutdown
  | 0x4 => .ok (.wr (Reg.ofIndex (operand.extractLsb' 0 9)) arg)
  | 0x5 => .ok (.rd (Reg.ofIndex (operand.extractLsb' 0 9)))
  | 0x6 => .ok (.gen (channelIdOf (operand.extractLsb' 0 4)) (operand.extractLsb' 4 24).toNat)
  | 0x7 => .ok (.dmix (operand.extractLsb' 4 24).toNat)
  | 0x8 => .ok (.mix operand.toNat)
  | 0x9 => .ok .tblinit
  | 0xA => .ok (.tblrd ⟨(operand.extractLsb' 0 7).toNat, (operand.extractLsb' 0 7).isLt⟩)
  | 0xB => .ok (.adh (channelIdOf (operand.extractLsb' 0 4)))
  | 0xC => .ok (.adx (channelIdOf (operand.extractLsb' 0 4)) (operand.extractLsb' 4 4))
  | _ => .error (.reservedCommand op)

/-- A command word and its argument (30_encoding.md R91). -/
def decode (cmd : Word) (arg : Dword) : Except DecodeError Instr :=
  decodeOp (cmd.extractLsb' 28 4) (cmd.extractLsb' 0 28) arg

/-- A word read in one of the three formats of the opcode table (30_encoding.md R94). -/
def decodeAs (kind : WordKind) (w : Word) (arg : Dword) : Except DecodeError Instr :=
  match kind with
  | .cmd => decode w arg
  | .cntFmt => .ok (decodeSample w)
  | .cntLm => .ok (decodeBoundary w)

/-! ## Encoding -/

/-- The words of an instruction: a command word or a control word, and the argument that accompanies a command. -/
structure Encoded where
  word : Word
  arg : Dword
  deriving DecidableEq, Repr

/-- Field numbers `f` of 10_state.md R41. -/
def ChField.num : ChField → Nat
  | .cnt => 0
  | .dataSrc => 1
  | .dataPos => 2
  | .loopStart => 3
  | .len => 4
  | .samples => 5
  | .volume => 6
  | .playing => 7
  | .freq => 8
  | .adpcmHeader => 9
  | .adpcmIndex => 10
  | .adpcmVal => 11
  | .enable => 12

/-- Indices from 0x100 (10_state.md R41). -/
def EngReg.num : EngReg → Nat
  | .soundOn => 0x00
  | .stereo => 0x01
  | .sampleRate => 0x02
  | .mainVolume => 0x03
  | .channelMasterVolume => 0x04
  | .lifecycle => 0x05
  | .cfgSampleRate => 0x10
  | .cfgVolume => 0x11

/-- The 9-bit register index (10_state.md R41): `(id << 4) | f`, or 0x100 plus the engine register's number. -/
def Reg.index : Reg → BitVec 9
  | .ch id f => BitVec.ofNat 9 (16 * id.val + f.num)
  | .eng e => BitVec.ofNat 9 (0x100 + e.num)
  | .reserved r => r

/-- `cmd[31:28] = op`, `cmd[27:0] = operand` (30_encoding.md R91). -/
def commandWord (op : BitVec 4) (operand : BitVec 28) : Word := op ++ operand

/-- The command word of an operand given as a number (30_encoding.md R100 writes operands so). -/
def command (op : BitVec 4) (operand : Nat) : Encoded := ⟨commandWord op (BitVec.ofNat 28 operand), 0⟩

/-- A control word with the two selectors and every other bit 0 (30_encoding.md R93). -/
def controlWord (fmt lm : BitVec 2) : Word := (0 : BitVec 1) ++ fmt ++ lm ++ (0 : BitVec 27)

/-- The words of an instruction, from the tables of 30_encoding.md R92, R93 and R100. Unnamed bits are written 0. -/
def encode : Instr → Encoded
  | .nop => command 0x0 0
  | .reset => command 0x1 0
  | .init => command 0x2 0
  | .shutdown => command 0x3 0
  | .wr r arg => ⟨commandWord 0x4 (BitVec.ofNat 28 r.index.toNat), arg⟩
  | .rd r => command 0x5 r.index.toNat
  | .gen id n => command 0x6 (16 * n + id.val)
  | .dmix n => command 0x7 (16 * n)
  | .mix byteLength => command 0x8 byteLength
  | .tblinit => command 0x9 0
  | .tblrd a => command 0xA a.val
  | .adh id => command 0xB id.val
  | .adx id d => command 0xC (16 * d.toNat + id.val)
  | .smpPcm8 => ⟨controlWord 0 0, 0⟩
  | .smpPcm16 => ⟨controlWord 1 0, 0⟩
  | .smpAdpcm => ⟨controlWord 2 0, 0⟩
  | .smpPsg => ⟨controlWord 3 0, 0⟩
  | .bndNone => ⟨controlWord 0 0, 0⟩
  | .bndLoop => ⟨controlWord 0 1, 0⟩
  | .bndStop => ⟨controlWord 0 2, 0⟩
  | .bndRsvd => ⟨controlWord 0 3, 0⟩

/-! ## The table's numbering -/

/-- The command word of an instruction numbered as the opcode table numbers it: bits 31:0, the bits from `nbits` on
being 0. -/
def tableCommand (nbits w : Nat) : Word := BitVec.ofNat 32 (w % 2 ^ nbits)

/-- The argument that follows the command word: bits 95:32. -/
def tableArgument (nbits w : Nat) : Dword := BitVec.ofNat 64 (w % 2 ^ nbits / 2 ^ 32)

/-- The instruction the decoder of the command port reads (log 15: a word of the table is taken as a command word, the
only word the port carries). -/
def decodeTableWord (nbits w : Nat) : Option Instr :=
  match decode (tableCommand nbits w) (tableArgument nbits w) with
  | .ok i => some i
  | .error _ => none

end Sys2Proof
end

