-- ==== Sys2Proof/Machine/Memory.lean ====
section
/-! DEFINITION. Sparse storage: the one canonical form of the Memory Source and of the mix buffer, a list of (index,
value) pairs with strictly rising indices. An index that is not listed holds no value of its own: a memory byte the
platform has not populated (20_memory.md R68, log 9), a mix slot that nothing has written since reset (10_state.md
R38). -/

namespace Sys2Proof.Machine

/-- The value listed at an index, if any. -/
def sparseGet {α : Type} (m : List (Nat × α)) (a : Nat) : Option α :=
  match m with
  | [] => none
  | (b, w) :: t => if b = a then some w else sparseGet t a

/-- Write a value at an index, keeping the indices rising. -/
def sparseSet {α : Type} (m : List (Nat × α)) (a : Nat) (v : α) : List (Nat × α) :=
  match m with
  | [] => [(a, v)]
  | (b, w) :: t =>
    if a < b then (a, v) :: (b, w) :: t
    else if a = b then (a, v) :: t
    else (b, w) :: sparseSet t a v

/-- The canonical form: strictly rising indices below a bound. -/
abbrev SparseWf {α : Type} (bound : Nat) (m : List (Nat × α)) : Prop :=
  m.Pairwise (fun x y => x.1 < y.1) ∧ ∀ x ∈ m, x.1 < bound

/-- The Memory Source: the bytes the platform has populated, by byte address (20_memory.md R60). -/
abbrev Memory := List Host.Cell

/-- The canonical form of memory: rising addresses of 32 bits (20_memory.md R60). An unlisted address lists no byte, so
no entry repeats what an unlisted address holds. -/
abbrev Memory.wf (m : Memory) : Prop := SparseWf (2 ^ 32) m

/-- `read_byte(address)` on an image: the populated byte, or the free byte of that address (20_memory.md R62, R68). -/
def Memory.read (m : Memory) (a : Word) : Byte := (sparseGet m a.toNat).getD (Config.unpopulated a.toNat)

/-- `read_u16_fast(address)` on an image: the byte at the lower address is the low half (20_memory.md R63). -/
def Memory.readHalf (m : Memory) (a : Word) : Half := m.read (a + 1) ++ m.read a

/-- A store of the platform (never of the block, 20_memory.md R61). -/
structure Store where
  addr : Word
  value : Byte
  deriving DecidableEq, Repr

/-- The platform populates or changes one byte. -/
def Memory.store (m : Memory) (x : Store) : Memory := sparseSet m x.addr.toNat x.value

/-- Stores of the platform in the order they land. -/
def Memory.storeAll (m : Memory) (xs : List Store) : Memory := xs.foldl Memory.store m

end Sys2Proof.Machine
end

