-- ==== Sys2Proof/Machine/StepTable.lean ====
section
/-! DEFINITION. The step-table recurrence (40_adpcm_decoder.md R110 to R112, R115). -/

namespace Sys2Proof.Machine

/-- The accumulator after `a` updates, a number of `width` bits: `x_0 = ADPCM_SEED`, `x_(a+1) = (x_a + tdiv(x_a, 10)) mod
2^width`, at every step, the override steps included (40_adpcm_decoder.md R110 to R112). `ACC_WIDTH = 32` is R110's `u32`; the
same reduction at any other width is the model's (log 26). -/
def accumulatorAt (width : Nat) (seed : Word) : Nat → Nat
  | 0 => seed.toNat % 2 ^ width
  | a + 1 => (accumulatorAt width seed a + accumulatorAt width seed a / 10) % 2 ^ width

/-- `T[a]`: the three overrides, zero from 89, else `x[31:16]` of the accumulator before this step's update
(40_adpcm_decoder.md R110, R112). -/
def tableEntry (p : Params) (a : Nat) : Word :=
  if a = 3 then 0xA
  else if a = 4 then 0xB
  else if a = 88 then 0x7FFF
  else if 89 ≤ a then 0
  else BitVec.ofNat 32 (accumulatorAt p.accWidth p.adpcmSeed a / 2 ^ 16 % 2 ^ 16)

/-- The whole table, "a pure function of `ADPCM_SEED`" (10_state.md R37) and of the width of its accumulator. -/
def stepTable (p : Params) : Vector Word 128 := Vector.ofFn fun a => tableEntry p a.val

end Sys2Proof.Machine
end

