-- ==== Sys2Proof/Machine/State.lean ====
section
/-! DEFINITION. The state of the block (10_state.md R20 to R44), what stands at its ports, why a step can stop, and the
state after power-on (R43). State is plain data. -/

namespace Sys2Proof.Machine

/-- One bank of channel registers (10_state.md R21). `enable` is `cnt[31]` and has no storage of its own (R23).
`adpcm_index` and `adpcm_val` are `i32`: their two's-complement patterns. -/
structure Channel where
  cnt : Word
  dataSrc : Word
  dataPos : Word
  loopStart : Word
  len : Word
  samples : Word
  volume : BitVec 7
  playing : Bool
  freq : Dword
  adpcmHeader : Word
  adpcmIndex : Word
  adpcmVal : Word
  deriving DecidableEq, Repr

/-- "All fields of all banks are zero after reset" (10_state.md R21, R43). -/
def Channel.zero : Channel where
  cnt := 0
  dataSrc := 0
  dataPos := 0
  loopStart := 0
  len := 0
  samples := 0
  volume := 0
  playing := false
  freq := 0
  adpcmHeader := 0
  adpcmIndex := 0
  adpcmVal := 0

/-- Engine State less the step table (10_state.md R33). -/
structure Engine where
  soundOn : Bool
  stereo : Bool
  sampleRate : Word
  mainVolume : BitVec 7
  channelMasterVolume : BitVec 8
  deriving DecidableEq, Repr

/-- The configuration registers (10_state.md R35). -/
structure Cfg where
  sampleRate : Word
  volume : BitVec 8
  deriving DecidableEq, Repr

/-- The lifecycle state `LS` (10_state.md R36). -/
inductive Lifecycle
  | uninit | initialized | running | shutdown
  deriving DecidableEq, Repr

/-- The transient state of one GEN call (10_state.md R39). `x` and `played` count slots of one call, fewer than 2^28
(log 20). -/
structure GenCall where
  id : ChannelId
  ratio : Rat
  vol : Rat
  sil : Rat
  fmt : Fmt
  lm : LoopMode
  x : Nat
  played : Nat
  addr : Word
  deriving DecidableEq, Repr

/-- A read issued at the Memory Source port (20_memory.md R69): `MemRead(addr, 1)` or `MemRead(addr, 2)`. -/
inductive ReadRequest
  | byte (addr : Word)
  | half (addr : Word)
  deriving DecidableEq, Repr

/-- A request at the boundary to the audio device (45_host_commands.md R201, R212, R213). Opening it also registers the
pull callback (R212). -/
inductive DeviceRequest
  | openDevice (rate : Word) (channels : Nat) (sampleBits : Nat) (bufferSamples : Nat)
  | closeDevice
  deriving DecidableEq, Repr

/-- What a command returns on the data port (30_encoding.md R102): 64 bits (RD), 32 bits (TBLRD, ADX), one bit (INIT). -/
inductive Result
  | dword (v : Dword)
  | word (v : Word)
  | bit (b : Bool)
  deriving DecidableEq, Repr

/-- What the last command has put on the block's output ports (30_encoding.md R102; log 19). -/
structure Response where
  result : Option Result
  /-- The samples emitted on the output port, in order (44_mixer.md R187). -/
  samples : List Half
  /-- The reads issued, in order (20_memory.md R69). -/
  reads : List ReadRequest
  /-- The requests to the audio device, in order. -/
  device : List DeviceRequest
  deriving DecidableEq, Repr

/-- Nothing on any port. -/
def Response.empty : Response where
  result := none
  samples := []
  reads := []
  device := []

/-- A command at the port: its word, its argument (30_encoding.md R91) and the environment's `dev_ok`, which only INIT
reads (45_host_commands.md R212, log 6). -/
structure PortCommand where
  cmd : Word
  arg : Dword
  devOk : Bool
  deriving DecidableEq, Repr

/-- What has arrived and waits: a command, or a store of the platform to the Memory Source (20_memory.md R72, log 18). -/
inductive Arrival
  | command (c : PortCommand)
  | store (x : Store)
  deriving DecidableEq, Repr

/-- The machine. -/
structure State where
  /-- Build parameters, constant (00_scope.md R6, log 3). -/
  params : Params
  /-- The sixteen channels (10_state.md R21). -/
  ch : Vector Channel 16
  /-- Engine State (10_state.md R33). -/
  eng : Engine
  /-- The step table `T` (10_state.md R37). -/
  table : Vector Word 128
  /-- Configuration registers (10_state.md R35). -/
  cfg : Cfg
  /-- Lifecycle (10_state.md R36). -/
  ls : Lifecycle
  /-- The mix buffer (10_state.md R38): the slots written since reset. -/
  acc : List (Nat × Word)
  /-- The GEN call in progress (10_state.md R39); none between commands. -/
  call : Option GenCall
  /-- The Memory Source (20_memory.md R60). -/
  mem : Memory
  /-- Arrivals at the command port, oldest first (20_memory.md R73, log 1). -/
  port : List Arrival
  /-- The environment's `dev_ok` for the command being executed (45_host_commands.md R212, log 6). -/
  devOk : Bool
  /-- With `MEM_STABLE = false`: the platform's stores that land before each coming read (20_memory.md R74, log 17). -/
  liveStores : List (List Store)
  /-- The block's output ports (30_encoding.md R102, log 19). -/
  resp : Response
  /-- The model's own: how many free slot values have been used (log 7, log 8). -/
  freeCount : Nat
  deriving DecidableEq, Repr

/-- The block has no faults: "the block has no trap mechanism at all" (60_exceptions.md R230, R231, R236). -/
inductive Fault
  deriving DecidableEq, Repr

/-- Why the model has no next state. Every one is safe: the model stops and proves nothing. -/
inductive Refusal
  /-- Raised by an arm of exec that has no meaning yet (none). Safe. -/
  | notModelled (mnemonic : String)
  /-- Raised by GEN and MIX while `eng.sample_rate = 0`: "the model refuses GEN and MIX in that state"
  (41_resampler_fetch.md R130, 93_implementation_defined.md U2, log 10). Safe. -/
  | sampleRateZero
  /-- Raised by a WR of a pattern to FREQ that is not finite and not negative: "the model refuses a WR that would store
  one" (10_state.md R30, 93_implementation_defined.md U3, log 11). Safe. -/
  | illegalFreqPattern
  /-- Raised by ADX with `adpcm_index` outside 0..127, which "has no defined lookup" (40_adpcm_decoder.md R119,
  93_implementation_defined.md U7: refuse the ADX, log 13). Safe. -/
  | adpcmIndexOutOfTable
  /-- Raised by a micro-operation applied when no GEN call is in progress: its operands do not exist (10_state.md R39,
  log 14). Safe. -/
  | noGenCall
  deriving DecidableEq, Repr

/-- Power-on (45_host_commands.md R203, 10_state.md R43): `cfg` from the parameters, then what RESET leaves. -/
def State.powerOn (p : Params) : State where
  params := p
  ch := Vector.replicate 16 Channel.zero
  eng :=
    { soundOn := false
      stereo := false
      sampleRate := p.cfgDefaultRate
      mainVolume := p.resetMainVolume
      channelMasterVolume := p.cfgDefaultVolume }
  table := stepTable p
  cfg := { sampleRate := p.cfgDefaultRate, volume := p.cfgDefaultVolume }
  ls := .uninit
  acc := []
  call := none
  mem := []
  port := []
  devOk := false
  liveStores := []
  resp := Response.empty
  freeCount := 0

/-- The machine right after power-on with the default parameters (log 4 names the two that have no default). -/
def State.reset : State := State.powerOn Params.default

end Sys2Proof.Machine
end

