-- ==== Sys2Proof/Machine/Operands.lean ====
section
/-! DEFINITION. How operands are built (30_encoding.md R96), and the exact arithmetic of the block: truncation toward
zero at the named points (00_scope.md R8 to R10), the frequency register, the composite volume. -/

namespace Sys2Proof.Machine

/-- `trunc(q)`: discard the fraction, rounding toward zero (00_scope.md R9). -/
def trunc (q : Rat) : Int := q.num.tdiv q.den

/-! ## The frequency register -/

/-- Legal patterns: finite and not negative, negative zero included (10_state.md R30). -/
def legalFreq (p : Dword) : Bool :=
  (!p.getLsbD 63 && (p.extractLsb' 52 11).toNat != 0x7FF) || p == 0x8000000000000000

/-- `fval(p)`, the exact value of a legal binary64 pattern (10_state.md R31). Of an illegal one it is a free value, which
no run can meet (log 12). -/
def fval (p : Dword) : Rat :=
  let e := (p.extractLsb' 52 11).toNat
  let f := (p.extractLsb' 0 52).toNat
  if legalFreq p then
    if e = 0 then mkRat f (2 ^ 1074)
    else if e ≤ 1075 then mkRat (2 ^ 52 + f : Nat) (2 ^ (1075 - e))
    else (((2 ^ 52 + f) * 2 ^ (e - 1075) : Nat) : Rat)
  else Config.illegalFreqValue p

/-- `ratio = fval(freq) / eng.sample_rate`, exact, in bytes of source memory per output sample (41_resampler_fetch.md
R130). -/
def sampleRatio (c : Channel) (e : Engine) : Rat := fval c.freq / (e.sampleRate.toNat : Rat)

/-! ## Volume -/

/-- VOL.COMP: the composite volume, three exact fractions (43_volume.md R170). -/
def compositeVolume (c : Channel) (e : Engine) : Rat :=
  let stage1 : Rat := if c.volume = 0 then 0 else (c.volume.toNat : Rat) / 127
  let stage2 : Rat := (e.mainVolume.toNat : Rat) / 127
  let stage3 : Rat := (e.channelMasterVolume.toNat : Rat) / 128
  stage1 * stage2 * stage3

/-- `sil = -32768 * vol` (43_volume.md R172). -/
def silenceValue (vol : Rat) : Rat := -32768 * vol

/-- VOL.SCALE after the add: `trunc((a + s') * vol)` (43_volume.md R173, R174). -/
def volScale (vol : Rat) (sample : Int) (a : Int) : Int := trunc (((a + sample : Int) : Rat) * vol)

/-- `trunc(a + sil)`: the exact sum, truncated once (41_resampler_fetch.md R139). -/
def addSilence (sil : Rat) (a : Int) : Int := trunc ((a : Rat) + sil)

/-! ## Addresses -/

/-- `addr & 0xFFFFFFFE` (20_memory.md R65). -/
def evenAddr (a : Word) : Word := a &&& 0xFFFFFFFE

/-- A position moved on by `trunc(ratio * k)` modulo 2^32 (41_resampler_fetch.md R133, 42_position_loop_stop.md R156). -/
def advance (pos : Word) (ratio : Rat) (k : Nat) : Word := pos + BitVec.ofInt 32 (trunc (ratio * (k : Rat)))

/-- `unit`: 4 for PCM8, 2 for PCM16, undefined for the others (30_encoding.md R96). -/
def loopUnit : Fmt → Option Word
  | .pcm8 => some 4
  | .pcm16 => some 2
  | .adpcm => none
  | .psg => none

/-- The boundary `(data_src + samples) mod 2^32` (30_encoding.md R96, 42_position_loop_stop.md R151). -/
def boundary (c : Channel) : Word := c.dataSrc + c.samples

/-- `n = byte_length >> 1` (44_mixer.md R185). -/
def slotsOfBytes (byteLength : Nat) : Nat := byteLength / 2

/-! ## Downmix -/

/-- `low_16(tdiv(acc, 16))` (44_mixer.md R188, R189). -/
def downmix (a : Int) : Half := BitVec.ofInt 16 (a.tdiv 16)

/-- The bytes a host stores for emitted samples, low byte at the lower address (20_memory.md R64). -/
def hostBytes (samples : List Half) : List Byte := samples.flatMap fun s => [s.extractLsb' 0 8, s.extractLsb' 8 8]

/-! ## ADPCM expand (the default-off extension) -/

/-- An `adpcm_index` as an index of the table, where it is in 0..127 (40_adpcm_decoder.md R119). -/
def tableIndexOf (i : Word) : Option TableIndex := if h : i.toNat < 128 then some ⟨i.toNat, h⟩ else none

/-- `diff`: `tdiv(t, 8)` plus `tdiv(t, 4)`, `tdiv(t, 2)` and `t` by bits 0, 1, 2 of the code (40_adpcm_decoder.md R123). -/
def expandDiff (t : Int) (d : BitVec 4) : Int :=
  t.tdiv 8 + (if d.getLsbD 0 then t.tdiv 4 else 0) + (if d.getLsbD 1 then t.tdiv 2 else 0)
    + (if d.getLsbD 2 then t else 0)

/-- The new predicted sample: the difference added or subtracted by bit 3, clamped (40_adpcm_decoder.md R123). -/
def expandValue (val t : Int) (d : BitVec 4) : Int :=
  if d.getLsbD 3 then max (val - expandDiff t d) (-0x7FFF) else min (val + expandDiff t d) 0x7FFF

/-- `IDX = [-1, -1, -1, -1, 2, 4, 6, 8]` indexed by `d[2:0]` (40_adpcm_decoder.md R123). -/
def indexAdjust (d : BitVec 4) : Int :=
  match (d.extractLsb' 0 3).toNat with
  | 4 => 2
  | 5 => 4
  | 6 => 6
  | 7 => 8
  | _ => -1

/-- `min(max(i + IDX[d[2:0]], 0), 88)` (40_adpcm_decoder.md R123). -/
def expandIndex (i : Int) (d : BitVec 4) : Int := min (max (i + indexAdjust d) 0) 88

/-- `min(h[22:16], 88)` (40_adpcm_decoder.md R122). -/
def headerIndex (h : Word) : Nat := min (h.extractLsb' 16 7).toNat 88

end Sys2Proof.Machine
end

