-- ==== Sys2Proof/Machine/Flags.lean ====
section
/-! DEFINITION. The tests and flag updates of the block (10_state.md R34: four one-bit flags and no condition codes). -/

namespace Sys2Proof.Machine

/-- The playing test: `samples != 0 and playing = 1`; it reads no other flag (41_resampler_fetch.md R132). -/
def playingTest (c : Channel) : Bool := c.samples != 0 && c.playing

/-- The boundary test, an unsigned 32-bit compare (42_position_loop_stop.md R150). -/
def boundaryHit (addr : Word) (c : Channel) : Bool := (boundary c).toNat ≤ addr.toNat

/-- `enable` is `cnt[31]` (10_state.md R23). -/
def enableBit (c : Channel) : Bool := c.cnt.getLsbD 31

/-- A write of `ENABLE` sets `cnt[31]` and nothing else (10_state.md R23). -/
def setEnable (b : Bool) (c : Channel) : Channel :=
  { c with cnt := (c.cnt &&& 0x7FFFFFFF) ||| (if b then 0x80000000 else 0) }

/-- What BND.STOP does to the flags: `playing <- 0`, clear `cnt[31]` (42_position_loop_stop.md R154). -/
def stopFlags (c : Channel) : Channel := { c with playing := false, cnt := c.cnt &&& 0x7FFFFFFF }

/-- "`LS` records whether the audio device is open (`INITIALIZED`, `RUNNING`) or closed" (10_state.md R36). -/
def deviceOpen : Lifecycle → Bool
  | .uninit => false
  | .initialized => true
  | .running => true
  | .shutdown => false

/-- The two-bit code of `LS` (10_state.md R36). -/
def lifecycleCode : Lifecycle → BitVec 2
  | .uninit => 0
  | .initialized => 1
  | .running => 2
  | .shutdown => 3

/-- The three conditions of a channel (42_position_loop_stop.md R160). -/
inductive Condition
  | playing | starved | stopped
  deriving DecidableEq, Repr

/-- "decided by two stored values and nothing hidden" (42_position_loop_stop.md R160). -/
def condition (c : Channel) : Condition :=
  if c.playing then (if c.samples = 0 then .starved else .playing) else .stopped

end Sys2Proof.Machine
end

