-- ==== Sys2Proof/Machine/Ops.lean ====
section
/-! DEFINITION. The shared operations over the state: channels, mix-buffer slots, the Memory Source port, the result
ports, the audio device's boundary, and taking the next arrival from the command port. There is no exception entry and
no return from one: "There is no trap entry", "There is no trap return" (60_exceptions.md R236, R237). -/

namespace Sys2Proof.Machine

/-- The outcome of an instruction. -/
abbrev Outcome := Host.Outcome State Fault Refusal

/-! ## Channels -/

/-- `ch[id]`. -/
def State.chan (s : State) (id : ChannelId) : Channel := s.ch[id.val]

/-- `ch[id] <- c`. -/
def State.setChan (s : State) (id : ChannelId) (c : Channel) : State := { s with ch := s.ch.set id.val c }

/-! ## Mix-buffer slots -/

/-- `acc[x]` as an integer. A slot that nothing has written since reset is a free `i32` (10_state.md R38,
93_implementation_defined.md U6, log 7). -/
def State.slot (s : State) (x : Nat) : Int := ((sparseGet s.acc x).getD (Config.freeSlot s.freeCount)).toInt

/-- The count of free values used goes up when a slot that nothing has written is read (log 7). -/
def State.noteSlotRead (s : State) (x : Nat) : State :=
  match sparseGet s.acc x with
  | some _ => s
  | none => { s with freeCount := s.freeCount + 1 }

/-- Whether an integer is an `i32` (00_scope.md R8). -/
def fitsI32 (v : Int) : Bool := -2147483648 ≤ v && v ≤ 2147483647

/-- `acc[x] <- v`. A value outside `i32`, for which the spec states no result, leaves a free `i32` (log 8). -/
def State.setSlot (s : State) (x : Nat) (v : Int) : State :=
  if fitsI32 v then { s with acc := sparseSet s.acc x (BitVec.ofInt 32 v) }
  else { s with acc := sparseSet s.acc x (Config.freeSlot s.freeCount), freeCount := s.freeCount + 1 }

/-- `acc[x] <- f(acc[x])`: the internal read-modify-write of one slot (20_memory.md R76). -/
def State.updateSlot (s : State) (x : Nat) (f : Int → Int) : State := (s.noteSlotRead x).setSlot x (f (s.slot x))

/-! ## The Memory Source port -/

/-- What the platform may do before a read is answered: nothing with `MEM_STABLE = true`, its next batch of stores with
`MEM_STABLE = false` (20_memory.md R74, log 17). -/
def State.platformTurn (s : State) : State :=
  if s.params.memStable then s
  else
    match s.liveStores with
    | [] => s
    | xs :: rest => { s with mem := s.mem.storeAll xs, liveStores := rest }

/-- Show a read request at the port (20_memory.md R69, log 19). -/
def State.noteRead (s : State) (r : ReadRequest) : State :=
  { s with resp := { s.resp with reads := s.resp.reads ++ [r] } }

/-- The state after the one access of `MemRead(a, 1)`. -/
def State.afterReadByte (s : State) (a : Word) : State := s.platformTurn.noteRead (.byte a)

/-- What `MemRead(a, 1)` returns (20_memory.md R62). -/
def State.readByte (s : State) (a : Word) : Byte := s.platformTurn.mem.read a

/-- The state after the one access of `MemRead(a, 2)`. -/
def State.afterReadHalf (s : State) (a : Word) : State := s.platformTurn.noteRead (.half a)

/-- What `MemRead(a, 2)` returns, one atomic access (20_memory.md R63, R67). -/
def State.readHalf (s : State) (a : Word) : Half := s.platformTurn.mem.readHalf a

/-! ## Result ports -/

/-- Return one data word or bit (30_encoding.md R102). -/
def State.answer (s : State) (r : Result) : State := { s with resp := { s.resp with result := some r } }

/-- Emit one output sample (44_mixer.md R187). -/
def State.emit (s : State) (v : Half) : State := { s with resp := { s.resp with samples := s.resp.samples ++ [v] } }

/-! ## The audio device's boundary -/

/-- Ask the audio device for something (60_exceptions.md R242). -/
def State.askDevice (s : State) (r : DeviceRequest) : State :=
  { s with resp := { s.resp with device := s.resp.device ++ [r] } }

/-- Close the audio device if it is open (45_host_commands.md R201, R212, R213). -/
def State.closeDevice (s : State) : State := if deviceOpen s.ls then s.askDevice .closeDevice else s

/-! ## The command port -/

/-- Take a command from the port: the others wait, the output ports are clear, `dev_ok` is the environment's for this
command (20_memory.md R73, 45_host_commands.md R212, logs 1, 6, 19). -/
def State.accept (s : State) (c : PortCommand) (rest : List Arrival) : State :=
  { s with port := rest, devOk := c.devOk, resp := Response.empty }

/-- A store of the platform between commands (20_memory.md R72, log 18). -/
def State.platformStore (s : State) (x : Store) (rest : List Arrival) : State :=
  { s with port := rest, mem := s.mem.store x }

end Sys2Proof.Machine
end

