-- ==== Sys2Proof/Machine/Adpcm.lean ====
section
/-! DEFINITION. TBLINIT, TBLRD and the default-off extension ADH, ADX (40_adpcm_decoder.md R110, R117, R120 to R123). -/

namespace Sys2Proof.Machine

/-- TBLINIT (40_adpcm_decoder.md R110, R116). -/
def execTblinit (s : State) : Outcome := .next { s with table := stepTable s.params }

/-- TBLRD (40_adpcm_decoder.md R117): `result <- low_32(T[a])`. -/
def execTblrd (a : TableIndex) (s : State) : Outcome := .next (s.answer (.word s.table[a.val]))

/-- ADH's effect (40_adpcm_decoder.md R121, R122). -/
def loadHeader (c : Channel) : Channel :=
  { c with
    adpcmVal := (c.adpcmHeader.extractLsb' 0 16).signExtend 32
    adpcmIndex := BitVec.ofNat 32 (headerIndex c.adpcmHeader) }

/-- ADH (40_adpcm_decoder.md R122); without the extension a reserved command, which changes nothing (30_encoding.md R98,
40_adpcm_decoder.md R120, log 21). -/
def execAdh (id : ChannelId) (s : State) : Outcome :=
  if s.params.adpcmExpand then .next (s.setChan id (loadHeader (s.chan id))) else .next s

/-- ADX's effect on a channel for the table entry `t` (40_adpcm_decoder.md R123). -/
def expandStep (c : Channel) (t : Word) (d : BitVec 4) : Channel :=
  { c with
    adpcmVal := BitVec.ofInt 32 (expandValue c.adpcmVal.toInt t.toInt d)
    adpcmIndex := BitVec.ofInt 32 (expandIndex c.adpcmIndex.toInt d) }

/-- ADX (40_adpcm_decoder.md R123); without the extension a reserved command, which changes nothing (30_encoding.md R98).
It is refused where `adpcm_index` is no index of the table (R119, log 13). -/
def execAdx (id : ChannelId) (d : BitVec 4) (s : State) : Outcome :=
  if s.params.adpcmExpand then
    match tableIndexOf (s.chan id).adpcmIndex with
    | none => .refused .adpcmIndexOutOfTable
    | some a =>
      let c := expandStep (s.chan id) s.table[a.val] d
      .next ((s.setChan id c).answer (.word c.adpcmVal))
  else .next s

end Sys2Proof.Machine
end

