-- ==== Sys2Proof/Machine/Lifecycle.lean ====
section
/-! DEFINITION. NOP, RESET, INIT, SHUTDOWN (45_host_commands.md R200, R201, R212, R213). -/

namespace Sys2Proof.Machine

/-- NOP (45_host_commands.md R200): "No state changes, nothing is returned". -/
def execNop (s : State) : Outcome := .next s

/-- The registers and memories RESET writes (45_host_commands.md R201). It leaves `cfg`, the parameters, the Memory Source
and the ports alone (log 27). -/
def State.resetBlock (s : State) : State :=
  { s with
    ls := .uninit
    ch := Vector.replicate 16 Channel.zero
    table := stepTable s.params
    eng :=
      { soundOn := false
        stereo := false
        sampleRate := s.cfg.sampleRate
        mainVolume := s.params.resetMainVolume
        channelMasterVolume := s.cfg.volume }
    acc := []
    call := none }

/-- RESET (45_host_commands.md R201): close the device if it is open, then re-zero. -/
def execReset (s : State) : Outcome := .next s.closeDevice.resetBlock

/-- INIT (45_host_commands.md R212): close an open device, ask for a new one at `eng.sample_rate`, mono, signed 16-bit,
`HOST_BUF_SAMPLES`; `dev_ok` decides `LS` and the result. -/
def execInit (s : State) : Outcome :=
  .next
    ({ s.closeDevice.askDevice (.openDevice s.eng.sampleRate 1 16 s.params.hostBufSamples) with
        ls := if s.devOk then .initialized else .uninit }.answer (.bit s.devOk))

/-- SHUTDOWN (45_host_commands.md R213): close the device if it is open; `LS <- SHUTDOWN`. -/
def execShutdown (s : State) : Outcome := .next { s.closeDevice with ls := .shutdown }

end Sys2Proof.Machine
end

