-- ==== Sys2Proof/Machine/Sample.lean ====
section
/-! DEFINITION. The sample micro-operations of a GEN call (41_resampler_fetch.md R134 to R139). Each is a function of the
call's transient state and the block's state; GEN applies it at an index, and the same function is the meaning of the
row of the opcode table, on the call that State holds (log 14). -/

namespace Sys2Proof.Machine

/-- A GEN call in progress and the state it runs over. -/
abbrev Run := GenCall × State

/-- Apply a micro-operation to the call in progress; without one it has no operands (10_state.md R39, log 14). -/
def State.inCall (s : State) (f : Run → Run) : Outcome :=
  match s.call with
  | none => .refused .noGenCall
  | some c => .next { (f (c, s)).2 with call := some (f (c, s)).1 }

/-- ZSEED: channel 0 zeroes the slot (41_resampler_fetch.md R134). -/
def zseed (r : Run) : Run := if r.1.id = 0 then (r.1, r.2.setSlot r.1.x 0) else r

/-- SMP.PCM8: `s <- sext_8(MemRead(addr, 1))`, `acc[x] <- trunc((acc[x] + s * 256) * vol)` (41_resampler_fetch.md R135). -/
def smpPcm8 (r : Run) : Run :=
  (r.1, (r.2.afterReadByte r.1.addr).updateSlot r.1.x (volScale r.1.vol ((r.2.readByte r.1.addr).toInt * 256)))

/-- The read of SMP.PCM16 at the address it has forced even, then `acc[x] <- trunc((acc[x] + s) * vol)`. -/
def pcm16At (a : Word) (r : Run) : Run :=
  ({ r.1 with addr := a }, (r.2.afterReadHalf a).updateSlot r.1.x (volScale r.1.vol (r.2.readHalf a).toInt))

/-- SMP.PCM16: `addr <- addr & 0xFFFFFFFE`, `s <- sext_16(MemRead(addr, 2))` (41_resampler_fetch.md R136). -/
def smpPcm16 (r : Run) : Run := pcm16At (evenAddr r.1.addr) r

/-- `acc[x] <- trunc(acc[x] + sil)`, shared by SMP.ADPCM, SMP.PSG and SMP.SIL. -/
def addSil (r : Run) : Run := (r.1, r.2.updateSlot r.1.x (addSilence r.1.sil))

/-- SMP.ADPCM: the silence value, no read (41_resampler_fetch.md R137). -/
def smpAdpcm (r : Run) : Run := addSil r

/-- SMP.PSG: the silence value, no read (41_resampler_fetch.md R138). -/
def smpPsg (r : Run) : Run := addSil r

/-- SMP.SIL: the silence value, no read, no boundary test, no count (41_resampler_fetch.md R139). -/
def smpSil (r : Run) : Run := addSil r

/-- The sample micro-operation that the latched format selects (30_encoding.md R94). -/
def sampleOp : Fmt → Run → Run
  | .pcm8 => smpPcm8
  | .pcm16 => smpPcm16
  | .adpcm => smpAdpcm
  | .psg => smpPsg

/-- The row SMP.PCM8. -/
def execSmpPcm8 (s : State) : Outcome := s.inCall smpPcm8

/-- The row SMP.PCM16. -/
def execSmpPcm16 (s : State) : Outcome := s.inCall smpPcm16

/-- The row SMP.ADPCM. -/
def execSmpAdpcm (s : State) : Outcome := s.inCall smpAdpcm

/-- The row SMP.PSG. -/
def execSmpPsg (s : State) : Outcome := s.inCall smpPsg

end Sys2Proof.Machine
end

