-- ==== Sys2Proof/Machine/Boundary.lean ====
section
/-! DEFINITION. The boundary micro-operations and the end-of-call advance (42_position_loop_stop.md R150 to R157). -/

namespace Sys2Proof.Machine

/-- Change the registers of the call's channel. -/
def Run.mapChan (r : Run) (f : Channel → Channel) : Run := (r.1, r.2.setChan r.1.id (f (r.2.chan r.1.id)))

/-- BND.NONE: nothing (42_position_loop_stop.md R152). -/
def bndNone (r : Run) : Run := r

/-- BND.LOOP's effect on the channel for a unit: `data_src` moves by `loop_start * unit`, `data_pos` is the new
`data_src`, `samples` is `len * unit`, all modulo 2^32 (42_position_loop_stop.md R153). -/
def loopReload (unit : Word) (c : Channel) : Channel :=
  { c with
    dataSrc := c.dataSrc + c.loopStart * unit
    dataPos := c.dataSrc + c.loopStart * unit
    samples := c.len * unit }

/-- BND.LOOP: the reload for PCM8 and PCM16, nothing for the formats that have no unit (42_position_loop_stop.md R153). -/
def bndLoop (r : Run) : Run :=
  match loopUnit r.1.fmt with
  | some unit => r.mapChan (loopReload unit)
  | none => r

/-- BND.STOP: `playing <- 0`, clear `cnt[31]`, for every format (42_position_loop_stop.md R154). -/
def bndStop (r : Run) : Run := r.mapChan stopFlags

/-- BND.RSVD: nothing (42_position_loop_stop.md R155). -/
def bndRsvd (r : Run) : Run := r

/-- The boundary micro-operation that the latched loop mode selects (30_encoding.md R94). -/
def boundaryOp : LoopMode → Run → Run
  | .none => bndNone
  | .loop => bndLoop
  | .stop => bndStop
  | .rsvd => bndRsvd

/-- POS.ADV (42_position_loop_stop.md R156, R157): `data_pos` moves by `trunc(ratio * played)`; PCM16 forces it even. -/
def posAdv (r : Run) : Run :=
  r.mapChan fun c =>
    let pos := advance c.dataPos r.1.ratio r.1.played
    { c with dataPos := if r.1.fmt = .pcm16 then evenAddr pos else pos }

/-- The row BND.NONE. -/
def execBndNone (s : State) : Outcome := s.inCall bndNone

/-- The row BND.LOOP. -/
def execBndLoop (s : State) : Outcome := s.inCall bndLoop

/-- The row BND.STOP. -/
def execBndStop (s : State) : Outcome := s.inCall bndStop

/-- The row BND.RSVD. -/
def execBndRsvd (s : State) : Outcome := s.inCall bndRsvd

end Sys2Proof.Machine
end

