-- ==== Sys2Proof/Machine/Generator.lean ====
section
/-! DEFINITION. GEN, the Channel Sample Generator (41_resampler_fetch.md R129 to R133). -/

namespace Sys2Proof.Machine

/-- The start of a GEN call: ratio, format, loop mode, composite volume and silence value are computed once
(41_resampler_fetch.md R129 to R131; 43_volume.md R170, R172). -/
def GenCall.start (id : ChannelId) (s : State) : GenCall where
  id := id
  ratio := sampleRatio (s.chan id) s.eng
  vol := compositeVolume (s.chan id) s.eng
  sil := silenceValue (compositeVolume (s.chan id) s.eng)
  fmt := decodeFmt (s.chan id).cnt
  lm := decodeLoopMode (s.chan id).cnt
  x := 0
  played := 0
  addr := 0

/-- The address of this index (41_resampler_fetch.md R133). -/
def withAddr (r : Run) : Run :=
  ({ r.1 with addr := advance (r.2.chan r.1.id).dataPos r.1.ratio r.1.x }, r.2)

/-- The boundary test and, if it holds, the boundary micro-operation (42_position_loop_stop.md R150). -/
def atBoundary (r : Run) : Run := if boundaryHit r.1.addr (r.2.chan r.1.id) then boundaryOp r.1.lm r else r

/-- `played <- played + 1`. -/
def countPlayed (r : Run) : Run := ({ r.1 with played := r.1.played + 1 }, r.2)

/-- An index at which the playing test holds: address, sample micro-operation, boundary, count (60_exceptions.md R235). -/
def playIndex (r : Run) : Run := countPlayed (atBoundary (sampleOp r.1.fmt (withAddr r)))

/-- One index of the loop: ZSEED, the playing test on the current state, then a sample or silence
(41_resampler_fetch.md R129, R131, R132). -/
def genIndex (x : Nat) (r : Run) : Run :=
  let r := zseed ({ r.1 with x := x }, r.2)
  if playingTest (r.2.chan r.1.id) then playIndex r else smpSil r

/-- Indices 0 to n-1 in increasing order. -/
def genUpto : Nat → Run → Run
  | 0, r => r
  | n + 1, r => genIndex n (genUpto n r)

/-- GEN(id, n) (41_resampler_fetch.md R129). The call's transient state is discarded at its end (10_state.md R39). -/
def gen (id : ChannelId) (n : Nat) (s : State) : State :=
  { (posAdv (genUpto n (GenCall.start id s, s))).2 with call := none }

/-- The command GEN. `n > MIXBUF_LEN` is a reserved operand: no state change, no output (30_encoding.md R98, log 25).
With `eng.sample_rate = 0` the model refuses (41_resampler_fetch.md R130, log 10). -/
def execGen (id : ChannelId) (n : Nat) (s : State) : Outcome :=
  if s.params.mixbufLen < n then .next s
  else if s.eng.sampleRate = 0 then .refused .sampleRateZero
  else .next (gen id n s)

end Sys2Proof.Machine
end

