-- ==== Sys2Proof/Machine/Mixer.lean ====
section
/-! DEFINITION. DMIX and MIX (44_mixer.md R185 to R189). -/

namespace Sys2Proof.Machine

/-- `out[x] <- sext_16(low_16(tdiv(acc[x], 16)))`, emitted (44_mixer.md R187, R188). -/
def dmixSlot (x : Nat) (s : State) : State := (s.noteSlotRead x).emit (downmix (s.slot x))

/-- Slots 0 to n-1 in increasing order. -/
def dmixUpto : Nat → State → State
  | 0, s => s
  | n + 1, s => dmixSlot n (dmixUpto n s)

/-- The command DMIX (44_mixer.md R188). `n > MIXBUF_LEN` is a reserved operand (30_encoding.md R98). -/
def execDmix (n : Nat) (s : State) : Outcome :=
  if s.params.mixbufLen < n then .next s else .next (dmixUpto n s)

/-- The sixteen channels "in increasing id order" (44_mixer.md R186). -/
def channelOrder : List ChannelId := [0, 1, 2, 3, 4, 5, 6, 7, 8, 9, 10, 11, 12, 13, 14, 15]

/-- GEN for each channel of a list in turn. -/
def genEach (ids : List ChannelId) (n : Nat) (s : State) : State := ids.foldl (fun t id => gen id n t) s

/-- "MIX: INITIALIZED to RUNNING" (45_host_commands.md R214). -/
def State.firstPull (s : State) : State := if s.ls = .initialized then { s with ls := .running } else s

/-- MIX over n slots (44_mixer.md R185). -/
def mixSlots (n : Nat) (s : State) : State := (dmixUpto n (genEach channelOrder n s)).firstPull

/-- The command MIX (44_mixer.md R185). `byte_length >> 1 > MIXBUF_LEN` is a reserved operand (30_encoding.md R98); with
`eng.sample_rate = 0` the model refuses (41_resampler_fetch.md R130, log 10). -/
def execMix (byteLength : Nat) (s : State) : Outcome :=
  if s.params.mixbufLen < slotsOfBytes byteLength then .next s
  else if s.eng.sampleRate = 0 then .refused .sampleRateZero
  else .next (mixSlots (slotsOfBytes byteLength) s)

end Sys2Proof.Machine
end

