-- ==== Sys2Proof/Machine/Registers.lean ====
section
/-! DEFINITION. WR and RD (45_host_commands.md R205, R206; 10_state.md R41, R42). -/

namespace Sys2Proof.Machine

/-- A one-bit register zero-extended (10_state.md R42). -/
def flagDword (b : Bool) : Dword := if b then 1 else 0

/-- Read a channel field, zero-extended to 64 bits; the signed registers as their 32-bit pattern (10_state.md R42). -/
def readField (c : Channel) : ChField → Dword
  | .cnt => c.cnt.setWidth 64
  | .dataSrc => c.dataSrc.setWidth 64
  | .dataPos => c.dataPos.setWidth 64
  | .loopStart => c.loopStart.setWidth 64
  | .len => c.len.setWidth 64
  | .samples => c.samples.setWidth 64
  | .volume => c.volume.setWidth 64
  | .playing => flagDword c.playing
  | .freq => c.freq
  | .adpcmHeader => c.adpcmHeader.setWidth 64
  | .adpcmIndex => c.adpcmIndex.setWidth 64
  | .adpcmVal => c.adpcmVal.setWidth 64
  | .enable => flagDword (enableBit c)

/-- Read an engine or configuration register (10_state.md R41, R42). -/
def readEng (s : State) : EngReg → Dword
  | .soundOn => flagDword s.eng.soundOn
  | .stereo => flagDword s.eng.stereo
  | .sampleRate => s.eng.sampleRate.setWidth 64
  | .mainVolume => s.eng.mainVolume.setWidth 64
  | .channelMasterVolume => s.eng.channelMasterVolume.setWidth 64
  | .lifecycle => (lifecycleCode s.ls).setWidth 64
  | .cfgSampleRate => s.cfg.sampleRate.setWidth 64
  | .cfgVolume => s.cfg.volume.setWidth 64

/-- Read a register; a reserved index reads 0 (10_state.md R41). -/
def readReg (s : State) : Reg → Dword
  | .ch id f => readField (s.chan id) f
  | .eng r => readEng s r
  | .reserved _ => 0

/-- The write rules of the channel fields (10_state.md R41). -/
def writeField (c : Channel) (arg : Dword) : ChField → Channel
  | .cnt => { c with cnt := arg.extractLsb' 0 32 }
  | .dataSrc => { c with dataSrc := arg.extractLsb' 0 32 }
  | .dataPos => { c with dataPos := arg.extractLsb' 0 32 }
  | .loopStart => { c with loopStart := arg.extractLsb' 0 32 }
  | .len => { c with len := arg.extractLsb' 0 32 }
  | .samples => { c with samples := arg.extractLsb' 0 32 }
  | .volume => { c with volume := arg.extractLsb' 0 7 }
  | .playing => { c with playing := arg.getLsbD 0 }
  | .freq => { c with freq := arg }
  | .adpcmHeader => { c with adpcmHeader := arg.extractLsb' 0 32 }
  | .adpcmIndex => { c with adpcmIndex := arg.extractLsb' 0 32 }
  | .adpcmVal => { c with adpcmVal := arg.extractLsb' 0 32 }
  | .enable => setEnable (arg.getLsbD 0) c

/-- `min(arg[7:0], 128)` (10_state.md R35, R41). -/
def saturateVolume (v : BitVec 8) : BitVec 8 := if v.toNat ≤ 128 then v else 128

/-- The write rules of the engine and configuration registers; a read-only one ignores the write (10_state.md R41). -/
def writeEng (s : State) (arg : Dword) : EngReg → State
  | .soundOn => { s with eng := { s.eng with soundOn := arg.getLsbD 0 } }
  | .stereo => { s with eng := { s.eng with stereo := arg.getLsbD 0 } }
  | .sampleRate => s
  | .mainVolume => { s with eng := { s.eng with mainVolume := arg.extractLsb' 0 7 } }
  | .channelMasterVolume => s
  | .lifecycle => s
  | .cfgSampleRate => { s with cfg := { s.cfg with sampleRate := arg.extractLsb' 0 32 } }
  | .cfgVolume => { s with cfg := { s.cfg with volume := saturateVolume (arg.extractLsb' 0 8) } }

/-- Write a register; a reserved index ignores the write (10_state.md R41). -/
def writeReg (s : State) (arg : Dword) : Reg → State
  | .ch id f => s.setChan id (writeField (s.chan id) arg f)
  | .eng r => writeEng s arg r
  | .reserved _ => s

/-- Whether a WR would store an illegal pattern in a `freq` (10_state.md R30). -/
def storesIllegalFreq (arg : Dword) : Reg → Bool
  | .ch _ .freq => !legalFreq arg
  | _ => false

/-- WR (45_host_commands.md R205). -/
def execWr (r : Reg) (arg : Dword) (s : State) : Outcome :=
  if storesIllegalFreq arg r then .refused .illegalFreqPattern else .next (writeReg s arg r)

/-- RD (45_host_commands.md R206). -/
def execRd (r : Reg) (s : State) : Outcome := .next (s.answer (.dword (readReg s r)))

end Sys2Proof.Machine
end

