-- ==== Sys2Proof/Machine/Dispatch.lean ====
section
/-! DEFINITION. One arm per constructor of Instr. -/

namespace Sys2Proof.Machine

def exec (i : Instr) (s : State) : Host.Outcome State Fault Refusal :=
  match i with
  | .nop => Sys2Proof.Machine.execNop s
  | .reset => Sys2Proof.Machine.execReset s
  | .init => Sys2Proof.Machine.execInit s
  | .shutdown => Sys2Proof.Machine.execShutdown s
  | .wr r arg => Sys2Proof.Machine.execWr r arg s
  | .rd r => Sys2Proof.Machine.execRd r s
  | .gen id n => Sys2Proof.Machine.execGen id n s
  | .dmix n => Sys2Proof.Machine.execDmix n s
  | .mix byteLength => Sys2Proof.Machine.execMix byteLength s
  | .tblinit => Sys2Proof.Machine.execTblinit s
  | .tblrd a => Sys2Proof.Machine.execTblrd a s
  | .adh id => Sys2Proof.Machine.execAdh id s
  | .adx id d => Sys2Proof.Machine.execAdx id d s
  | .smpPcm8 => Sys2Proof.Machine.execSmpPcm8 s
  | .smpPcm16 => Sys2Proof.Machine.execSmpPcm16 s
  | .smpAdpcm => Sys2Proof.Machine.execSmpAdpcm s
  | .smpPsg => Sys2Proof.Machine.execSmpPsg s
  | .bndNone => Sys2Proof.Machine.execBndNone s
  | .bndLoop => Sys2Proof.Machine.execBndLoop s
  | .bndStop => Sys2Proof.Machine.execBndStop s
  | .bndRsvd => Sys2Proof.Machine.execBndRsvd s

end Sys2Proof.Machine
end

