-- ==== Sys2Proof/Machine/Step.lean ====
section
/-! DEFINITION. One step: what the block does with the oldest arrival at its command port. -/

namespace Sys2Proof.Machine

/-- One step (20_memory.md R73: one at a time, in arrival order, to completion). With nothing at the port the block is
idle (60_exceptions.md R244). A reserved command is ignored (30_encoding.md R98, log 16). A store is the platform's
(20_memory.md R72, log 18). -/
def step (s : State) : Host.Outcome State Fault Refusal :=
  match s.port with
  | [] => .next s
  | .store x :: rest => .next (s.platformStore x rest)
  | .command c :: rest =>
    match decode c.cmd c.arg with
    | .ok i => exec i (s.accept c rest)
    | .error _ => .next (s.accept c rest)

/-- `s` with the command of a table word at the head of the port, so that the next step runs it (log 2: a program comes
from outside, command by command). `dev_ok` stays as the environment drives it. -/
def State.withFetchWord (s : State) (nbits w : Nat) : State :=
  { s with
    port :=
      .command { cmd := tableCommand nbits w, arg := tableArgument nbits w, devOk := s.devOk } :: s.port }

end Sys2Proof.Machine
end

