-- ==== Sys2Proof/Safety.lean ====
section
/-! DEFINITION. The terms the claims use: the state reset leaves, what a command may change, and the invariant of the
block. -/

namespace Sys2Proof

/-- Two registers that share storage: a register and itself, and `CNT` and `ENABLE` of one channel (10_state.md R23). -/
def Reg.shares : Reg → Reg → Bool
  | .ch i .cnt, .ch j .enable => i == j
  | .ch i .enable, .ch j .cnt => i == j
  | r, r' => r == r'

/-- The instructions that name an engine flag: RESET, and WR and RD of `SOUND_ON`, `STEREO` (10_state.md R34). -/
def Instr.namesEngineFlags : Instr → Bool
  | .nop => false
  | .reset => true
  | .init => false
  | .shutdown => false
  | .wr r _ => r == .eng .soundOn || r == .eng .stereo
  | .rd r => r == .eng .soundOn || r == .eng .stereo
  | .gen _ _ => false
  | .dmix _ => false
  | .mix _ => false
  | .tblinit => false
  | .tblrd _ => false
  | .adh _ => false
  | .adx _ _ => false
  | .smpPcm8 => false
  | .smpPcm16 => false
  | .smpAdpcm => false
  | .smpPsg => false
  | .bndNone => false
  | .bndLoop => false
  | .bndStop => false
  | .bndRsvd => false

end Sys2Proof

namespace Sys2Proof.Machine

/-- The state after RESET and after power-on, row by row of the table of 10_state.md R43, for the parameters and the
configuration registers it holds. -/
structure AfterReset (s : State) : Prop where
  channels : ∀ id, s.chan id = Channel.zero
  table : ∀ a : TableIndex, s.table[a.val] = tableEntry s.params a.val
  sampleRate : s.eng.sampleRate = s.cfg.sampleRate
  channelMasterVolume : s.eng.channelMasterVolume = s.cfg.volume
  mainVolume : s.eng.mainVolume = s.params.resetMainVolume
  soundOn : s.eng.soundOn = false
  stereo : s.eng.stereo = false
  lifecycle : s.ls = .uninit
  unwritten : ∀ x, sparseGet s.acc x = none
  transient : s.call = none

/-- The fields of a channel that no step of GEN writes (41_resampler_fetch.md R129: of `ch[id]` GEN writes only `data_pos`,
`data_src`, `samples`, `playing`, `cnt[31]`). -/
structure ChannelKept (a b : Channel) : Prop where
  cnt : ∀ i, i < 31 → b.cnt.getLsbD i = a.cnt.getLsbD i
  loopStart : b.loopStart = a.loopStart
  len : b.len = a.len
  volume : b.volume = a.volume
  freq : b.freq = a.freq
  adpcmHeader : b.adpcmHeader = a.adpcmHeader
  adpcmIndex : b.adpcmIndex = a.adpcmIndex
  adpcmVal : b.adpcmVal = a.adpcmVal

/-- The Memory Source has changed by the platform's own stores only: none with `MEM_STABLE = true`, else the batches that
were waiting, in order (20_memory.md R61, R74). -/
def PlatformOnly (s t : State) : Prop :=
  ∃ k, t.liveStores = s.liveStores.drop k ∧ t.mem = (s.liveStores.take k).foldl Memory.storeAll s.mem ∧
    (s.params.memStable = true → k = 0)

/-- What no step of sample generation or mixing changes: everything but channels, mix buffer, lifecycle, the transient
call, the ports and the count of free values. -/
structure SetupKept (s t : State) : Prop where
  params : t.params = s.params
  eng : t.eng = s.eng
  table : t.table = s.table
  cfg : t.cfg = s.cfg
  port : t.port = s.port
  devOk : t.devOk = s.devOk
  result : t.resp.result = s.resp.result
  device : t.resp.device = s.resp.device

/-- What one GEN(id, n) leaves alone. -/
structure GenFrame (id : ChannelId) (n : Nat) (s t : State) : Prop where
  setup : SetupKept s t
  ls : t.ls = s.ls
  samples : t.resp.samples = s.resp.samples
  others : ∀ j, j ≠ id → t.chan j = s.chan j
  kept : ChannelKept (s.chan id) (t.chan id)
  slots : ∀ x, n ≤ x → sparseGet t.acc x = sparseGet s.acc x
  memory : PlatformOnly s t

/-- What one MIX over n slots leaves alone. -/
structure MixFrame (n : Nat) (s t : State) : Prop where
  setup : SetupKept s t
  kept : ∀ id, ChannelKept (s.chan id) (t.chan id)
  slots : ∀ x, n ≤ x → sparseGet t.acc x = sparseGet s.acc x
  memory : PlatformOnly s t

/-- The volumes are in their legal ranges (10_state.md R33, R35). -/
structure VolumesLegal (s : State) : Prop where
  master : s.eng.channelMasterVolume.toNat ≤ 128
  cfg : s.cfg.volume.toNat ≤ 128

/-- The invariant of the block between commands: memory and mix buffer in canonical form, the mix buffer within its
capacity (10_state.md R38), no transient call (R39), every `freq` legal (R30), the volumes in range (R33, R35), the step
table immutable (R37, R40). -/
structure Inv (s : State) : Prop where
  memory : s.mem.wf
  buffer : SparseWf s.params.mixbufLen s.acc
  transient : s.call = none
  freqs : ∀ id, legalFreq (s.chan id).freq = true
  volumes : VolumesLegal s
  table : s.table = stepTable s.params

/-- `LS` after an instruction (45_host_commands.md R214). A MIX with a reserved operand is not executed (30_encoding.md
R98). -/
def lifecycleAfter (i : Instr) (s : State) : Lifecycle :=
  match i with
  | .reset => .uninit
  | .init => if s.devOk then .initialized else .uninit
  | .shutdown => .shutdown
  | .mix byteLength =>
    if byteLength / 2 ≤ s.params.mixbufLen ∧ s.ls = .initialized then .running else s.ls
  | _ => s.ls

/-- What a register reads after a WR of `arg` to it (10_state.md R41, R42): the low bits named under "width used",
`CFG_VOLUME` saturated, a read-only or reserved register as before. -/
def readAfterWrite (s : State) (arg : Dword) (r : Reg) : Dword :=
  match r with
  | .ch _ .cnt => BitVec.ofNat 64 (arg.toNat % 2 ^ 32)
  | .ch _ .dataSrc => BitVec.ofNat 64 (arg.toNat % 2 ^ 32)
  | .ch _ .dataPos => BitVec.ofNat 64 (arg.toNat % 2 ^ 32)
  | .ch _ .loopStart => BitVec.ofNat 64 (arg.toNat % 2 ^ 32)
  | .ch _ .len => BitVec.ofNat 64 (arg.toNat % 2 ^ 32)
  | .ch _ .samples => BitVec.ofNat 64 (arg.toNat % 2 ^ 32)
  | .ch _ .volume => BitVec.ofNat 64 (arg.toNat % 2 ^ 7)
  | .ch _ .playing => BitVec.ofNat 64 (arg.toNat % 2)
  | .ch _ .freq => arg
  | .ch _ .adpcmHeader => BitVec.ofNat 64 (arg.toNat % 2 ^ 32)
  | .ch _ .adpcmIndex => BitVec.ofNat 64 (arg.toNat % 2 ^ 32)
  | .ch _ .adpcmVal => BitVec.ofNat 64 (arg.toNat % 2 ^ 32)
  | .ch _ .enable => BitVec.ofNat 64 (arg.toNat % 2)
  | .eng .soundOn => BitVec.ofNat 64 (arg.toNat % 2)
  | .eng .stereo => BitVec.ofNat 64 (arg.toNat % 2)
  | .eng .sampleRate => readReg s r
  | .eng .mainVolume => BitVec.ofNat 64 (arg.toNat % 2 ^ 7)
  | .eng .channelMasterVolume => readReg s r
  | .eng .lifecycle => readReg s r
  | .eng .cfgSampleRate => BitVec.ofNat 64 (arg.toNat % 2 ^ 32)
  | .eng .cfgVolume => BitVec.ofNat 64 (min (arg.toNat % 2 ^ 8) 128)
  | .reserved _ => 0

/-- The same state with other engine flags, which no rule of sample generation reads (10_state.md R34). -/
def State.withFlags (s : State) (soundOn stereo : Bool) : State :=
  { s with eng := { s.eng with soundOn := soundOn, stereo := stereo } }

/-- Every register of 10_state.md R41 as the number RD returns: the register zero-extended, the signed ones as their 32-bit
pattern (R42), `ENABLE` as `cnt[31]` (R23), `LIFECYCLE` as its code (R36), a reserved one 0. -/
def registerNat (s : State) (r : Reg) : Nat :=
  match r with
  | .ch id .cnt => (s.chan id).cnt.toNat
  | .ch id .dataSrc => (s.chan id).dataSrc.toNat
  | .ch id .dataPos => (s.chan id).dataPos.toNat
  | .ch id .loopStart => (s.chan id).loopStart.toNat
  | .ch id .len => (s.chan id).len.toNat
  | .ch id .samples => (s.chan id).samples.toNat
  | .ch id .volume => (s.chan id).volume.toNat
  | .ch id .playing => (s.chan id).playing.toNat
  | .ch id .freq => (s.chan id).freq.toNat
  | .ch id .adpcmHeader => (s.chan id).adpcmHeader.toNat
  | .ch id .adpcmIndex => (s.chan id).adpcmIndex.toNat
  | .ch id .adpcmVal => (s.chan id).adpcmVal.toNat
  | .ch id .enable => (s.chan id).cnt.toNat / 2 ^ 31
  | .eng .soundOn => s.eng.soundOn.toNat
  | .eng .stereo => s.eng.stereo.toNat
  | .eng .sampleRate => s.eng.sampleRate.toNat
  | .eng .mainVolume => s.eng.mainVolume.toNat
  | .eng .channelMasterVolume => s.eng.channelMasterVolume.toNat
  | .eng .lifecycle => match s.ls with | .uninit => 0 | .initialized => 1 | .running => 2 | .shutdown => 3
  | .eng .cfgSampleRate => s.cfg.sampleRate.toNat
  | .eng .cfgVolume => s.cfg.volume.toNat
  | .reserved _ => 0

/-- Where an instruction has no next state: the model's refusals (41_resampler_fetch.md R130, 10_state.md R30,
40_adpcm_decoder.md R119; a micro-operation without a call, log 14). -/
def stopReason (i : Instr) (s : State) : Option Refusal :=
  match i with
  | .nop => none
  | .reset => none
  | .init => none
  | .shutdown => none
  | .wr r arg => if storesIllegalFreq arg r then some .illegalFreqPattern else none
  | .rd _ => none
  | .gen _ n => if n ≤ s.params.mixbufLen ∧ s.eng.sampleRate = 0 then some .sampleRateZero else none
  | .dmix _ => none
  | .mix b => if b / 2 ≤ s.params.mixbufLen ∧ s.eng.sampleRate = 0 then some .sampleRateZero else none
  | .tblinit => none
  | .tblrd _ => none
  | .adh _ => none
  | .adx id _ =>
    if s.params.adpcmExpand ∧ 128 ≤ (s.chan id).adpcmIndex.toNat then some .adpcmIndexOutOfTable else none
  | .smpPcm8 => if s.call = none then some .noGenCall else none
  | .smpPcm16 => if s.call = none then some .noGenCall else none
  | .smpAdpcm => if s.call = none then some .noGenCall else none
  | .smpPsg => if s.call = none then some .noGenCall else none
  | .bndNone => if s.call = none then some .noGenCall else none
  | .bndLoop => if s.call = none then some .noGenCall else none
  | .bndStop => if s.call = none then some .noGenCall else none
  | .bndRsvd => if s.call = none then some .noGenCall else none

/-- The operand bits each command names (30_encoding.md R92). -/
def namedOperandBits (op : Nat) : Word :=
  match op with
  | 0x4 => 0x000001FF
  | 0x5 => 0x000001FF
  | 0x6 => 0x0FFFFFFF
  | 0x7 => 0x0FFFFFF0
  | 0x8 => 0x0FFFFFFF
  | 0xA => 0x0000007F
  | 0xB => 0x0000000F
  | 0xC => 0x000000FF
  | _ => 0

end Sys2Proof.Machine
end

