-- ==== Sys2Proof/Certificates/Slice0/Obligations.lean ====
section
/-! DEFINITION. The statements for the provers, each from a rule of spec/ or a section of it. Nothing is proved here. -/

open Sys2Proof Sys2Proof.Machine

/-! ## State and reset (10_state.md, 45_host_commands.md) -/

/-- 10_state.md R43. The reset values of `main_volume`, `sound_on` and `stereo` are the spec's decision D20. -/
def Obligations.ResetAndPowerOnLeaveTheResetState : Prop :=
  (∀ p : Params, AfterReset (State.powerOn p) ∧
    (State.powerOn p).cfg = { sampleRate := p.cfgDefaultRate, volume := p.cfgDefaultVolume }) ∧
  ∀ s : State, ∃ t, exec .reset s = .next t ∧ AfterReset t ∧ t.cfg = s.cfg ∧
    ∃ u, exec .reset t = .next u ∧ u.ch = t.ch ∧ u.eng = t.eng ∧ u.table = t.table ∧ u.cfg = t.cfg ∧
      u.ls = t.ls ∧ u.acc = t.acc

/-- 45_host_commands.md R201: RESET from every lifecycle state, its device action and what it leaves alone.
The rule rests on the spec's own decisions D17 and D20. That RESET leaves the port, the Memory Source, the parameters, the
inputs and the count of free values alone is the model's inference (log 27, DEDUCED, unsafe, from R201, R205 and
20_memory.md R61, R73). -/
def Obligations.ResetClosesTheDeviceAndKeepsConfiguration : Prop :=
  (∀ (w : Word) (arg : Dword), w.toNat / 2 ^ 28 = 1 → decode w arg = .ok .reset) ∧
  ∀ s : State, ∃ t, exec .reset s = .next t ∧ AfterReset t ∧
    t = { s with
      ls := t.ls, ch := t.ch, table := t.table, eng := t.eng, acc := t.acc, call := t.call
      resp := { s.resp with
        device := s.resp.device ++
          if s.ls = .initialized ∨ s.ls = .running then [DeviceRequest.closeDevice] else [] } }

/-- 10_state.md R31, with the examples the rule gives. -/
def Obligations.LegalFrequencyPatternHasItsExactValue : Prop :=
  (∀ p : Dword, legalFreq p = true →
    ((p.extractLsb' 52 11).toNat = 0 → fval p = ((p.extractLsb' 0 52).toNat : Rat) * (2 : Rat) ^ (-1074 : Int)) ∧
    (1 ≤ (p.extractLsb' 52 11).toNat → (p.extractLsb' 52 11).toNat ≤ 2046 →
      fval p = ((2 : Rat) ^ 52 + ((p.extractLsb' 0 52).toNat : Rat)) *
        (2 : Rat) ^ (((p.extractLsb' 52 11).toNat : Int) - 1075)) ∧
    0 ≤ fval p) ∧
  fval 0x0000000000000000 = 0 ∧ fval 0x40E5888000000000 = 44100 ∧ fval 0x40D5888000000000 = 22050 ∧
  fval 0x40F5888000000000 = 88200 ∧ fval 0x40E0000000000000 = 32768 ∧ fval 0x3FF0000000000000 = 1

/-- 10_state.md R30: which patterns are legal, by sign and exponent; a legal one is stored, any other refused.
The rule rests on the spec's own decision D5. -/
def Obligations.FreqStoresLegalPatternsAndRefusesOthers : Prop :=
  ∀ (id : ChannelId) (p : Dword) (s : State),
    (((p.toNat < 2 ^ 63 ∧ p.toNat / 2 ^ 52 ≠ 0x7FF) ∨ p.toNat = 2 ^ 63) →
      exec (.wr (.ch id .freq) p) s = .next (s.setChan id { s.chan id with freq := p })) ∧
    (¬ ((p.toNat < 2 ^ 63 ∧ p.toNat / 2 ^ 52 ≠ 0x7FF) ∨ p.toNat = 2 ^ 63) →
      exec (.wr (.ch id .freq) p) s = .refused .illegalFreqPattern)

/-- 10_state.md R41, R42: WR keeps the bits named under "width used", CFG_VOLUME saturates, a read-only or reserved
register reads as before. -/
def Obligations.WriteThenReadGivesTheNamedBits : Prop :=
  ∀ (s : State) (r : Reg) (arg : Dword), storesIllegalFreq arg r = false →
    ∃ t, exec (.wr r arg) s = .next t ∧ readReg t r = readAfterWrite s arg r

/-- 10_state.md R42: "No register write has a side effect beyond the field it names". Registers that share storage
(CNT and ENABLE of one channel) are the only exception. -/
def Obligations.WriteChangesNothingElse : Prop :=
  ∀ (s t : State) (r : Reg) (arg : Dword), exec (.wr r arg) s = .next t →
    (∀ r', r.shares r' = false → readReg t r' = readReg s r') ∧
    t = { s with ch := t.ch, eng := t.eng, cfg := t.cfg } ∧
    ((∃ e, r = .eng e) ∨ (∃ q, r = .reserved q) → t.ch = s.ch) ∧
    (∀ id f, r = .ch id f → t.eng = s.eng ∧ t.cfg = s.cfg ∧ ∀ j, j ≠ id → t.chan j = s.chan j)

/-- 45_host_commands.md R206: RD returns the register that `cmd[8:0]` names, zero-extended, a reserved one 0 (`registerNat`
lists them, the signed ones as their 32-bit pattern, 10_state.md R42); nothing else changes.
The rule rests on the spec's own decision D2. -/
def Obligations.ReadReturnsTheRegisterZeroExtended : Prop :=
  (∀ (w : Word) (arg : Dword), w.toNat / 2 ^ 28 = 5 →
    decode w arg = .ok (.rd (Reg.ofIndex (BitVec.ofNat 9 (w.toNat % 2 ^ 9))))) ∧
  ∀ (s : State) (r : Reg), ∃ v : Dword, v.toNat = registerNat s r ∧
    exec (.rd r) s = .next { s with resp := { s.resp with result := some (.dword v) } }

/-- 10_state.md R23: `enable` is `cnt[31]`.
The rule rests on the spec's own decision D28. -/
def Obligations.EnableIsBit31OfCnt : Prop :=
  ∀ (s : State) (id : ChannelId) (arg : Dword),
    (readReg s (.ch id .enable)).toNat = (s.chan id).cnt.toNat / 2 ^ 31 ∧
    ∃ w : Word, exec (.wr (.ch id .enable) arg) s = .next (s.setChan id { s.chan id with cnt := w }) ∧
      w.toNat = (s.chan id).cnt.toNat % 2 ^ 31 + 2 ^ 31 * (arg.toNat % 2)

/-- 10_state.md R35: RESET alone copies the configuration into the engine, and leaves it; WR alone changes it, CFG_VOLUME
saturating, and changes nothing else.
The rule rests on the spec's own decision D2. -/
def Obligations.ConfigurationIsLatchedByResetOnly : Prop :=
  ∀ (i : Instr) (s t : State), exec i s = .next t →
    (i = .reset → t.eng.sampleRate = s.cfg.sampleRate ∧ t.eng.channelMasterVolume = s.cfg.volume) ∧
    (i ≠ .reset → t.eng.sampleRate = s.eng.sampleRate ∧ t.eng.channelMasterVolume = s.eng.channelMasterVolume) ∧
    ((∀ arg, i ≠ .wr (.eng .cfgSampleRate) arg) → t.cfg.sampleRate = s.cfg.sampleRate) ∧
    ((∀ arg, i ≠ .wr (.eng .cfgVolume) arg) → t.cfg.volume = s.cfg.volume) ∧
    (∀ arg, i = .wr (.eng .cfgSampleRate) arg →
      t.cfg.sampleRate.toNat = arg.toNat % 2 ^ 32 ∧ t = { s with cfg := t.cfg }) ∧
    (∀ arg, i = .wr (.eng .cfgVolume) arg →
      t.cfg.volume.toNat = min (arg.toNat % 2 ^ 8) 128 ∧ t = { s with cfg := t.cfg })

/-- 00_scope.md R6 (log 3) and 20_memory.md R73: no instruction changes a build parameter, what waits at the port, or the
environment's `dev_ok`. The port as a queue and `dev_ok` beside the commands are the model's choices (logs 1, 6). -/
def Obligations.NoInstructionChangesParametersOrPort : Prop :=
  ∀ (i : Instr) (s t : State), exec i s = .next t →
    t.params = s.params ∧ t.port = s.port ∧ t.devOk = s.devOk ∧
    (i.kind = .cmd → t.call = s.call ∨ t.call = none)

/-! ## Memory (20_memory.md) -/

/-- 20_memory.md R61, R74: no instruction writes the Memory Source; with `MEM_STABLE = false` it changes by the waiting
stores of the platform only, which the model holds in batches (log 17). -/
def Obligations.BlockNeverWritesMemory : Prop :=
  ∀ (i : Instr) (s t : State), exec i s = .next t →
    (s.params.memStable = true → t.mem = s.mem ∧ t.liveStores = s.liveStores) ∧ PlatformOnly s t

/-- 20_memory.md R63, R64: the halfword at an even address is the two bytes, low byte at the lower address, and never
wraps; a host stores samples low byte first. -/
def Obligations.HalfwordsAreLittleEndian : Prop :=
  (∀ (m : Memory) (a : Word), a.getLsbD 0 = false →
    (a + 1).toNat = a.toNat + 1 ∧ (m.readHalf a).toNat = (m.read (a + 1)).toNat * 256 + (m.read a).toNat) ∧
  ∀ (l : List Half) (v : Half), hostBytes (l ++ [v]) =
    hostBytes l ++ [BitVec.ofNat 8 (v.toNat % 256), BitVec.ofNat 8 (v.toNat / 256)]

/-- A store of the platform, seen by the block's reads (20_memory.md R67, R72). That it arrives in the queue of the command
port and lands as a step of its own is the model's choice (log 18), and so is the canonical form of memory (log 9). -/
def Obligations.PlatformStoreIsReadBack : Prop :=
  ∀ (s : State) (x : Store) (rest : List Arrival), s.port = .store x :: rest →
    ∃ t, step s = .next t ∧ (∀ a, t.mem.read a = if a = x.addr then x.value else s.mem.read a) ∧
      (s.mem.wf → t.mem.wf) ∧ t = { s with port := rest, mem := t.mem }

/-! ## Encoding (30_encoding.md) -/

/-- 30_encoding.md R92, R93, R95: no operand bit is dropped, in any of the three formats. -/
def Obligations.DecodeOfEncodeIsTheInstruction : Prop :=
  ∀ i : Instr, i.wf = true → decodeAs i.kind (encode i).word (encode i).arg = .ok i

/-- 30_encoding.md R97, R98: what the decoder accepts is well formed and of the format asked for, and a command word is
rejected exactly when its opcode is 0xD, 0xE or 0xF. -/
def Obligations.DecoderAcceptsExactlyTheTable : Prop :=
  (∀ (k : WordKind) (w : Word) (arg : Dword) (i : Instr), decodeAs k w arg = .ok i → i.wf = true ∧ i.kind = k) ∧
  ∀ (w : Word) (arg : Dword), (∃ e, decode w arg = .error e) ↔ 0xD0000000 ≤ w.toNat

/-- 30_encoding.md R98: "operand bits a command does not name" have no effect; `arg` is used by WR only (R91). -/
def Obligations.UnnamedOperandBitsAreIgnored : Prop :=
  ∀ (w w' : Word) (arg arg' : Dword),
    w &&& (0xF0000000 ||| namedOperandBits (w.toNat / 2 ^ 28)) =
      w' &&& (0xF0000000 ||| namedOperandBits (w.toNat / 2 ^ 28)) →
    (w.toNat / 2 ^ 28 = 4 → arg = arg') → decode w arg = decode w' arg'

/-- 30_encoding.md R92, R95: the operands of every command are the bits the table names, and a register index is
`r[8]`, `r[7:4]`, `r[3:0]` or `r[7:0]` (the numbers of 10_state.md R41).
The rule rests on the spec's own decisions D1 and D2. -/
def Obligations.OperandsAreTheBitsTheTableNames : Prop :=
  (∀ (w : Word) (arg : Dword),
    (w.toNat / 2 ^ 28 = 0x0 → decode w arg = .ok .nop) ∧
    (w.toNat / 2 ^ 28 = 0x4 → decode w arg = .ok (.wr (Reg.ofIndex (BitVec.ofNat 9 (w.toNat % 2 ^ 9))) arg)) ∧
    (w.toNat / 2 ^ 28 = 0x6 → ∃ id : ChannelId, id.val = w.toNat % 2 ^ 4 ∧
      decode w arg = .ok (.gen id (w.toNat / 2 ^ 4 % 2 ^ 24))) ∧
    (w.toNat / 2 ^ 28 = 0x7 → decode w arg = .ok (.dmix (w.toNat / 2 ^ 4 % 2 ^ 24))) ∧
    (w.toNat / 2 ^ 28 = 0x8 → decode w arg = .ok (.mix (w.toNat % 2 ^ 28))) ∧
    (w.toNat / 2 ^ 28 = 0xA → ∃ a : TableIndex, a.val = w.toNat % 2 ^ 7 ∧ decode w arg = .ok (.tblrd a)) ∧
    (w.toNat / 2 ^ 28 = 0xB → ∃ id : ChannelId, id.val = w.toNat % 2 ^ 4 ∧ decode w arg = .ok (.adh id)) ∧
    (w.toNat / 2 ^ 28 = 0xC → ∃ id : ChannelId, id.val = w.toNat % 2 ^ 4 ∧
      decode w arg = .ok (.adx id (BitVec.ofNat 4 (w.toNat / 2 ^ 4 % 2 ^ 4))))) ∧
  ∀ r : BitVec 9,
    (∀ id f, Reg.ofIndex r = .ch id f ↔ r.toNat = 16 * id.val + f.num) ∧
    (∀ e, Reg.ofIndex r = .eng e ↔ r.toNat = 0x100 + e.num) ∧
    (∀ q, Reg.ofIndex r = .reserved q → q = r)

/-- Words of 30_encoding.md R100 and 95_test_vectors.md, one of every shape. -/
def Obligations.DecodeOfWordsTheSpecWritesOut : Prop :=
  decode 0x40000036 0x7F = .ok (.wr (.ch 3 .volume) 0x7F) ∧ decode 0x60000040 0 = .ok (.gen 0 4) ∧
  decode 0x80000008 0 = .ok (.mix 8) ∧ decode 0x50000105 0 = .ok (.rd (.eng .lifecycle)) ∧
  decode 0xA0000058 0 = .ok (.tblrd 88) ∧ decode 0x00ABCDEF 0 = .ok .nop ∧
  decode 0xE1234567 0 = .error (.reservedCommand 0xE) ∧ decodeSample 0xA8000000 = .smpPcm16 ∧
  decodeBoundary 0x90000000 = .bndStop

/-- 20_memory.md R73, 30_encoding.md R90: a step runs the instruction that the oldest command at the port decodes to, on
the state with the output ports clear, the environment's `dev_ok` of that command, and the other arrivals waiting.
The queue, `dev_ok` beside the command and the clearing of the output ports are the model's choices (logs 1, 6, 19). -/
def Obligations.StepRunsTheDecodedInstruction : Prop :=
  ∀ (s : State) (c : PortCommand) (rest : List Arrival) (i : Instr), s.port = .command c :: rest →
    decode c.cmd c.arg = .ok i →
    step s = exec i { s with port := rest, devOk := c.devOk, resp := Response.empty }

/-- 30_encoding.md R98: the opcodes 0xD to 0xF are ignored: no state change, no result (rather than a refusal, log 16).
With nothing at the port the block is idle (60_exceptions.md R244). That taking a command sets `dev_ok` (log 6) and clears the
output ports (log 19), and that an idle step changes nothing (log 2), are the model's choices. -/
def Obligations.StepIgnoresReservedCommandsAndIdles : Prop :=
  ∀ s : State,
    (∀ (c : PortCommand) (rest : List Arrival), s.port = .command c :: rest → 0xD0000000 ≤ c.cmd.toNat →
      step s = .next { s with port := rest, devOk := c.devOk, resp := Response.empty }) ∧
    (s.port = [] → step s = .next s)

/-! ## Step table and ADPCM registers (40_adpcm_decoder.md) -/

/-- 40_adpcm_decoder.md R110 to R112, R116: TBLINIT writes `T` by the recurrence on natural numbers and changes nothing
else; a second one changes nothing. The values are those of R110's `u32` accumulator, `ACC_WIDTH = 32` (R115, D25); the last
statement of this file is about every width. -/
def Obligations.TblinitFollowsTheRecurrence : Prop :=
  (∀ (w : Word) (arg : Dword), w.toNat / 2 ^ 28 = 9 → decode w arg = .ok .tblinit) ∧
  ∀ s : State, ∃ (t : State) (x : Nat → Nat), exec .tblinit s = .next t ∧ t = { s with table := t.table } ∧
    exec .tblinit t = .next t ∧ x 0 = s.params.adpcmSeed.toNat ∧ (∀ a, x (a + 1) = (x a + x a / 10) % 2 ^ 32) ∧
    (s.params.accWidth = 32 → ∀ a : TableIndex, t.table[a.val].toNat =
      if a.val = 3 then 0xA else if a.val = 4 then 0xB else if a.val = 88 then 0x7FFF
      else if 89 ≤ a.val then 0 else x a.val / 2 ^ 16)

/-- 40_adpcm_decoder.md R114 (derived there): the facts that hold for every seed, of the table power-on leaves. The one about
`T[0]` is for an accumulator that holds the seed whole. -/
def Obligations.StepTableFactsForEverySeed : Prop :=
  ∀ p : Params, (State.powerOn p).table[3].toInt = 10 ∧ (State.powerOn p).table[4].toInt = 11 ∧
    (State.powerOn p).table[88].toInt = 32767 ∧
    (∀ a : TableIndex, 89 ≤ a.val → (State.powerOn p).table[a.val].toInt = 0) ∧
    (32 ≤ p.accWidth → (State.powerOn p).table[0].toNat = p.adpcmSeed.toNat / 2 ^ 16) ∧
    ∀ a : TableIndex, 0 ≤ (State.powerOn p).table[a.val].toInt ∧ (State.powerOn p).table[a.val].toInt ≤ 0xFFFF

/-- 40_adpcm_decoder.md R117: TBLRD returns `T[a]`, `a = cmd[6:0]`, and writes nothing.
The rule rests on the spec's own decision D1. -/
def Obligations.TblrdReturnsTheEntry : Prop :=
  (∀ (w : Word) (arg : Dword), w.toNat / 2 ^ 28 = 0xA →
    ∃ a : TableIndex, a.val = w.toNat % 2 ^ 7 ∧ decode w arg = .ok (.tblrd a)) ∧
  ∀ (s : State) (a : TableIndex),
    exec (.tblrd a) s = .next { s with resp := { s.resp with result := some (.word s.table[a.val]) } }

/-- 40_adpcm_decoder.md R121, R122 (general knowledge of the spec, default off): ADH loads the header of its channel and
changes nothing else. -/
def Obligations.AdhLoadsTheHeader : Prop :=
  ∀ (s : State) (id : ChannelId), s.params.adpcmExpand = true →
    ∃ v i : Word, exec (.adh id) s = .next (s.setChan id { s.chan id with adpcmVal := v, adpcmIndex := i }) ∧
      v.toInt = (BitVec.ofNat 16 ((s.chan id).adpcmHeader.toNat % 2 ^ 16)).toInt ∧
      i.toNat = min ((s.chan id).adpcmHeader.toNat / 2 ^ 16 % 2 ^ 7) 88

/-- 40_adpcm_decoder.md R123 (general knowledge of the spec, default off): ADX computes the step exactly, in the integers,
for every table TBLINIT can leave, and returns the new value. -/
def Obligations.AdxExpandsExactly : Prop :=
  ∀ (s : State) (id : ChannelId) (d : BitVec 4), s.params.adpcmExpand = true →
    s.table = stepTable s.params →
    ∀ (k : Nat) (hk : k < 128), (s.chan id).adpcmIndex.toNat = k →
    ∃ (v i : Word) (diff : Int),
      exec (.adx id d) s = .next { s.setChan id { s.chan id with adpcmVal := v, adpcmIndex := i } with
        resp := { s.resp with result := some (.word v) } } ∧
      diff = s.table[k].toInt / 8 + (if d.getLsbD 0 then s.table[k].toInt / 4 else 0) +
        (if d.getLsbD 1 then s.table[k].toInt / 2 else 0) + (if d.getLsbD 2 then s.table[k].toInt else 0) ∧
      v.toInt = (if d.getLsbD 3 then max ((s.chan id).adpcmVal.toInt - diff) (-0x7FFF)
        else min ((s.chan id).adpcmVal.toInt + diff) 0x7FFF) ∧
      i.toInt = min (max ((k : Int) + if d.getLsbD 2 then 2 * ((d.toNat : Int) % 4) + 2 else -1) 0) 88

/-! ## Sample and boundary micro-operations (41_resampler_fetch.md, 42_position_loop_stop.md) -/

/-- 41_resampler_fetch.md R135: SMP.PCM8, selected by `cnt[30:29]`, on the call State holds. A result outside `i32` is a free
value (log 8). -/
def Obligations.SmpPcm8ReadsAddsAndScales : Prop :=
  (∀ w : Word, decodeSample w = .smpPcm8 ↔ w.getLsbD 30 = false ∧ w.getLsbD 29 = false) ∧
  ∀ (s : State) (c : GenCall), s.call = some c →
    ∃ t, exec .smpPcm8 s = .next t ∧
      (fitsI32 (trunc (((s.slot c.x + (s.readByte c.addr).toInt * 256 : Int) : Rat) * c.vol)) = true →
        t.slot c.x = trunc (((s.slot c.x + (s.readByte c.addr).toInt * 256 : Int) : Rat) * c.vol)) ∧
      (s.params.memStable = true → s.readByte c.addr = s.mem.read c.addr) ∧
      t.resp.reads = s.resp.reads ++ [.byte c.addr] ∧ t.resp.samples = s.resp.samples ∧
      (∃ w, sparseGet t.acc c.x = some w) ∧ (∀ y, y ≠ c.x → sparseGet t.acc y = sparseGet s.acc y) ∧
      t.call = some c ∧ t.ch = s.ch ∧ t.ls = s.ls ∧ SetupKept s t ∧ PlatformOnly s t

/-- 41_resampler_fetch.md R136: SMP.PCM16 forces its address even, reads one halfword there, adds and scales.
The rule rests on the spec's own decision D9. -/
def Obligations.SmpPcm16ForcesEvenReadsAddsAndScales : Prop :=
  (∀ w : Word, decodeSample w = .smpPcm16 ↔ w.getLsbD 30 = false ∧ w.getLsbD 29 = true) ∧
  ∀ (s : State) (c : GenCall), s.call = some c →
    ∃ (t : State) (a : Word), exec .smpPcm16 s = .next t ∧ a.toNat = c.addr.toNat / 2 * 2 ∧
      (fitsI32 (trunc (((s.slot c.x + (s.readHalf a).toInt : Int) : Rat) * c.vol)) = true →
        t.slot c.x = trunc (((s.slot c.x + (s.readHalf a).toInt : Int) : Rat) * c.vol)) ∧
      (s.params.memStable = true → s.readHalf a = s.mem.readHalf a) ∧
      t.resp.reads = s.resp.reads ++ [.half a] ∧ t.resp.samples = s.resp.samples ∧
      (∃ w, sparseGet t.acc c.x = some w) ∧ (∀ y, y ≠ c.x → sparseGet t.acc y = sparseGet s.acc y) ∧
      t.call = some { c with addr := a } ∧ t.ch = s.ch ∧ t.ls = s.ls ∧ SetupKept s t ∧ PlatformOnly s t

/-- 41_resampler_fetch.md R137, R138: SMP.ADPCM and SMP.PSG add the silence value, read nothing and touch no ADPCM
register. -/
def Obligations.SmpAdpcmAndPsgAddTheSilenceValue : Prop :=
  (∀ w : Word, decodeSample w = .smpAdpcm ↔ w.getLsbD 30 = true ∧ w.getLsbD 29 = false) ∧
  (∀ w : Word, decodeSample w = .smpPsg ↔ w.getLsbD 30 = true ∧ w.getLsbD 29 = true) ∧
  ∀ (s : State) (c : GenCall), s.call = some c →
    ∃ t, exec .smpAdpcm s = .next t ∧ exec .smpPsg s = .next t ∧
      (fitsI32 (trunc ((s.slot c.x : Rat) + c.sil)) = true → t.slot c.x = trunc ((s.slot c.x : Rat) + c.sil)) ∧
      (∃ w, sparseGet t.acc c.x = some w) ∧ (∀ y, y ≠ c.x → sparseGet t.acc y = sparseGet s.acc y) ∧
      t = { s with acc := t.acc, freeCount := t.freeCount }

/-- 42_position_loop_stop.md R152, R155: BND.NONE and BND.RSVD do nothing. -/
def Obligations.BndNoneAndRsvdDoNothing : Prop :=
  (∀ w : Word, decodeBoundary w = .bndNone ↔ w.getLsbD 28 = false ∧ w.getLsbD 27 = false) ∧
  (∀ w : Word, decodeBoundary w = .bndRsvd ↔ w.getLsbD 28 = true ∧ w.getLsbD 27 = true) ∧
  ∀ (s : State) (c : GenCall), s.call = some c → exec .bndNone s = .next s ∧ exec .bndRsvd s = .next s

/-- 42_position_loop_stop.md R153: BND.LOOP, with its unit by format, modulo 2^32; nothing for the formats without one.
The rule rests on the spec's own decisions D10 and D11. -/
def Obligations.BndLoopReloadsPositionAndBudget : Prop :=
  (∀ w : Word, decodeBoundary w = .bndLoop ↔ w.getLsbD 28 = false ∧ w.getLsbD 27 = true) ∧
  ∀ (s : State) (c : GenCall), s.call = some c →
    (∀ u : Nat, (c.fmt = .pcm8 ∧ u = 4) ∨ (c.fmt = .pcm16 ∧ u = 2) →
      ∃ src smp : Word,
        exec .bndLoop s = .next (s.setChan c.id
          { s.chan c.id with dataSrc := src, dataPos := src, samples := smp }) ∧
        src.toNat = ((s.chan c.id).dataSrc.toNat + (s.chan c.id).loopStart.toNat * u) % 2 ^ 32 ∧
        smp.toNat = (s.chan c.id).len.toNat * u % 2 ^ 32) ∧
    (c.fmt = .adpcm ∨ c.fmt = .psg → exec .bndLoop s = .next s)

/-- 42_position_loop_stop.md R154: BND.STOP clears `playing` and `cnt[31]`, for every format, and nothing else. -/
def Obligations.BndStopClearsPlayingAndEnable : Prop :=
  (∀ w : Word, decodeBoundary w = .bndStop ↔ w.getLsbD 28 = true ∧ w.getLsbD 27 = false) ∧
  ∀ (s : State) (c : GenCall), s.call = some c →
    ∃ w : Word, exec .bndStop s = .next (s.setChan c.id { s.chan c.id with playing := false, cnt := w }) ∧
      w.toNat = (s.chan c.id).cnt.toNat % 2 ^ 31

/-- 30_encoding.md R94, 60_exceptions.md R235: an index at which the playing test holds is the address of 41 R133, then
the sample micro-operation the control word decodes to, then, if the boundary test of 42 R150 holds, its boundary
micro-operation, then the count. -/
def Obligations.PlayedIndexRunsTheDecodedMicroOperations : Prop :=
  ∀ (w : Word) (c : GenCall) (s : State), c.fmt = decodeFmt w → c.lm = decodeLoopMode w → s.call = none →
    ∃ (s1 : State) (c1 : GenCall),
      exec (decodeSample w) { s with call := some { c with
        addr := (s.chan c.id).dataPos + BitVec.ofInt 32 (trunc (c.ratio * (c.x : Rat))) } } = .next s1 ∧
      s1.call = some c1 ∧
      (((s1.chan c.id).dataSrc.toNat + (s1.chan c.id).samples.toNat) % 2 ^ 32 ≤ c1.addr.toNat →
        ∃ s2, exec (decodeBoundary w) s1 = .next s2 ∧
          playIndex (c, s) = ({ c1 with played := c.played + 1 }, { s2 with call := none })) ∧
      (c1.addr.toNat < ((s1.chan c.id).dataSrc.toNat + (s1.chan c.id).samples.toNat) % 2 ^ 32 →
        playIndex (c, s) = ({ c1 with played := c.played + 1 }, { s1 with call := none }))

/-! ## GEN (41_resampler_fetch.md, 42_position_loop_stop.md) -/

/-- 41_resampler_fetch.md R129: GEN completes whenever the rate is not 0 and the count is not reserved, writes every slot
below n, and writes nothing outside its list. -/
def Obligations.GenCompletesAndWritesOnlyItsList : Prop :=
  ∀ (id : ChannelId) (n : Nat) (s : State), n ≤ s.params.mixbufLen → s.eng.sampleRate ≠ 0 →
    ∃ t, exec (.gen id n) s = .next t ∧ GenFrame id n s t ∧ t.call = none ∧
      ∀ x, x < n → ∃ v, sparseGet t.acc x = some v

/-- 41_resampler_fetch.md R129 to R134, R139; 42_position_loop_stop.md R156, R157: GEN latches its values, runs the indices
0 to n-1 in order (channel 0 zeroes the slot; then the playing test; then a played index, or the silence value), and moves
`data_pos` on by `trunc(ratio * played)`, forced even for PCM16.
The rule rests on the spec's own decisions D6 and D10. -/
def Obligations.GenRunsItsIndicesInOrder : Prop :=
  ∀ (id : ChannelId) (n : Nat) (s : State), n ≤ s.params.mixbufLen → s.eng.sampleRate ≠ 0 →
    ∃ (c : Nat → GenCall) (u : Nat → State) (pos : Word),
      exec (.gen id n) s =
        .next { (u n).setChan id { (u n).chan id with dataPos := pos } with call := none } ∧
      u 0 = s ∧ (c 0).played = 0 ∧ (∀ y, n ≤ y → sparseGet (u n).acc y = sparseGet s.acc y) ∧
      (∀ x, x ≤ n → (c x).id = id ∧ (c x).ratio = fval (s.chan id).freq / (s.eng.sampleRate.toNat : Rat) ∧
        (c x).vol = compositeVolume (s.chan id) s.eng ∧ (c x).sil = -32768 * compositeVolume (s.chan id) s.eng ∧
        (c x).fmt = decodeFmt (s.chan id).cnt ∧ (c x).lm = decodeLoopMode (s.chan id).cnt) ∧
      (∀ x, x < n → ∃ z : State, (id = 0 → z = (u x).setSlot x 0) ∧ (id ≠ 0 → z = u x) ∧
        (((u x).chan id).samples ≠ 0 ∧ ((u x).chan id).playing = true →
          (c (x + 1), u (x + 1)) = playIndex ({ c x with x := x }, z) ∧ (c (x + 1)).played = (c x).played + 1) ∧
        (¬ (((u x).chan id).samples ≠ 0 ∧ ((u x).chan id).playing = true) →
          c (x + 1) = { c x with x := x } ∧ u (x + 1) = z.updateSlot x fun a => trunc ((a : Rat) + (c x).sil))) ∧
      (((pos.toNat : Int) = (((u n).chan id).dataPos.toNat + trunc ((c n).ratio * ((c n).played : Rat))) % 2 ^ 32 ∧
          (c n).fmt ≠ .pcm16) ∨
        ((pos.toNat : Int) = (((u n).chan id).dataPos.toNat + trunc ((c n).ratio * ((c n).played : Rat))) % 2 ^ 32 / 2 * 2 ∧
          (c n).fmt = .pcm16))

/-- What changes nothing at all: NOP (45_host_commands.md R200), ADH and ADX without the extension (30_encoding.md R98,
40_adpcm_decoder.md R120), and a count above MIXBUF_LEN, a reserved operand (30_encoding.md R98), whatever the rate (that
this comes before the refusal of a rate of 0 is the model's choice, log 25). -/
def Obligations.NopAndReservedOperandsChangeNothing : Prop :=
  ∀ s : State, exec .nop s = .next s ∧
    (s.params.adpcmExpand = false → ∀ id d, exec (.adh id) s = .next s ∧ exec (.adx id d) s = .next s) ∧
    ∀ n, s.params.mixbufLen < n → (∀ id, exec (.gen id n) s = .next s) ∧ exec (.dmix n) s = .next s ∧
      ∀ b, b / 2 = n → exec (.mix b) s = .next s

/-- 41_resampler_fetch.md R132, R139: a pass of a channel that is not playing, or has no samples, adds the silence value
to every slot, reads nothing, and leaves the channel as it is but for the even forcing of POS.ADV (42 R157). -/
def Obligations.SilentPassAddsTheSilenceValue : Prop :=
  ∀ (id : ChannelId) (n : Nat) (s : State), n ≤ s.params.mixbufLen → s.eng.sampleRate ≠ 0 →
    (s.chan id).samples = 0 ∨ (s.chan id).playing = false →
    ∃ (t : State) (pos : Word), exec (.gen id n) s = .next t ∧
      t = { s.setChan id { s.chan id with dataPos := pos } with
        acc := t.acc, freeCount := t.freeCount, call := none } ∧
      pos.toNat = (if decodeFmt (s.chan id).cnt = .pcm16 then (s.chan id).dataPos.toNat / 2 * 2
        else (s.chan id).dataPos.toNat) ∧
      ∀ x, x < n → ∀ a : Int, (id = 0 ∧ a = 0) ∨ (id ≠ 0 ∧ ∃ w, sparseGet s.acc x = some w ∧ a = w.toInt) →
        fitsI32 (trunc ((a : Rat) + -32768 * compositeVolume (s.chan id) s.eng)) = true →
        t.slot x = trunc ((a : Rat) + -32768 * compositeVolume (s.chan id) s.eng)

/-- The source's PCM8 property, 41_resampler_fetch.md R142 (derived there): at ratio 1 the channel reads its bytes in
order, one per slot, scales each by 256 and the composite volume, and moves by exactly n bytes. -/
def Obligations.Pcm8AtRatioOnePlaysItsBytes : Prop :=
  ∀ (s : State) (n : Nat), n ≤ s.params.mixbufLen → s.eng.sampleRate ≠ 0 → s.params.memStable = true →
    s.eng.channelMasterVolume.toNat ≤ 128 → fval (s.chan 0).freq = (s.eng.sampleRate.toNat : Rat) →
    decodeFmt (s.chan 0).cnt = .pcm8 → (s.chan 0).playing = true → (s.chan 0).samples.toNat = n →
    (s.chan 0).dataPos = (s.chan 0).dataSrc → (s.chan 0).dataSrc.toNat + n < 2 ^ 32 →
    ∃ t, exec (.gen 0 n) s = .next t ∧
      (∀ x, x < n → t.slot x =
        trunc ((((s.mem.read ((s.chan 0).dataSrc + BitVec.ofNat 32 x)).toInt * 256 : Int) : Rat) *
          compositeVolume (s.chan 0) s.eng)) ∧
      t.resp.reads = s.resp.reads ++
        (List.range n).map (fun x => ReadRequest.byte ((s.chan 0).dataSrc + BitVec.ofNat 32 x)) ∧
      t.chan 0 = { s.chan 0 with dataPos := (s.chan 0).dataSrc + BitVec.ofNat 32 n }

/-- 42_position_loop_stop.md R152 to R155, R159: what each loop mode lets a GEN change of its channel. Modes 0 and 3 never
stop or reload; mode 1 never stops; mode 2 never reloads, and either leaves the flags or clears both. -/
def Obligations.LoopModeBoundsWhatGenChanges : Prop :=
  ∀ (id : ChannelId) (n : Nat) (s t : State), exec (.gen id n) s = .next t →
    (decodeLoopMode (s.chan id).cnt ≠ .loop →
      (t.chan id).dataSrc = (s.chan id).dataSrc ∧ (t.chan id).samples = (s.chan id).samples) ∧
    (decodeLoopMode (s.chan id).cnt ≠ .stop →
      (t.chan id).playing = (s.chan id).playing ∧ (t.chan id).cnt = (s.chan id).cnt) ∧
    (decodeLoopMode (s.chan id).cnt = .stop →
      ((t.chan id).playing = (s.chan id).playing ∧ (t.chan id).cnt = (s.chan id).cnt) ∨
      ((t.chan id).playing = false ∧ (t.chan id).cnt.getLsbD 31 = false))

/-- 42_position_loop_stop.md R157 (derived there): a GEN of no slots only forces a PCM16 position even. -/
def Obligations.ZeroLengthGenOnlyForcesPcm16Even : Prop :=
  ∀ (id : ChannelId) (s : State), s.eng.sampleRate ≠ 0 →
    ∃ pos : Word, exec (.gen id 0) s =
        .next { s.setChan id { s.chan id with dataPos := pos } with call := none } ∧
      (decodeFmt (s.chan id).cnt = .pcm16 → pos.toNat = (s.chan id).dataPos.toNat / 2 * 2) ∧
      (decodeFmt (s.chan id).cnt ≠ .pcm16 → pos = (s.chan id).dataPos)

/-- 20_memory.md R69 (derived there): the reads of one GEN are at most one per slot, bytes for PCM8, halfwords at even
addresses for PCM16, none for ADPCM and PSG. -/
def Obligations.GenReadFootprint : Prop :=
  ∀ (id : ChannelId) (n : Nat) (s t : State), exec (.gen id n) s = .next t →
    ∃ l, t.resp.reads = s.resp.reads ++ l ∧ l.length ≤ n ∧
      (decodeFmt (s.chan id).cnt = .pcm8 → ∀ q ∈ l, ∃ a, q = .byte a) ∧
      (decodeFmt (s.chan id).cnt = .pcm16 → ∀ q ∈ l, ∃ a, q = .half a ∧ a.getLsbD 0 = false) ∧
      (decodeFmt (s.chan id).cnt = .adpcm ∨ decodeFmt (s.chan id).cnt = .psg → l = [])

/-- 42_position_loop_stop.md R160 (derived there): the block never starts a channel: a stopped one stays stopped, a starved
one starved, for every channel and every command but RESET and the host's WR. -/
def Obligations.OnlyTheHostStartsAChannel : Prop :=
  ∀ (i : Instr) (s t : State) (id : ChannelId), exec i s = .next t → i ≠ .reset → (∀ r arg, i ≠ .wr r arg) →
    i.kind = .cmd →
    ((s.chan id).playing = false → (t.chan id).playing = false) ∧
    ((s.chan id).playing = true ∧ (s.chan id).samples = 0 →
      (t.chan id).playing = true ∧ (t.chan id).samples = 0)

/-! ## Volume and numbers (00_scope.md, 43_volume.md) -/

/-- 00_scope.md R9, R10: truncation is toward zero: a fraction truncates to the truncating division, and never grows. -/
def Obligations.TruncationIsTowardZero : Prop :=
  (∀ (n : Int) (d : Nat), 0 < d → trunc ((n : Rat) / (d : Rat)) = n.tdiv d) ∧
  ∀ q : Rat, ((trunc q).natAbs : Rat) ≤ |q| ∧ |q - (trunc q : Rat)| < 1 ∧ 0 ≤ (trunc q : Rat) * q

/-- 43_volume.md R170 to R172: the composite volume and the silence value in closed form and in range. -/
def Obligations.CompositeVolumeClosedForm : Prop :=
  ∀ (c : Channel) (e : Engine),
    compositeVolume c e =
      ((c.volume.toNat * e.mainVolume.toNat * e.channelMasterVolume.toNat : Nat) : Rat) / 2064512 ∧
    silenceValue (compositeVolume c e) =
      -((256 * c.volume.toNat * e.mainVolume.toNat * e.channelMasterVolume.toNat : Nat) : Rat) / 16129 ∧
    (compositeVolume c e = 0 ↔ c.volume = 0 ∨ e.mainVolume = 0 ∨ e.channelMasterVolume = 0) ∧
    (e.channelMasterVolume.toNat ≤ 128 → 0 ≤ compositeVolume c e ∧ compositeVolume c e ≤ 1 ∧
      (compositeVolume c e = 1 ↔
        c.volume.toNat = 127 ∧ e.mainVolume.toNat = 127 ∧ e.channelMasterVolume.toNat = 128))

/-- 43_volume.md R173: VOL.SCALE is one truncation of the exact product; it never increases magnitude; volume 1 keeps the
value, volume 0 erases it. -/
def Obligations.ScalingNeverIncreasesMagnitude : Prop :=
  ∀ (vol : Rat) (s a : Int), 0 ≤ vol → vol ≤ 1 →
    volScale vol s a = trunc (((a + s : Int) : Rat) * vol) ∧ (volScale vol s a).natAbs ≤ (a + s).natAbs ∧
      volScale 1 s a = a + s ∧ volScale 0 s a = 0

/-! ## Mixer (44_mixer.md) -/

/-- 44_mixer.md R188: DMIX emits `tdiv(acc[x], 16)` narrowed to 16 bits for each slot in order and changes nothing else.
From a slot nothing has written it emits a free sample (93_implementation_defined.md U6, log 7), which only the model's own
count of free values shows.
The rule rests on the spec's own decisions D1 and D14. -/
def Obligations.DmixEmitsTheDividedSlots : Prop :=
  (∀ (w : Word) (arg : Dword), w.toNat / 2 ^ 28 = 7 → decode w arg = .ok (.dmix (w.toNat / 2 ^ 4 % 2 ^ 24))) ∧
  ∀ (s : State) (n : Nat), n ≤ s.params.mixbufLen →
    ∃ (l : List Half) (k : Nat), exec (.dmix n) s =
        .next { s with resp := { s.resp with samples := s.resp.samples ++ l }, freeCount := k } ∧ l.length = n ∧
      ((∀ x, x < n → ∃ v, sparseGet s.acc x = some v) → k = s.freeCount) ∧
      ∀ (x : Nat) (v : Word) (o : Half), sparseGet s.acc x = some v → l[x]? = some o →
        ((o.toInt - v.toInt.tdiv 16) % 65536 = 0 ∧
          (-524288 ≤ v.toInt → v.toInt ≤ 524287 → o.toInt = v.toInt.tdiv 16))

/-- 44_mixer.md R185, R186: MIX is GEN for the sixteen channels in increasing id order, then DMIX, then the step of `LS`.
The rule rests on the spec's own decision D15. -/
def Obligations.MixIsSixteenGensThenDmix : Prop :=
  (∀ (w : Word) (arg : Dword), w.toNat / 2 ^ 28 = 8 → decode w arg = .ok (.mix (w.toNat % 2 ^ 28))) ∧
  ∀ (s : State) (b : Nat), b / 2 ≤ s.params.mixbufLen → s.eng.sampleRate ≠ 0 →
    ∃ (u : Nat → State) (v : State), u 0 = s ∧
      (∀ id : ChannelId, exec (.gen id (b / 2)) (u id.val) = .next (u (id.val + 1))) ∧
      exec (.dmix (b / 2)) (u 16) = .next v ∧
      exec (.mix b) s = .next (if v.ls = .initialized then { v with ls := .running } else v)

/-- 43_volume.md R175 (derived there): after a MIX every slot it covers lies in -524288..524272, and no free value was
used. -/
def Obligations.MixKeepsEverySlotInRange : Prop :=
  ∀ (s t : State) (b : Nat), s.eng.channelMasterVolume.toNat ≤ 128 → b / 2 ≤ s.params.mixbufLen →
    exec (.mix b) s = .next t →
    (∀ x, x < b / 2 → ∃ v, sparseGet t.acc x = some v ∧ -524288 ≤ v.toInt ∧ v.toInt ≤ 524272) ∧
    t.freeCount = s.freeCount

/-- 44_mixer.md R187, R189: MIX completes, emits `byte_length / 2` samples, each exactly its slot divided by 16 toward
zero, and changes only what GEN and DMIX change. -/
def Obligations.MixEmitsEverySlotExactly : Prop :=
  ∀ (s : State) (b : Nat), s.eng.channelMasterVolume.toNat ≤ 128 → b / 2 ≤ s.params.mixbufLen →
    s.eng.sampleRate ≠ 0 →
    ∃ (t : State) (l : List Half), exec (.mix b) s = .next t ∧ MixFrame (b / 2) s t ∧ t.call = none ∧
      t.resp.samples = s.resp.samples ++ l ∧ l.length = b / 2 ∧
      ∀ x o, l[x]? = some o → ∃ v, sparseGet t.acc x = some v ∧ o.toInt = v.toInt.tdiv 16

/-- 44_mixer.md R186: the content of the mix buffer before a MIX has no influence on its samples, its reads, the
channels, the memory or the slots it covers. -/
def Obligations.OldMixBufferHasNoInfluence : Prop :=
  ∀ (s t t' : State) (a : List (Nat × Word)) (b : Nat), b / 2 ≤ s.params.mixbufLen →
    exec (.mix b) s = .next t → exec (.mix b) { s with acc := a } = .next t' →
    t' = { t with acc := t'.acc } ∧ ∀ x, x < b / 2 → sparseGet t'.acc x = sparseGet t.acc x

/-- 70_reset_and_hazards.md R251 (derived there): a MIX straight after reset emits zeros, whatever RESET_MAIN_VOLUME. -/
def Obligations.MixAfterResetIsSilent : Prop :=
  ∀ (s : State) (b : Nat), AfterReset s → b / 2 ≤ s.params.mixbufLen → s.eng.sampleRate ≠ 0 →
    ∃ t, exec (.mix b) s = .next t ∧ t.resp.samples = s.resp.samples ++ List.replicate (b / 2) 0 ∧
      t.resp.reads = s.resp.reads

/-- 44_mixer.md R190 (derived there): sixteen silent channels at full volumes downmix to -32768. -/
def Obligations.SixteenSilentChannelsAtFullVolume : Prop :=
  ∀ (s : State) (b : Nat), (∀ id, (s.chan id).playing = false ∧ (s.chan id).volume.toNat = 127) →
    s.eng.mainVolume.toNat = 127 → s.eng.channelMasterVolume.toNat = 128 → b / 2 ≤ s.params.mixbufLen →
    s.eng.sampleRate ≠ 0 →
    ∃ (t : State) (o : Half), exec (.mix b) s = .next t ∧ o.toInt = -32768 ∧
      t.resp.samples = s.resp.samples ++ List.replicate (b / 2) o

/-! ## Lifecycle (45_host_commands.md) -/

/-- 45_host_commands.md R212, 60_exceptions.md R230: INIT closes an open device, asks for a mono signed 16-bit one at the
latched rate, and reports and records the outcome; nothing else changes.
The rule rests on the spec's own decisions D21 and D22. -/
def Obligations.InitOpensTheDeviceAndReports : Prop :=
  (∀ (w : Word) (arg : Dword), w.toNat / 2 ^ 28 = 2 → decode w arg = .ok .init) ∧
  ∀ s : State, exec .init s = .next { s with
    ls := if s.devOk = true then .initialized else .uninit
    resp := { s.resp with
      result := some (.bit s.devOk)
      device := s.resp.device ++ (if s.ls = .initialized ∨ s.ls = .running then [.closeDevice] else []) ++
        [.openDevice s.eng.sampleRate 1 16 s.params.hostBufSamples] } }

/-- 45_host_commands.md R213: SHUTDOWN closes the device if open and changes nothing else but `LS`. -/
def Obligations.ShutdownClosesTheDevice : Prop :=
  (∀ (w : Word) (arg : Dword), w.toNat / 2 ^ 28 = 3 → decode w arg = .ok .shutdown) ∧
  ∀ s : State, exec .shutdown s = .next { s with
    ls := .shutdown
    resp := { s.resp with
      device := s.resp.device ++ if s.ls = .initialized ∨ s.ls = .running then [.closeDevice] else [] } }

/-- 45_host_commands.md R214: `LS` changes only as the table says, for every instruction.
The rule rests on the spec's own decision D21. -/
def Obligations.LifecycleChangesOnlyAsTheTableSays : Prop :=
  (∀ p : Params, (State.powerOn p).ls = .uninit) ∧
  ∀ (i : Instr) (s t : State), exec i s = .next t → t.ls = lifecycleAfter i s

/-- 45_host_commands.md R215: no command is gated by `LS`: every instruction but the three that name the lifecycle and the
RD of it does the same in all four states, and moves `LS` as R214 says.
The rule rests on the spec's own decision D21. -/
def Obligations.LifecycleGatesNothing : Prop :=
  ∀ (i : Instr) (s t : State) (ls : Lifecycle),
    i ≠ .reset → i ≠ .init → i ≠ .shutdown → i ≠ .rd (.eng .lifecycle) → exec i s = .next t →
    exec i { s with ls := ls } = .next { t with ls := lifecycleAfter i { s with ls := ls } }

/-- 10_state.md R34: no instruction but the WR and RD of them, and RESET, reads or writes `sound_on` and `stereo`. -/
def Obligations.SoundOnAndStereoHaveNoEffect : Prop :=
  ∀ (i : Instr) (s t : State) (soundOn stereo : Bool), i.namesEngineFlags = false → exec i s = .next t →
    exec i (s.withFlags soundOn stereo) = .next (t.withFlags soundOn stereo)

/-! ## Whole-machine statements (60_exceptions.md, 93_implementation_defined.md) -/

/-- 60_exceptions.md R231, R233: no instruction faults; it completes but for the refusals of `stopReason`, each with the
spec's treatment `refuse`. The model's own: a micro-operation without a call is refused (log 14, DESIGN CHOICE); a reserved
count completes even at a rate of 0, where 41_resampler_fetch.md R130 speaks of GEN and MIX without exception (log 25, DESIGN
CHOICE, unsafe); a count of 0 is refused at a rate of 0 (log 10, DEDUCED). -/
def Obligations.InstructionsCompleteUnlessListed : Prop :=
  ∀ (i : Instr) (s : State),
    (stopReason i s = none → ∃ t, exec i s = .next t) ∧
    ∀ r, stopReason i s = some r → exec i s = .refused r

/-- The invariant of the block (see `Inv`) holds at power-on for every choice of the parameters with a legal
CFG_DEFAULT_VOLUME, and so at reset. The canonical form of memory is the model's choice (log 9). -/
def Obligations.InvariantHoldsAtPowerOn : Prop :=
  Inv State.reset ∧ ∀ p : Params, p.cfgDefaultVolume.toNat ≤ 128 → Inv (State.powerOn p)

/-- Every step keeps the invariant (10_state.md R30, R33, R35, R37 to R40): canonical memory and mix buffer, no transient
call between commands, legal frequencies, volumes in range, an immutable step table. The canonical form of memory is the
model's choice (log 9). -/
def Obligations.EveryStepKeepsTheInvariant : Prop := ∀ s t : State, Inv s → step s = .next t → Inv t

/-! ## The width of the recurrence (00_scope.md R6, 40_adpcm_decoder.md R115) -/

/-- 00_scope.md R6, 40_adpcm_decoder.md R115 (derived there): `ACC_WIDTH` is a parameter, and with the default seed no width
of 32 bits or more shows in the table. That the accumulator is reduced modulo `2^ACC_WIDTH` and the entry stays `x[31:16]` at
a width other than 32 is the model's choice (log 26). -/
def Obligations.TblinitAtEveryAccumulatorWidth : Prop :=
  (∀ s : State, ∃ (t : State) (x : Nat → Nat), exec .tblinit s = .next t ∧
    x 0 = s.params.adpcmSeed.toNat % 2 ^ s.params.accWidth ∧
    (∀ a, x (a + 1) = (x a + x a / 10) % 2 ^ s.params.accWidth) ∧
    ∀ a : TableIndex, t.table[a.val].toNat =
      if a.val = 3 then 0xA else if a.val = 4 then 0xB else if a.val = 88 then 0x7FFF
      else if 89 ≤ a.val then 0 else x a.val / 2 ^ 16 % 2 ^ 16) ∧
  ∀ p : Params, p.adpcmSeed = Params.default.adpcmSeed → 32 ≤ p.accWidth →
    (State.powerOn p).table = (State.powerOn Params.default).table
end

