-- ==== Sys2Proof/Laws/State.lean ====
section
/-! SUPPORT. One lemma per field and per shared operation that leaves the field alone, and the lemmas of the fields an
operation does change. No later proof unfolds a record update. -/

namespace Sys2Proof.Machine

variable (s : State)

/-! ### `setChan`: `ch[id] <- c` changes the channel bank only. -/

@[simp] theorem setChan_params (id : ChannelId) (c : Channel) : (s.setChan id c).params = s.params := rfl
@[simp] theorem setChan_eng (id : ChannelId) (c : Channel) : (s.setChan id c).eng = s.eng := rfl
@[simp] theorem setChan_table (id : ChannelId) (c : Channel) : (s.setChan id c).table = s.table := rfl
@[simp] theorem setChan_cfg (id : ChannelId) (c : Channel) : (s.setChan id c).cfg = s.cfg := rfl
@[simp] theorem setChan_ls (id : ChannelId) (c : Channel) : (s.setChan id c).ls = s.ls := rfl
@[simp] theorem setChan_acc (id : ChannelId) (c : Channel) : (s.setChan id c).acc = s.acc := rfl
@[simp] theorem setChan_call (id : ChannelId) (c : Channel) : (s.setChan id c).call = s.call := rfl
@[simp] theorem setChan_mem (id : ChannelId) (c : Channel) : (s.setChan id c).mem = s.mem := rfl
@[simp] theorem setChan_port (id : ChannelId) (c : Channel) : (s.setChan id c).port = s.port := rfl
@[simp] theorem setChan_devOk (id : ChannelId) (c : Channel) : (s.setChan id c).devOk = s.devOk := rfl
@[simp] theorem setChan_liveStores (id : ChannelId) (c : Channel) : (s.setChan id c).liveStores = s.liveStores := rfl
@[simp] theorem setChan_resp (id : ChannelId) (c : Channel) : (s.setChan id c).resp = s.resp := rfl
@[simp] theorem setChan_freeCount (id : ChannelId) (c : Channel) : (s.setChan id c).freeCount = s.freeCount := rfl

/-! ### `noteRead`: Showing a read changes the output ports only. -/

@[simp] theorem noteRead_params (r : ReadRequest) : (s.noteRead r).params = s.params := rfl
@[simp] theorem noteRead_ch (r : ReadRequest) : (s.noteRead r).ch = s.ch := rfl
@[simp] theorem noteRead_eng (r : ReadRequest) : (s.noteRead r).eng = s.eng := rfl
@[simp] theorem noteRead_table (r : ReadRequest) : (s.noteRead r).table = s.table := rfl
@[simp] theorem noteRead_cfg (r : ReadRequest) : (s.noteRead r).cfg = s.cfg := rfl
@[simp] theorem noteRead_ls (r : ReadRequest) : (s.noteRead r).ls = s.ls := rfl
@[simp] theorem noteRead_acc (r : ReadRequest) : (s.noteRead r).acc = s.acc := rfl
@[simp] theorem noteRead_call (r : ReadRequest) : (s.noteRead r).call = s.call := rfl
@[simp] theorem noteRead_mem (r : ReadRequest) : (s.noteRead r).mem = s.mem := rfl
@[simp] theorem noteRead_port (r : ReadRequest) : (s.noteRead r).port = s.port := rfl
@[simp] theorem noteRead_devOk (r : ReadRequest) : (s.noteRead r).devOk = s.devOk := rfl
@[simp] theorem noteRead_liveStores (r : ReadRequest) : (s.noteRead r).liveStores = s.liveStores := rfl
@[simp] theorem noteRead_freeCount (r : ReadRequest) : (s.noteRead r).freeCount = s.freeCount := rfl

/-! ### `answer`: A result changes the output ports only. -/

@[simp] theorem answer_params (r : Result) : (s.answer r).params = s.params := rfl
@[simp] theorem answer_ch (r : Result) : (s.answer r).ch = s.ch := rfl
@[simp] theorem answer_eng (r : Result) : (s.answer r).eng = s.eng := rfl
@[simp] theorem answer_table (r : Result) : (s.answer r).table = s.table := rfl
@[simp] theorem answer_cfg (r : Result) : (s.answer r).cfg = s.cfg := rfl
@[simp] theorem answer_ls (r : Result) : (s.answer r).ls = s.ls := rfl
@[simp] theorem answer_acc (r : Result) : (s.answer r).acc = s.acc := rfl
@[simp] theorem answer_call (r : Result) : (s.answer r).call = s.call := rfl
@[simp] theorem answer_mem (r : Result) : (s.answer r).mem = s.mem := rfl
@[simp] theorem answer_port (r : Result) : (s.answer r).port = s.port := rfl
@[simp] theorem answer_devOk (r : Result) : (s.answer r).devOk = s.devOk := rfl
@[simp] theorem answer_liveStores (r : Result) : (s.answer r).liveStores = s.liveStores := rfl
@[simp] theorem answer_freeCount (r : Result) : (s.answer r).freeCount = s.freeCount := rfl

/-! ### `emit`: An output sample changes the output ports only. -/

@[simp] theorem emit_params (v : Half) : (s.emit v).params = s.params := rfl
@[simp] theorem emit_ch (v : Half) : (s.emit v).ch = s.ch := rfl
@[simp] theorem emit_eng (v : Half) : (s.emit v).eng = s.eng := rfl
@[simp] theorem emit_table (v : Half) : (s.emit v).table = s.table := rfl
@[simp] theorem emit_cfg (v : Half) : (s.emit v).cfg = s.cfg := rfl
@[simp] theorem emit_ls (v : Half) : (s.emit v).ls = s.ls := rfl
@[simp] theorem emit_acc (v : Half) : (s.emit v).acc = s.acc := rfl
@[simp] theorem emit_call (v : Half) : (s.emit v).call = s.call := rfl
@[simp] theorem emit_mem (v : Half) : (s.emit v).mem = s.mem := rfl
@[simp] theorem emit_port (v : Half) : (s.emit v).port = s.port := rfl
@[simp] theorem emit_devOk (v : Half) : (s.emit v).devOk = s.devOk := rfl
@[simp] theorem emit_liveStores (v : Half) : (s.emit v).liveStores = s.liveStores := rfl
@[simp] theorem emit_freeCount (v : Half) : (s.emit v).freeCount = s.freeCount := rfl

/-! ### `askDevice`: A device request changes the output ports only. -/

@[simp] theorem askDevice_params (r : DeviceRequest) : (s.askDevice r).params = s.params := rfl
@[simp] theorem askDevice_ch (r : DeviceRequest) : (s.askDevice r).ch = s.ch := rfl
@[simp] theorem askDevice_eng (r : DeviceRequest) : (s.askDevice r).eng = s.eng := rfl
@[simp] theorem askDevice_table (r : DeviceRequest) : (s.askDevice r).table = s.table := rfl
@[simp] theorem askDevice_cfg (r : DeviceRequest) : (s.askDevice r).cfg = s.cfg := rfl
@[simp] theorem askDevice_ls (r : DeviceRequest) : (s.askDevice r).ls = s.ls := rfl
@[simp] theorem askDevice_acc (r : DeviceRequest) : (s.askDevice r).acc = s.acc := rfl
@[simp] theorem askDevice_call (r : DeviceRequest) : (s.askDevice r).call = s.call := rfl
@[simp] theorem askDevice_mem (r : DeviceRequest) : (s.askDevice r).mem = s.mem := rfl
@[simp] theorem askDevice_port (r : DeviceRequest) : (s.askDevice r).port = s.port := rfl
@[simp] theorem askDevice_devOk (r : DeviceRequest) : (s.askDevice r).devOk = s.devOk := rfl
@[simp] theorem askDevice_liveStores (r : DeviceRequest) : (s.askDevice r).liveStores = s.liveStores := rfl
@[simp] theorem askDevice_freeCount (r : DeviceRequest) : (s.askDevice r).freeCount = s.freeCount := rfl

/-! ### `closeDevice`: Closing the device changes the output ports only. -/

@[simp] theorem closeDevice_params : (s.closeDevice).params = s.params := by unfold State.closeDevice; split <;> rfl
@[simp] theorem closeDevice_ch : (s.closeDevice).ch = s.ch := by unfold State.closeDevice; split <;> rfl
@[simp] theorem closeDevice_eng : (s.closeDevice).eng = s.eng := by unfold State.closeDevice; split <;> rfl
@[simp] theorem closeDevice_table : (s.closeDevice).table = s.table := by unfold State.closeDevice; split <;> rfl
@[simp] theorem closeDevice_cfg : (s.closeDevice).cfg = s.cfg := by unfold State.closeDevice; split <;> rfl
@[simp] theorem closeDevice_ls : (s.closeDevice).ls = s.ls := by unfold State.closeDevice; split <;> rfl
@[simp] theorem closeDevice_acc : (s.closeDevice).acc = s.acc := by unfold State.closeDevice; split <;> rfl
@[simp] theorem closeDevice_call : (s.closeDevice).call = s.call := by unfold State.closeDevice; split <;> rfl
@[simp] theorem closeDevice_mem : (s.closeDevice).mem = s.mem := by unfold State.closeDevice; split <;> rfl
@[simp] theorem closeDevice_port : (s.closeDevice).port = s.port := by unfold State.closeDevice; split <;> rfl
@[simp] theorem closeDevice_devOk : (s.closeDevice).devOk = s.devOk := by unfold State.closeDevice; split <;> rfl
@[simp] theorem closeDevice_liveStores : (s.closeDevice).liveStores = s.liveStores := by unfold State.closeDevice; split <;> rfl
@[simp] theorem closeDevice_freeCount : (s.closeDevice).freeCount = s.freeCount := by unfold State.closeDevice; split <;> rfl

/-! ### `accept`: Taking a command changes the ports only. -/

@[simp] theorem accept_params (c : PortCommand) (rest : List Arrival) : (s.accept c rest).params = s.params := rfl
@[simp] theorem accept_ch (c : PortCommand) (rest : List Arrival) : (s.accept c rest).ch = s.ch := rfl
@[simp] theorem accept_eng (c : PortCommand) (rest : List Arrival) : (s.accept c rest).eng = s.eng := rfl
@[simp] theorem accept_table (c : PortCommand) (rest : List Arrival) : (s.accept c rest).table = s.table := rfl
@[simp] theorem accept_cfg (c : PortCommand) (rest : List Arrival) : (s.accept c rest).cfg = s.cfg := rfl
@[simp] theorem accept_ls (c : PortCommand) (rest : List Arrival) : (s.accept c rest).ls = s.ls := rfl
@[simp] theorem accept_acc (c : PortCommand) (rest : List Arrival) : (s.accept c rest).acc = s.acc := rfl
@[simp] theorem accept_call (c : PortCommand) (rest : List Arrival) : (s.accept c rest).call = s.call := rfl
@[simp] theorem accept_mem (c : PortCommand) (rest : List Arrival) : (s.accept c rest).mem = s.mem := rfl
@[simp] theorem accept_liveStores (c : PortCommand) (rest : List Arrival) : (s.accept c rest).liveStores = s.liveStores := rfl
@[simp] theorem accept_freeCount (c : PortCommand) (rest : List Arrival) : (s.accept c rest).freeCount = s.freeCount := rfl

/-! ### `platformStore`: A store of the platform changes the port and the Memory Source only. -/

@[simp] theorem platformStore_params (x : Store) (rest : List Arrival) : (s.platformStore x rest).params = s.params := rfl
@[simp] theorem platformStore_ch (x : Store) (rest : List Arrival) : (s.platformStore x rest).ch = s.ch := rfl
@[simp] theorem platformStore_eng (x : Store) (rest : List Arrival) : (s.platformStore x rest).eng = s.eng := rfl
@[simp] theorem platformStore_table (x : Store) (rest : List Arrival) : (s.platformStore x rest).table = s.table := rfl
@[simp] theorem platformStore_cfg (x : Store) (rest : List Arrival) : (s.platformStore x rest).cfg = s.cfg := rfl
@[simp] theorem platformStore_ls (x : Store) (rest : List Arrival) : (s.platformStore x rest).ls = s.ls := rfl
@[simp] theorem platformStore_acc (x : Store) (rest : List Arrival) : (s.platformStore x rest).acc = s.acc := rfl
@[simp] theorem platformStore_call (x : Store) (rest : List Arrival) : (s.platformStore x rest).call = s.call := rfl
@[simp] theorem platformStore_devOk (x : Store) (rest : List Arrival) : (s.platformStore x rest).devOk = s.devOk := rfl
@[simp] theorem platformStore_liveStores (x : Store) (rest : List Arrival) : (s.platformStore x rest).liveStores = s.liveStores := rfl
@[simp] theorem platformStore_resp (x : Store) (rest : List Arrival) : (s.platformStore x rest).resp = s.resp := rfl
@[simp] theorem platformStore_freeCount (x : Store) (rest : List Arrival) : (s.platformStore x rest).freeCount = s.freeCount := rfl

/-! ### `resetBlock`: What RESET leaves alone (log 27). -/

@[simp] theorem resetBlock_params : (s.resetBlock).params = s.params := rfl
@[simp] theorem resetBlock_cfg : (s.resetBlock).cfg = s.cfg := rfl
@[simp] theorem resetBlock_mem : (s.resetBlock).mem = s.mem := rfl
@[simp] theorem resetBlock_port : (s.resetBlock).port = s.port := rfl
@[simp] theorem resetBlock_devOk : (s.resetBlock).devOk = s.devOk := rfl
@[simp] theorem resetBlock_liveStores : (s.resetBlock).liveStores = s.liveStores := rfl
@[simp] theorem resetBlock_resp : (s.resetBlock).resp = s.resp := rfl
@[simp] theorem resetBlock_freeCount : (s.resetBlock).freeCount = s.freeCount := rfl

/-! ### `noteSlotRead`: Reading a slot can change the count of free values only. -/

@[simp] theorem noteSlotRead_params (x : Nat) : (s.noteSlotRead x).params = s.params := by unfold State.noteSlotRead; split <;> rfl
@[simp] theorem noteSlotRead_ch (x : Nat) : (s.noteSlotRead x).ch = s.ch := by unfold State.noteSlotRead; split <;> rfl
@[simp] theorem noteSlotRead_eng (x : Nat) : (s.noteSlotRead x).eng = s.eng := by unfold State.noteSlotRead; split <;> rfl
@[simp] theorem noteSlotRead_table (x : Nat) : (s.noteSlotRead x).table = s.table := by unfold State.noteSlotRead; split <;> rfl
@[simp] theorem noteSlotRead_cfg (x : Nat) : (s.noteSlotRead x).cfg = s.cfg := by unfold State.noteSlotRead; split <;> rfl
@[simp] theorem noteSlotRead_ls (x : Nat) : (s.noteSlotRead x).ls = s.ls := by unfold State.noteSlotRead; split <;> rfl
@[simp] theorem noteSlotRead_acc (x : Nat) : (s.noteSlotRead x).acc = s.acc := by unfold State.noteSlotRead; split <;> rfl
@[simp] theorem noteSlotRead_call (x : Nat) : (s.noteSlotRead x).call = s.call := by unfold State.noteSlotRead; split <;> rfl
@[simp] theorem noteSlotRead_mem (x : Nat) : (s.noteSlotRead x).mem = s.mem := by unfold State.noteSlotRead; split <;> rfl
@[simp] theorem noteSlotRead_port (x : Nat) : (s.noteSlotRead x).port = s.port := by unfold State.noteSlotRead; split <;> rfl
@[simp] theorem noteSlotRead_devOk (x : Nat) : (s.noteSlotRead x).devOk = s.devOk := by unfold State.noteSlotRead; split <;> rfl
@[simp] theorem noteSlotRead_liveStores (x : Nat) : (s.noteSlotRead x).liveStores = s.liveStores := by unfold State.noteSlotRead; split <;> rfl
@[simp] theorem noteSlotRead_resp (x : Nat) : (s.noteSlotRead x).resp = s.resp := by unfold State.noteSlotRead; split <;> rfl

/-! ### `setSlot`: Writing a slot changes the mix buffer and the count of free values only. -/

@[simp] theorem setSlot_params (x : Nat) (v : Int) : (s.setSlot x v).params = s.params := by unfold State.setSlot; split <;> rfl
@[simp] theorem setSlot_ch (x : Nat) (v : Int) : (s.setSlot x v).ch = s.ch := by unfold State.setSlot; split <;> rfl
@[simp] theorem setSlot_eng (x : Nat) (v : Int) : (s.setSlot x v).eng = s.eng := by unfold State.setSlot; split <;> rfl
@[simp] theorem setSlot_table (x : Nat) (v : Int) : (s.setSlot x v).table = s.table := by unfold State.setSlot; split <;> rfl
@[simp] theorem setSlot_cfg (x : Nat) (v : Int) : (s.setSlot x v).cfg = s.cfg := by unfold State.setSlot; split <;> rfl
@[simp] theorem setSlot_ls (x : Nat) (v : Int) : (s.setSlot x v).ls = s.ls := by unfold State.setSlot; split <;> rfl
@[simp] theorem setSlot_call (x : Nat) (v : Int) : (s.setSlot x v).call = s.call := by unfold State.setSlot; split <;> rfl
@[simp] theorem setSlot_mem (x : Nat) (v : Int) : (s.setSlot x v).mem = s.mem := by unfold State.setSlot; split <;> rfl
@[simp] theorem setSlot_port (x : Nat) (v : Int) : (s.setSlot x v).port = s.port := by unfold State.setSlot; split <;> rfl
@[simp] theorem setSlot_devOk (x : Nat) (v : Int) : (s.setSlot x v).devOk = s.devOk := by unfold State.setSlot; split <;> rfl
@[simp] theorem setSlot_liveStores (x : Nat) (v : Int) : (s.setSlot x v).liveStores = s.liveStores := by unfold State.setSlot; split <;> rfl
@[simp] theorem setSlot_resp (x : Nat) (v : Int) : (s.setSlot x v).resp = s.resp := by unfold State.setSlot; split <;> rfl

/-! ### `updateSlot`: Updating a slot changes the mix buffer and the count of free values only. -/

@[simp] theorem updateSlot_params (x : Nat) (f : Int → Int) : (s.updateSlot x f).params = s.params := by simp [State.updateSlot]
@[simp] theorem updateSlot_ch (x : Nat) (f : Int → Int) : (s.updateSlot x f).ch = s.ch := by simp [State.updateSlot]
@[simp] theorem updateSlot_eng (x : Nat) (f : Int → Int) : (s.updateSlot x f).eng = s.eng := by simp [State.updateSlot]
@[simp] theorem updateSlot_table (x : Nat) (f : Int → Int) : (s.updateSlot x f).table = s.table := by simp [State.updateSlot]
@[simp] theorem updateSlot_cfg (x : Nat) (f : Int → Int) : (s.updateSlot x f).cfg = s.cfg := by simp [State.updateSlot]
@[simp] theorem updateSlot_ls (x : Nat) (f : Int → Int) : (s.updateSlot x f).ls = s.ls := by simp [State.updateSlot]
@[simp] theorem updateSlot_call (x : Nat) (f : Int → Int) : (s.updateSlot x f).call = s.call := by simp [State.updateSlot]
@[simp] theorem updateSlot_mem (x : Nat) (f : Int → Int) : (s.updateSlot x f).mem = s.mem := by simp [State.updateSlot]
@[simp] theorem updateSlot_port (x : Nat) (f : Int → Int) : (s.updateSlot x f).port = s.port := by simp [State.updateSlot]
@[simp] theorem updateSlot_devOk (x : Nat) (f : Int → Int) : (s.updateSlot x f).devOk = s.devOk := by simp [State.updateSlot]
@[simp] theorem updateSlot_liveStores (x : Nat) (f : Int → Int) : (s.updateSlot x f).liveStores = s.liveStores := by simp [State.updateSlot]
@[simp] theorem updateSlot_resp (x : Nat) (f : Int → Int) : (s.updateSlot x f).resp = s.resp := by simp [State.updateSlot]

/-! ### `platformTurn`: The platform's turn changes the Memory Source and the stores that wait. -/

@[simp] theorem platformTurn_params : (s.platformTurn).params = s.params := by unfold State.platformTurn; split <;> [rfl; (split <;> rfl)]
@[simp] theorem platformTurn_ch : (s.platformTurn).ch = s.ch := by unfold State.platformTurn; split <;> [rfl; (split <;> rfl)]
@[simp] theorem platformTurn_eng : (s.platformTurn).eng = s.eng := by unfold State.platformTurn; split <;> [rfl; (split <;> rfl)]
@[simp] theorem platformTurn_table : (s.platformTurn).table = s.table := by unfold State.platformTurn; split <;> [rfl; (split <;> rfl)]
@[simp] theorem platformTurn_cfg : (s.platformTurn).cfg = s.cfg := by unfold State.platformTurn; split <;> [rfl; (split <;> rfl)]
@[simp] theorem platformTurn_ls : (s.platformTurn).ls = s.ls := by unfold State.platformTurn; split <;> [rfl; (split <;> rfl)]
@[simp] theorem platformTurn_acc : (s.platformTurn).acc = s.acc := by unfold State.platformTurn; split <;> [rfl; (split <;> rfl)]
@[simp] theorem platformTurn_call : (s.platformTurn).call = s.call := by unfold State.platformTurn; split <;> [rfl; (split <;> rfl)]
@[simp] theorem platformTurn_port : (s.platformTurn).port = s.port := by unfold State.platformTurn; split <;> [rfl; (split <;> rfl)]
@[simp] theorem platformTurn_devOk : (s.platformTurn).devOk = s.devOk := by unfold State.platformTurn; split <;> [rfl; (split <;> rfl)]
@[simp] theorem platformTurn_resp : (s.platformTurn).resp = s.resp := by unfold State.platformTurn; split <;> [rfl; (split <;> rfl)]
@[simp] theorem platformTurn_freeCount : (s.platformTurn).freeCount = s.freeCount := by unfold State.platformTurn; split <;> [rfl; (split <;> rfl)]

/-! ### `afterReadByte`: A byte read shows itself at the port. -/

@[simp] theorem afterReadByte_params (a : Word) : (s.afterReadByte a).params = s.params := by simp [State.afterReadByte]
@[simp] theorem afterReadByte_ch (a : Word) : (s.afterReadByte a).ch = s.ch := by simp [State.afterReadByte]
@[simp] theorem afterReadByte_eng (a : Word) : (s.afterReadByte a).eng = s.eng := by simp [State.afterReadByte]
@[simp] theorem afterReadByte_table (a : Word) : (s.afterReadByte a).table = s.table := by simp [State.afterReadByte]
@[simp] theorem afterReadByte_cfg (a : Word) : (s.afterReadByte a).cfg = s.cfg := by simp [State.afterReadByte]
@[simp] theorem afterReadByte_ls (a : Word) : (s.afterReadByte a).ls = s.ls := by simp [State.afterReadByte]
@[simp] theorem afterReadByte_acc (a : Word) : (s.afterReadByte a).acc = s.acc := by simp [State.afterReadByte]
@[simp] theorem afterReadByte_call (a : Word) : (s.afterReadByte a).call = s.call := by simp [State.afterReadByte]
@[simp] theorem afterReadByte_port (a : Word) : (s.afterReadByte a).port = s.port := by simp [State.afterReadByte]
@[simp] theorem afterReadByte_devOk (a : Word) : (s.afterReadByte a).devOk = s.devOk := by simp [State.afterReadByte]
@[simp] theorem afterReadByte_freeCount (a : Word) : (s.afterReadByte a).freeCount = s.freeCount := by simp [State.afterReadByte]

/-! ### `afterReadHalf`: A halfword read shows itself at the port. -/

@[simp] theorem afterReadHalf_params (a : Word) : (s.afterReadHalf a).params = s.params := by simp [State.afterReadHalf]
@[simp] theorem afterReadHalf_ch (a : Word) : (s.afterReadHalf a).ch = s.ch := by simp [State.afterReadHalf]
@[simp] theorem afterReadHalf_eng (a : Word) : (s.afterReadHalf a).eng = s.eng := by simp [State.afterReadHalf]
@[simp] theorem afterReadHalf_table (a : Word) : (s.afterReadHalf a).table = s.table := by simp [State.afterReadHalf]
@[simp] theorem afterReadHalf_cfg (a : Word) : (s.afterReadHalf a).cfg = s.cfg := by simp [State.afterReadHalf]
@[simp] theorem afterReadHalf_ls (a : Word) : (s.afterReadHalf a).ls = s.ls := by simp [State.afterReadHalf]
@[simp] theorem afterReadHalf_acc (a : Word) : (s.afterReadHalf a).acc = s.acc := by simp [State.afterReadHalf]
@[simp] theorem afterReadHalf_call (a : Word) : (s.afterReadHalf a).call = s.call := by simp [State.afterReadHalf]
@[simp] theorem afterReadHalf_port (a : Word) : (s.afterReadHalf a).port = s.port := by simp [State.afterReadHalf]
@[simp] theorem afterReadHalf_devOk (a : Word) : (s.afterReadHalf a).devOk = s.devOk := by simp [State.afterReadHalf]
@[simp] theorem afterReadHalf_freeCount (a : Word) : (s.afterReadHalf a).freeCount = s.freeCount := by simp [State.afterReadHalf]

/-! ### `firstPull`: The first pull changes the lifecycle only. -/

@[simp] theorem firstPull_params : (s.firstPull).params = s.params := by unfold State.firstPull; split <;> rfl
@[simp] theorem firstPull_ch : (s.firstPull).ch = s.ch := by unfold State.firstPull; split <;> rfl
@[simp] theorem firstPull_eng : (s.firstPull).eng = s.eng := by unfold State.firstPull; split <;> rfl
@[simp] theorem firstPull_table : (s.firstPull).table = s.table := by unfold State.firstPull; split <;> rfl
@[simp] theorem firstPull_cfg : (s.firstPull).cfg = s.cfg := by unfold State.firstPull; split <;> rfl
@[simp] theorem firstPull_acc : (s.firstPull).acc = s.acc := by unfold State.firstPull; split <;> rfl
@[simp] theorem firstPull_call : (s.firstPull).call = s.call := by unfold State.firstPull; split <;> rfl
@[simp] theorem firstPull_mem : (s.firstPull).mem = s.mem := by unfold State.firstPull; split <;> rfl
@[simp] theorem firstPull_port : (s.firstPull).port = s.port := by unfold State.firstPull; split <;> rfl
@[simp] theorem firstPull_devOk : (s.firstPull).devOk = s.devOk := by unfold State.firstPull; split <;> rfl
@[simp] theorem firstPull_liveStores : (s.firstPull).liveStores = s.liveStores := by unfold State.firstPull; split <;> rfl
@[simp] theorem firstPull_resp : (s.firstPull).resp = s.resp := by unfold State.firstPull; split <;> rfl
@[simp] theorem firstPull_freeCount : (s.firstPull).freeCount = s.freeCount := by unfold State.firstPull; split <;> rfl

/-! ### Channels through the operations -/

@[simp] theorem noteRead_chan (r : ReadRequest) (id : ChannelId) : (s.noteRead r).chan id = s.chan id := by simp [State.chan]
@[simp] theorem answer_chan (r : Result) (id : ChannelId) : (s.answer r).chan id = s.chan id := by simp [State.chan]
@[simp] theorem emit_chan (v : Half) (id : ChannelId) : (s.emit v).chan id = s.chan id := by simp [State.chan]
@[simp] theorem askDevice_chan (r : DeviceRequest) (id : ChannelId) : (s.askDevice r).chan id = s.chan id := by simp [State.chan]
@[simp] theorem closeDevice_chan (id : ChannelId) : (s.closeDevice).chan id = s.chan id := by simp [State.chan]
@[simp] theorem accept_chan (c : PortCommand) (rest : List Arrival) (id : ChannelId) : (s.accept c rest).chan id = s.chan id := by simp [State.chan]
@[simp] theorem platformStore_chan (x : Store) (rest : List Arrival) (id : ChannelId) : (s.platformStore x rest).chan id = s.chan id := by simp [State.chan]
@[simp] theorem noteSlotRead_chan (x : Nat) (id : ChannelId) : (s.noteSlotRead x).chan id = s.chan id := by simp [State.chan]
@[simp] theorem setSlot_chan (x : Nat) (v : Int) (id : ChannelId) : (s.setSlot x v).chan id = s.chan id := by simp [State.chan]
@[simp] theorem updateSlot_chan (x : Nat) (f : Int → Int) (id : ChannelId) : (s.updateSlot x f).chan id = s.chan id := by simp [State.chan]
@[simp] theorem platformTurn_chan (id : ChannelId) : (s.platformTurn).chan id = s.chan id := by simp [State.chan]
@[simp] theorem afterReadByte_chan (a : Word) (id : ChannelId) : (s.afterReadByte a).chan id = s.chan id := by simp [State.chan]
@[simp] theorem afterReadHalf_chan (a : Word) (id : ChannelId) : (s.afterReadHalf a).chan id = s.chan id := by simp [State.chan]
@[simp] theorem firstPull_chan (id : ChannelId) : (s.firstPull).chan id = s.chan id := by simp [State.chan]

@[simp] theorem chan_setChan_self (id : ChannelId) (c : Channel) : (s.setChan id c).chan id = c := by
  simp [State.chan, State.setChan]

theorem chan_setChan (id j : ChannelId) (c : Channel) :
    (s.setChan id c).chan j = if j = id then c else s.chan j := by
  by_cases h : j = id
  · subst h; simp
  · have h' : id.val ≠ j.val := fun e => h (Fin.ext e.symm)
    simp [State.chan, State.setChan, h, Vector.getElem_set_ne, h']

theorem chan_setChan_of_ne {id j : ChannelId} (c : Channel) (h : j ≠ id) :
    (s.setChan id c).chan j = s.chan j := by simp [chan_setChan, h]

/-! ### The fields that change -/

@[simp] theorem resetBlock_ls : s.resetBlock.ls = .uninit := rfl
@[simp] theorem resetBlock_acc : s.resetBlock.acc = [] := rfl
@[simp] theorem resetBlock_call : s.resetBlock.call = none := rfl
@[simp] theorem resetBlock_table : s.resetBlock.table = stepTable s.params := rfl
@[simp] theorem resetBlock_chan (id : ChannelId) : s.resetBlock.chan id = Channel.zero := by
  simp [State.chan, State.resetBlock]
@[simp] theorem powerOn_chan (p : Params) (id : ChannelId) : (State.powerOn p).chan id = Channel.zero := by
  simp [State.chan, State.powerOn]

@[simp] theorem accept_port (c : PortCommand) (rest : List Arrival) : (s.accept c rest).port = rest := rfl
@[simp] theorem accept_devOk (c : PortCommand) (rest : List Arrival) : (s.accept c rest).devOk = c.devOk := rfl
@[simp] theorem accept_resp (c : PortCommand) (rest : List Arrival) : (s.accept c rest).resp = Response.empty := rfl
@[simp] theorem platformStore_mem (x : Store) (rest : List Arrival) :
    (s.platformStore x rest).mem = s.mem.store x := rfl
@[simp] theorem platformStore_port (x : Store) (rest : List Arrival) : (s.platformStore x rest).port = rest := rfl

@[simp] theorem noteRead_reads (r : ReadRequest) : (s.noteRead r).resp.reads = s.resp.reads ++ [r] := rfl
@[simp] theorem noteRead_result (r : ReadRequest) : (s.noteRead r).resp.result = s.resp.result := rfl
@[simp] theorem noteRead_samples (r : ReadRequest) : (s.noteRead r).resp.samples = s.resp.samples := rfl
@[simp] theorem noteRead_device (r : ReadRequest) : (s.noteRead r).resp.device = s.resp.device := rfl
@[simp] theorem answer_result (r : Result) : (s.answer r).resp.result = some r := rfl
@[simp] theorem answer_samples (r : Result) : (s.answer r).resp.samples = s.resp.samples := rfl
@[simp] theorem answer_reads (r : Result) : (s.answer r).resp.reads = s.resp.reads := rfl
@[simp] theorem answer_device (r : Result) : (s.answer r).resp.device = s.resp.device := rfl
@[simp] theorem emit_samples (v : Half) : (s.emit v).resp.samples = s.resp.samples ++ [v] := rfl
@[simp] theorem emit_result (v : Half) : (s.emit v).resp.result = s.resp.result := rfl
@[simp] theorem emit_reads (v : Half) : (s.emit v).resp.reads = s.resp.reads := rfl
@[simp] theorem emit_device (v : Half) : (s.emit v).resp.device = s.resp.device := rfl
@[simp] theorem askDevice_device (r : DeviceRequest) : (s.askDevice r).resp.device = s.resp.device ++ [r] := rfl
@[simp] theorem askDevice_result (r : DeviceRequest) : (s.askDevice r).resp.result = s.resp.result := rfl
@[simp] theorem askDevice_samples (r : DeviceRequest) : (s.askDevice r).resp.samples = s.resp.samples := rfl
@[simp] theorem askDevice_reads (r : DeviceRequest) : (s.askDevice r).resp.reads = s.resp.reads := rfl

@[simp] theorem afterReadByte_reads (a : Word) :
    (s.afterReadByte a).resp.reads = s.resp.reads ++ [.byte a] := by simp [State.afterReadByte]
@[simp] theorem afterReadByte_result (a : Word) : (s.afterReadByte a).resp.result = s.resp.result := by
  simp [State.afterReadByte]
@[simp] theorem afterReadByte_samples (a : Word) : (s.afterReadByte a).resp.samples = s.resp.samples := by
  simp [State.afterReadByte]
@[simp] theorem afterReadByte_device (a : Word) : (s.afterReadByte a).resp.device = s.resp.device := by
  simp [State.afterReadByte]
@[simp] theorem afterReadByte_mem (a : Word) : (s.afterReadByte a).mem = s.platformTurn.mem := rfl
@[simp] theorem afterReadByte_liveStores (a : Word) : (s.afterReadByte a).liveStores = s.platformTurn.liveStores := rfl
@[simp] theorem afterReadHalf_reads (a : Word) :
    (s.afterReadHalf a).resp.reads = s.resp.reads ++ [.half a] := by simp [State.afterReadHalf]
@[simp] theorem afterReadHalf_result (a : Word) : (s.afterReadHalf a).resp.result = s.resp.result := by
  simp [State.afterReadHalf]
@[simp] theorem afterReadHalf_samples (a : Word) : (s.afterReadHalf a).resp.samples = s.resp.samples := by
  simp [State.afterReadHalf]
@[simp] theorem afterReadHalf_device (a : Word) : (s.afterReadHalf a).resp.device = s.resp.device := by
  simp [State.afterReadHalf]
@[simp] theorem afterReadHalf_mem (a : Word) : (s.afterReadHalf a).mem = s.platformTurn.mem := rfl
@[simp] theorem afterReadHalf_liveStores (a : Word) : (s.afterReadHalf a).liveStores = s.platformTurn.liveStores := rfl

end Sys2Proof.Machine
end

