-- ==== Sys2Proof/Laws/Ops.lean ====
section
/-! SUPPORT. What the shared operations over memory, mix-buffer slots and channels do, said once. -/

namespace Sys2Proof.Machine

/-! ### Sparse storage -/

section Sparse
variable {α : Type}

/-- Read after write, at every index and of every list. -/
theorem sparseGet_sparseSet (m : List (Nat × α)) (a c : Nat) (v : α) :
    sparseGet (sparseSet m a v) c = if c = a then some v else sparseGet m c := by
  by_cases h : c = a
  · subst h
    rw [if_pos rfl]
    induction m with
    | nil => simp [sparseSet, sparseGet]
    | cons x t ih =>
      unfold sparseSet
      split
      · simp [sparseGet]
      · split
        · simp [sparseGet]
        · rename_i hne
          simp [sparseGet, Ne.symm hne, ih]
  · rw [if_neg h]
    induction m with
    | nil => simp [sparseSet, sparseGet, Ne.symm h]
    | cons x t ih =>
      unfold sparseSet
      split
      · simp [sparseGet, Ne.symm h]
      · split
        · rename_i heq
          simp [sparseGet, Ne.symm h, ← heq]
        · simp [sparseGet, ih]

@[simp] theorem sparseGet_sparseSet_self (m : List (Nat × α)) (a : Nat) (v : α) :
    sparseGet (sparseSet m a v) a = some v := by simp [sparseGet_sparseSet]

theorem sparseGet_sparseSet_ne (m : List (Nat × α)) {a c : Nat} (v : α) (h : c ≠ a) :
    sparseGet (sparseSet m a v) c = sparseGet m c := by simp [sparseGet_sparseSet, h]

theorem mem_sparseSet {m : List (Nat × α)} {a : Nat} {v : α} {x : Nat × α}
    (h : x ∈ sparseSet m a v) : x = (a, v) ∨ x ∈ m := by
  induction m with
  | nil => simpa [sparseSet] using h
  | cons y t ih =>
    obtain ⟨b, w⟩ := y
    unfold sparseSet at h
    split at h
    · simpa using h
    · split at h
      · rcases List.mem_cons.mp h with h | h
        · exact .inl h
        · exact .inr (List.mem_cons_of_mem _ h)
      · rcases List.mem_cons.mp h with h | h
        · exact .inr (h ▸ List.mem_cons_self)
        · rcases ih h with h | h
          · exact .inl h
          · exact .inr (List.mem_cons_of_mem _ h)

/-- Every write keeps the canonical form. -/
theorem sparseSet_wf {bound : Nat} {m : List (Nat × α)} {a : Nat} (v : α) (h : SparseWf bound m) (ha : a < bound) :
    SparseWf bound (sparseSet m a v) := by
  refine ⟨?_, fun x hx => (mem_sparseSet hx).elim (fun e => e ▸ ha) (h.2 x)⟩
  obtain ⟨hs, -⟩ := h
  induction m with
  | nil => simp [sparseSet]
  | cons y t ih =>
    obtain ⟨b, w⟩ := y
    obtain ⟨hb, ht⟩ := List.pairwise_cons.mp hs
    unfold sparseSet
    split
    · rename_i hab
      refine List.pairwise_cons.mpr ⟨fun x hx => ?_, hs⟩
      rcases List.mem_cons.mp hx with rfl | hx
      · exact hab
      · exact Nat.lt_trans hab (hb x hx)
    · rename_i hab
      split
      · rename_i heq
        exact List.pairwise_cons.mpr ⟨fun x hx => heq ▸ hb x hx, ht⟩
      · rename_i hne
        refine List.pairwise_cons.mpr ⟨fun x hx => ?_, ih ht⟩
        rcases mem_sparseSet hx with rfl | hx
        · show b < a
          omega
        · exact hb x hx

end Sparse

/-! ### The Memory Source -/

theorem Memory.store_wf {m : Memory} (x : Store) (h : m.wf) : (m.store x).wf :=
  sparseSet_wf _ h x.addr.isLt

theorem Memory.storeAll_wf {m : Memory} (xs : List Store) (h : m.wf) : (m.storeAll xs).wf := by
  induction xs generalizing m with
  | nil => exact h
  | cons x t ih => exact ih (Memory.store_wf x h)

/-- What one platform turn can do (20_memory.md R74). -/
theorem platformTurn_cases (s : State) :
    s.platformTurn = s ∨
      (s.params.memStable = false ∧ ∃ xs rest, s.liveStores = xs :: rest ∧
        s.platformTurn = { s with mem := s.mem.storeAll xs, liveStores := rest }) := by
  unfold State.platformTurn
  split
  · exact .inl rfl
  · rename_i h
    split
    · exact .inl rfl
    · rename_i xs rest e
      exact .inr ⟨by simpa using h, xs, rest, e, rfl⟩

theorem platformTurn_of_stable {s : State} (h : s.params.memStable = true) : s.platformTurn = s := by
  simp [State.platformTurn, h]

/-- With a stable Memory Source a byte read returns the image's byte and changes the output ports only. -/
theorem readByte_of_stable {s : State} (h : s.params.memStable = true) (a : Word) :
    s.readByte a = s.mem.read a ∧ s.afterReadByte a = s.noteRead (.byte a) := by
  simp [State.readByte, State.afterReadByte, platformTurn_of_stable h]

theorem readHalf_of_stable {s : State} (h : s.params.memStable = true) (a : Word) :
    s.readHalf a = s.mem.readHalf a ∧ s.afterReadHalf a = s.noteRead (.half a) := by
  simp [State.readHalf, State.afterReadHalf, platformTurn_of_stable h]

/-- The little-endian halfword as a number (20_memory.md R63, R64). -/
theorem Memory.readHalf_toNat (m : Memory) (a : Word) :
    (m.readHalf a).toNat = (m.read (a + 1)).toNat * 256 + (m.read a).toNat := by
  have := (m.read a).isLt
  simp only [Memory.readHalf, BitVec.toNat_append]
  rw [Nat.shiftLeft_eq, Nat.mul_comm, ← Nat.two_pow_add_eq_or_of_lt this]

/-! ### Slots -/

@[simp] theorem noteSlotRead_of_some {s : State} {x : Nat} {v : Word} (h : sparseGet s.acc x = some v) :
    s.noteSlotRead x = s := by simp [State.noteSlotRead, h]

theorem slot_of_some {s : State} {x : Nat} {v : Word} (h : sparseGet s.acc x = some v) : s.slot x = v.toInt := by
  simp [State.slot, h]

/-- A slot always reads as an `i32`, a free one included. -/
theorem slot_bounds (s : State) (x : Nat) : -2147483648 ≤ s.slot x ∧ s.slot x ≤ 2147483647 := by
  have h1 := BitVec.le_toInt ((sparseGet s.acc x).getD (Config.freeSlot s.freeCount))
  have h2 := BitVec.toInt_lt (x := (sparseGet s.acc x).getD (Config.freeSlot s.freeCount))
  simp only [State.slot]
  omega

theorem fitsI32_iff {v : Int} : fitsI32 v = true ↔ -2147483648 ≤ v ∧ v ≤ 2147483647 := by simp [fitsI32]

theorem toInt_ofInt_of_fits {v : Int} (h : fitsI32 v = true) : (BitVec.ofInt 32 v).toInt = v := by
  obtain ⟨h1, h2⟩ := fitsI32_iff.mp h
  rw [BitVec.toInt_ofInt]
  unfold Int.bmod
  simp only [Nat.reducePow, Nat.cast_ofNat]
  omega

/-- Writing a slot with an `i32` value: that slot holds it, no other slot and no free value is touched. -/
theorem setSlot_of_fits {s : State} {x : Nat} {v : Int} (h : fitsI32 v = true) :
    s.setSlot x v = { s with acc := sparseSet s.acc x (BitVec.ofInt 32 v) } := by
  simp [State.setSlot, h]

/-- What a slot write does to the listing of the slots. -/
theorem setSlot_acc (s : State) (x y : Nat) (v : Int) :
    sparseGet (s.setSlot x v).acc y =
      if y = x then some (if fitsI32 v then BitVec.ofInt 32 v else Config.freeSlot s.freeCount)
      else sparseGet s.acc y := by
  unfold State.setSlot
  split <;> simp_all [sparseGet_sparseSet]

theorem setSlot_acc_ne (s : State) {x y : Nat} (v : Int) (h : y ≠ x) :
    sparseGet (s.setSlot x v).acc y = sparseGet s.acc y := by simp [setSlot_acc, h]

theorem updateSlot_acc_ne (s : State) {x y : Nat} (f : Int → Int) (h : y ≠ x) :
    sparseGet (s.updateSlot x f).acc y = sparseGet s.acc y := by simp [State.updateSlot, setSlot_acc, h]

/-- A slot update always leaves the slot written. -/
theorem updateSlot_acc_self (s : State) (x : Nat) (f : Int → Int) :
    ∃ v, sparseGet (s.updateSlot x f).acc x = some v ∧ (fitsI32 (f (s.slot x)) = true → v.toInt = f (s.slot x)) := by
  refine ⟨_, (setSlot_acc _ _ _ _).trans (if_pos rfl), fun h => ?_⟩
  rw [if_pos h, toInt_ofInt_of_fits h]

/-- What each slot operation changes: the slots and the count of free values. -/
theorem noteSlotRead_eq (s : State) (x : Nat) : ∃ k, s.noteSlotRead x = { s with freeCount := k } := by
  unfold State.noteSlotRead
  split
  · exact ⟨s.freeCount, rfl⟩
  · exact ⟨_, rfl⟩

theorem setSlot_eq (s : State) (x : Nat) (v : Int) : ∃ a k, s.setSlot x v = { s with acc := a, freeCount := k } := by
  unfold State.setSlot
  split
  · exact ⟨_, s.freeCount, rfl⟩
  · exact ⟨_, _, rfl⟩

theorem updateSlot_eq (s : State) (x : Nat) (f : Int → Int) :
    ∃ a k, s.updateSlot x f = { s with acc := a, freeCount := k } := by
  unfold State.updateSlot
  obtain ⟨k, e⟩ := noteSlotRead_eq s x
  rw [e]
  obtain ⟨a, k', e'⟩ := setSlot_eq { s with freeCount := k } x (f (s.slot x))
  exact ⟨a, k', e'⟩

@[simp] theorem slot_afterReadByte (s : State) (p : Word) (x : Nat) : (s.afterReadByte p).slot x = s.slot x := by
  simp [State.slot]

@[simp] theorem slot_afterReadHalf (s : State) (p : Word) (x : Nat) : (s.afterReadHalf p).slot x = s.slot x := by
  simp [State.slot]

theorem slot_setSlot_of_fits {s : State} {x : Nat} {v : Int} (h : fitsI32 v = true) : (s.setSlot x v).slot x = v := by
  simp [setSlot_of_fits h, State.slot, toInt_ofInt_of_fits h]

/-- A slot updated with an `i32` result holds it. -/
theorem slot_updateSlot_of_fits {s : State} {x : Nat} {f : Int → Int} (h : fitsI32 (f (s.slot x)) = true) :
    (s.updateSlot x f).slot x = f (s.slot x) := by
  unfold State.updateSlot
  exact slot_setSlot_of_fits h

/-- Updating a written slot with an `i32` result uses no free value. -/
theorem updateSlot_of_written {s : State} {x : Nat} {v : Word} {f : Int → Int} (hv : sparseGet s.acc x = some v)
    (hf : fitsI32 (f v.toInt) = true) :
    s.updateSlot x f = { s with acc := sparseSet s.acc x (BitVec.ofInt 32 (f v.toInt)) } := by
  simp [State.updateSlot, hv, slot_of_some hv, setSlot_of_fits hf]

theorem setSlot_wf {bound : Nat} {s : State} {x : Nat} (v : Int) (h : SparseWf bound s.acc) (hx : x < bound) :
    SparseWf bound (s.setSlot x v).acc := by
  unfold State.setSlot
  split <;> exact sparseSet_wf _ h hx

theorem updateSlot_wf {bound : Nat} {s : State} {x : Nat} (f : Int → Int) (h : SparseWf bound s.acc) (hx : x < bound) :
    SparseWf bound (s.updateSlot x f).acc := setSlot_wf _ (by simpa using h) hx

end Sys2Proof.Machine
end

