-- ==== Sys2Proof/Laws/Arith.lean ====
section
/-! SUPPORT. The exact arithmetic: truncation toward zero, the composite volume, and the bounds they give. -/

namespace Sys2Proof.Machine

/-! ### Truncation (00_scope.md R9) -/

theorem trunc_neg (q : Rat) : trunc (-q) = -trunc q := by simp [trunc, Int.neg_tdiv]

theorem trunc_of_nonneg {q : Rat} (h : 0 ≤ q) : trunc q = ⌊q⌋ := by
  rw [trunc, Rat.floor_def', Int.tdiv_eq_ediv_of_nonneg (Rat.num_nonneg.mpr h)]

@[simp] theorem trunc_intCast (n : Int) : trunc (n : Rat) = n := by simp [trunc]

@[simp] theorem trunc_zero : trunc 0 = 0 := by simpa using trunc_intCast 0

/-- Truncation of a fraction is the truncating division. -/
theorem trunc_div (n : Int) (d : Nat) : trunc ((n : Rat) / (d : Rat)) = n.tdiv d := by
  have pos : ∀ m : Int, 0 ≤ m → trunc ((m : Rat) / (d : Rat)) = m.tdiv d := fun m hm => by
    rw [trunc_of_nonneg (by positivity), Rat.floor_intCast_div_natCast, Int.tdiv_eq_ediv_of_nonneg hm]
  rcases le_total 0 n with h | h
  · exact pos n h
  · have := pos (-n) (by omega)
    rw [Int.neg_tdiv] at this
    rw [← neg_inj, ← this, ← trunc_neg]
    congr 1
    push_cast
    ring

theorem trunc_mono {p q : Rat} (h : p ≤ q) : trunc p ≤ trunc q := by
  have nonpos : ∀ r : Rat, r ≤ 0 → trunc r = -⌊-r⌋ := fun r hr => by
    rw [← trunc_of_nonneg (by linarith), trunc_neg, neg_neg]
  rcases le_total 0 p with hp | hp
  · rw [trunc_of_nonneg hp, trunc_of_nonneg (hp.trans h)]
    exact Int.floor_le_floor h
  · rcases le_total 0 q with hq | hq
    · rw [nonpos p hp, trunc_of_nonneg hq]
      have := Int.floor_nonneg.mpr hq
      have := Int.floor_nonneg.mpr (show (0 : Rat) ≤ -p by linarith)
      omega
    · rw [nonpos p hp, nonpos q hq]
      exact neg_le_neg (Int.floor_le_floor (by linarith))

theorem le_trunc {n : Int} {q : Rat} (h : (n : Rat) ≤ q) : n ≤ trunc q := by
  simpa using trunc_mono h

theorem trunc_le {n : Int} {q : Rat} (h : q ≤ (n : Rat)) : trunc q ≤ n := by
  simpa using trunc_mono h

/-! ### The composite volume (43_volume.md R170 to R172) -/

theorem compositeVolume_eq (c : Channel) (e : Engine) :
    compositeVolume c e =
      ((c.volume.toNat * e.mainVolume.toNat * e.channelMasterVolume.toNat : Nat) : Rat) / ((2064512 : Nat) : Rat) := by
  unfold compositeVolume
  by_cases h : c.volume = 0
  · simp [h]
  · simp only [if_neg h]
    push_cast
    ring

theorem compositeVolume_nonneg (c : Channel) (e : Engine) : 0 ≤ compositeVolume c e := by
  rw [compositeVolume_eq]
  positivity

theorem volumeProduct_le {c : Channel} {e : Engine} (h : e.channelMasterVolume.toNat ≤ 128) :
    c.volume.toNat * e.mainVolume.toNat * e.channelMasterVolume.toNat ≤ 2064512 := by
  have h1 : c.volume.toNat ≤ 127 := by have := c.volume.isLt; omega
  have h2 : e.mainVolume.toNat ≤ 127 := by have := e.mainVolume.isLt; omega
  calc _ ≤ 127 * 127 * 128 := Nat.mul_le_mul (Nat.mul_le_mul h1 h2) h
    _ = 2064512 := by norm_num

theorem compositeVolume_le_one {c : Channel} {e : Engine} (h : e.channelMasterVolume.toNat ≤ 128) :
    compositeVolume c e ≤ 1 := by
  rw [compositeVolume_eq, div_le_one (by norm_num)]
  exact_mod_cast volumeProduct_le h

theorem silenceValue_eq (c : Channel) (e : Engine) :
    silenceValue (compositeVolume c e) =
      ((-(256 * c.volume.toNat * e.mainVolume.toNat * e.channelMasterVolume.toNat : Int) : Int) : Rat) / ((16129 : Nat) : Rat) := by
  rw [silenceValue, compositeVolume_eq]
  push_cast
  ring

/-! ### Slot arithmetic: the bounds of 43_volume.md R173, R175 -/

/-- Scaling by a volume in 0..1 keeps a value between bounds that enclose 0. -/
theorem volScale_bounds {vol : Rat} {s a lo hi : Int} (h0 : 0 ≤ vol) (h1 : vol ≤ 1) (hlo : lo ≤ 0) (hhi : 0 ≤ hi)
    (hl : lo ≤ a + s) (hh : a + s ≤ hi) : lo ≤ volScale vol s a ∧ volScale vol s a ≤ hi := by
  have hl' : (lo : Rat) ≤ ((a + s : Int) : Rat) := by exact_mod_cast hl
  have hh' : ((a + s : Int) : Rat) ≤ (hi : Rat) := by exact_mod_cast hh
  have hlo' : (lo : Rat) ≤ 0 := by exact_mod_cast hlo
  have hhi' : (0 : Rat) ≤ (hi : Rat) := by exact_mod_cast hhi
  refine ⟨le_trunc ?_, trunc_le ?_⟩ <;> nlinarith

theorem addSilence_bounds {sil : Rat} {a lo hi : Int} (h0 : -32768 ≤ sil) (h1 : sil ≤ 0)
    (hl : lo ≤ a) (hh : a ≤ hi) : lo - 32768 ≤ addSilence sil a ∧ addSilence sil a ≤ hi := by
  have hl' : (lo : Rat) ≤ (a : Rat) := by exact_mod_cast hl
  have hh' : (a : Rat) ≤ (hi : Rat) := by exact_mod_cast hh
  refine ⟨le_trunc ?_, trunc_le ?_⟩
  · push_cast
    linarith
  · linarith

theorem silenceValue_bounds {vol : Rat} (h0 : 0 ≤ vol) (h1 : vol ≤ 1) :
    -32768 ≤ silenceValue vol ∧ silenceValue vol ≤ 0 := by
  unfold silenceValue
  constructor <;> linarith

/-! ### Signed samples (20_memory.md R66) -/

theorem byteSample_bounds (b : Byte) : -32768 ≤ b.toInt * 256 ∧ b.toInt * 256 ≤ 32512 := by
  have h1 := BitVec.le_toInt b
  have h2 := BitVec.toInt_lt (x := b)
  norm_num at h1 h2
  omega

theorem halfSample_bounds (h : Half) : -32768 ≤ h.toInt ∧ h.toInt ≤ 32767 := by
  have h1 := BitVec.le_toInt h
  have h2 := BitVec.toInt_lt (x := h)
  norm_num at h1 h2
  omega

/-! ### Positions -/

@[simp] theorem advance_zero (pos : Word) (ratio : Rat) : advance pos ratio 0 = pos := by
  simp [advance]

/-- The even forcing clears bit 0 and nothing else (20_memory.md R65). -/
theorem evenAddr_toNat (a : Word) : (evenAddr a).toNat = a.toNat / 2 * 2 := by
  have h : evenAddr a = (a >>> 1) <<< 1 := by
    apply BitVec.eq_of_getLsbD_eq
    intro i hi
    interval_cases i <;> simp [evenAddr]
  rw [h]
  have := a.isLt
  simp [BitVec.toNat_shiftLeft, BitVec.toNat_ushiftRight, Nat.shiftRight_eq_div_pow, Nat.shiftLeft_eq]
  omega

/-! ### Downmix (44_mixer.md R188, R189) -/

/-- Division by 16 truncating toward zero, bounded. -/
theorem tdiv16_bounds {a : Int} (h1 : -524288 ≤ a) (h2 : a ≤ 524287) : -32768 ≤ a.tdiv 16 ∧ a.tdiv 16 ≤ 32767 := by
  rcases le_total 0 a with h | h
  · rw [Int.tdiv_eq_ediv_of_nonneg h]
    omega
  · have e : a.tdiv 16 = -((-a) / 16) := by
      rw [← Int.tdiv_eq_ediv_of_nonneg (by omega), Int.neg_tdiv, neg_neg]
    omega

/-- Within the range a MIX keeps, narrowing loses nothing. -/
theorem downmix_toInt {a : Int} (h1 : -524288 ≤ a) (h2 : a ≤ 524287) : (downmix a).toInt = a.tdiv 16 := by
  obtain ⟨hlo, hhi⟩ := tdiv16_bounds h1 h2
  rw [downmix, BitVec.toInt_ofInt]
  unfold Int.bmod
  simp only [Nat.reducePow, Nat.cast_ofNat]
  omega

end Sys2Proof.Machine
end

