-- ==== Sys2Proof/Laws/Decode.lean ====
section
/-! SUPPORT. The fields of a command word: what the encoder writes is what the decoder reads. -/

namespace Sys2Proof

/-- The two halves of a command word. -/
theorem decode_commandWord (op : BitVec 4) (operand : BitVec 28) (arg : Dword) :
    decode (commandWord op operand) arg = decodeOp op operand arg := by
  have h1 : (commandWord op operand).extractLsb' 28 4 = op := by
    apply BitVec.eq_of_getLsbD_eq
    intro i hi
    rw [BitVec.getLsbD_extractLsb', commandWord, BitVec.getLsbD_append]
    simp [hi]
  have h2 : (commandWord op operand).extractLsb' 0 28 = operand := by
    apply BitVec.eq_of_getLsbD_eq
    intro i hi
    rw [BitVec.getLsbD_extractLsb', commandWord, BitVec.getLsbD_append]
    simp [hi]
  rw [decode, h1, h2]

/-- The opcode of a command word as a number. -/
theorem opcode_toNat (w : Word) : (w.extractLsb' 28 4).toNat = w.toNat / 2 ^ 28 := by
  have := w.isLt
  rw [BitVec.extractLsb'_toNat, Nat.shiftRight_eq_div_pow]
  omega

/-- A command word of a known opcode. -/
theorem decode_of_opcode {w : Word} {op : BitVec 4} (h : w.toNat / 2 ^ 28 = op.toNat) (arg : Dword) :
    decode w arg = decodeOp op (w.extractLsb' 0 28) arg := by
  have e : w.extractLsb' 28 4 = op := BitVec.eq_of_toNat_eq ((opcode_toNat w).trans h)
  rw [decode, e]

/-- A field of the operand is the field of the command word. -/
theorem operand_field (w : Word) {lo len : Nat} (h : lo + len ≤ 28) :
    (w.extractLsb' 0 28).extractLsb' lo len = w.extractLsb' lo len := by
  apply BitVec.eq_of_getLsbD_eq
  intro i hi
  simp [hi, show lo + i < 28 by omega]

theorem field_toNat (w : Word) (lo len : Nat) : (w.extractLsb' lo len).toNat = w.toNat / 2 ^ lo % 2 ^ len := by
  rw [BitVec.extractLsb'_toNat, Nat.shiftRight_eq_div_pow]

/-- Words that agree under a mask agree in every field the mask covers. -/
theorem field_of_and {w w' m : Word} (h : w &&& m = w' &&& m) (lo len : Nat)
    (hm : ∀ i, i < len → m.getLsbD (lo + i) = true) : w.extractLsb' lo len = w'.extractLsb' lo len := by
  apply BitVec.eq_of_getLsbD_eq
  intro i hi
  have := congrArg (fun v => BitVec.getLsbD v (lo + i)) h
  simp only [BitVec.getLsbD_and, hm i hi, Bool.and_true] at this
  simp [hi, this]

/-- A two-bit field of a control word by its bits. -/
theorem selector_toNat (w : Word) (lo : Nat) :
    (w.extractLsb' lo 2).toNat = (w.getLsbD lo).toNat + 2 * (w.getLsbD (lo + 1)).toNat := by
  have : w.extractLsb' lo 2 = BitVec.ofBool (w.getLsbD (lo + 1)) ++ BitVec.ofBool (w.getLsbD lo) := by
    apply BitVec.eq_of_getLsbD_eq
    intro i hi
    rw [BitVec.getLsbD_append, BitVec.getLsbD_extractLsb']
    interval_cases i <;> simp
  rw [this]
  cases w.getLsbD lo <;> cases w.getLsbD (lo + 1) <;> rfl

/-- The value of a field of an operand that is given as a number. -/
theorem field_ofNat (k lo len : Nat) : ((BitVec.ofNat 28 k).extractLsb' lo len).toNat = k % 2 ^ 28 / 2 ^ lo % 2 ^ len := by
  simp [BitVec.extractLsb'_toNat, Nat.shiftRight_eq_div_pow]

/-- A 9-bit register index survives the operand of WR and RD. -/
theorem index_of_operand (r : BitVec 9) : (BitVec.ofNat 28 r.toNat).extractLsb' 0 9 = r := by
  apply BitVec.eq_of_toNat_eq
  rw [field_ofNat]
  have := r.isLt
  omega

/-- Register indices decode to the register they were made from. -/
theorem ofIndex_index (r : Reg) (h : r.wf = true) : Reg.ofIndex r.index = r := by
  cases r with
  | ch id f =>
    revert id
    cases f <;> decide
  | eng e => cases e <;> decide
  | reserved r =>
    revert r
    decide +kernel

theorem ofIndex_wf (r : BitVec 9) : (Reg.ofIndex r).wf = true := by
  revert r
  decide +kernel

end Sys2Proof
end

