-- ==== Sys2Proof/Laws/Generator.lean ====
section
/-! SUPPORT. What one index of GEN, one GEN and its steps can do, said once: the induction principles `genIndex_state` and
`gen_state`, the frame of GEN, the effect on a slot, and the state that no step of it reads. -/

namespace Sys2Proof.Machine

/-! ### The transient state -/

section Start
variable (id : ChannelId) (s : State)

@[simp] theorem start_id : (GenCall.start id s).id = id := rfl
@[simp] theorem start_ratio : (GenCall.start id s).ratio = sampleRatio (s.chan id) s.eng := rfl
@[simp] theorem start_vol : (GenCall.start id s).vol = compositeVolume (s.chan id) s.eng := rfl
@[simp] theorem start_sil : (GenCall.start id s).sil = silenceValue (compositeVolume (s.chan id) s.eng) := rfl
@[simp] theorem start_fmt : (GenCall.start id s).fmt = decodeFmt (s.chan id).cnt := rfl
@[simp] theorem start_lm : (GenCall.start id s).lm = decodeLoopMode (s.chan id).cnt := rfl
@[simp] theorem start_played : (GenCall.start id s).played = 0 := rfl

end Start

/-- The transient values that are computed once per call (10_state.md R39). -/
structure SameCall (c d : GenCall) : Prop where
  id : d.id = c.id
  ratio : d.ratio = c.ratio
  vol : d.vol = c.vol
  sil : d.sil = c.sil
  fmt : d.fmt = c.fmt
  lm : d.lm = c.lm

theorem SameCall.refl (c : GenCall) : SameCall c c := ⟨rfl, rfl, rfl, rfl, rfl, rfl⟩

theorem SameCall.trans {a b c : GenCall} (h : SameCall a b) (k : SameCall b c) : SameCall a c :=
  ⟨k.id.trans h.id, k.ratio.trans h.ratio, k.vol.trans h.vol, k.sil.trans h.sil, k.fmt.trans h.fmt, k.lm.trans h.lm⟩

theorem zseed_call (r : Run) : (zseed r).1 = r.1 := by unfold zseed; split <;> rfl

/-- ZSEED at an index. -/
theorem zseed_eq (x : Nat) (r : Run) :
    zseed ({ r.1 with x := x }, r.2) =
      ({ r.1 with x := x }, if r.1.id = 0 then r.2.setSlot x 0 else r.2) := by
  unfold zseed
  dsimp only
  split <;> rfl

/-- A sample micro-operation changes `addr` of the call and nothing else. -/
theorem sampleOp_call (fmt : Fmt) (r : Run) : ∃ a, (sampleOp fmt r).1 = { r.1 with addr := a } := by
  cases fmt
  · exact ⟨r.1.addr, rfl⟩
  · exact ⟨evenAddr r.1.addr, rfl⟩
  · exact ⟨r.1.addr, rfl⟩
  · exact ⟨r.1.addr, rfl⟩

theorem boundaryOp_call (lm : LoopMode) (r : Run) : (boundaryOp lm r).1 = r.1 := by
  cases lm <;> simp only [boundaryOp, bndNone, bndRsvd, bndStop, Run.mapChan]
  unfold bndLoop
  split <;> rfl

theorem atBoundary_call (r : Run) : (atBoundary r).1 = r.1 := by
  unfold atBoundary
  split
  · exact boundaryOp_call _ _
  · rfl

theorem playIndex_call (r : Run) :
    ∃ a, (playIndex r).1 = { r.1 with addr := a, played := r.1.played + 1 } := by
  obtain ⟨a, h⟩ := sampleOp_call r.1.fmt (withAddr r)
  refine ⟨a, ?_⟩
  simp only [playIndex, countPlayed, atBoundary_call, h]
  rfl

theorem genIndex_sameCall (x : Nat) (r : Run) : SameCall r.1 (genIndex x r).1 := by
  have hz := zseed_call ({ r.1 with x := x }, r.2)
  unfold genIndex
  dsimp only
  split
  · obtain ⟨a, h⟩ := playIndex_call (zseed ({ r.1 with x := x }, r.2))
    rw [h, hz]
    exact ⟨rfl, rfl, rfl, rfl, rfl, rfl⟩
  · simp only [smpSil, addSil, hz]
    exact ⟨rfl, rfl, rfl, rfl, rfl, rfl⟩

theorem genUpto_sameCall (n : Nat) (r : Run) : SameCall r.1 (genUpto n r).1 := by
  induction n with
  | zero => exact .refl _
  | succ n ih => exact ih.trans (genIndex_sameCall n _)

@[simp] theorem genUpto_id (n : Nat) (r : Run) : (genUpto n r).1.id = r.1.id := (genUpto_sameCall n r).id
@[simp] theorem genUpto_fmt (n : Nat) (r : Run) : (genUpto n r).1.fmt = r.1.fmt := (genUpto_sameCall n r).fmt
@[simp] theorem genUpto_lm (n : Nat) (r : Run) : (genUpto n r).1.lm = r.1.lm := (genUpto_sameCall n r).lm
@[simp] theorem genUpto_ratio (n : Nat) (r : Run) : (genUpto n r).1.ratio = r.1.ratio := (genUpto_sameCall n r).ratio
@[simp] theorem genUpto_vol (n : Nat) (r : Run) : (genUpto n r).1.vol = r.1.vol := (genUpto_sameCall n r).vol
@[simp] theorem genUpto_sil (n : Nat) (r : Run) : (genUpto n r).1.sil = r.1.sil := (genUpto_sameCall n r).sil

/-! ### Induction over what GEN does to the state -/

theorem zseed_state {P : State → Prop} {r : Run} (h : P r.2) (write : ∀ s v, P s → P (s.setSlot r.1.x v)) :
    P (zseed r).2 := by
  unfold zseed
  split
  · exact write r.2 0 h
  · exact h

/-- Every change a sample micro-operation makes to the state is a read at the Memory Source and an update of slot x. -/
theorem sampleOp_state {P : State → Prop} {fmt : Fmt} {r : Run} (h : P r.2)
    (readByte : ∀ s a, P s → P (s.afterReadByte a)) (readHalf : ∀ s a, P s → P (s.afterReadHalf a))
    (update : ∀ s f, P s → P (s.updateSlot r.1.x f)) : P (sampleOp fmt r).2 := by
  cases fmt
  · exact update _ _ (readByte _ _ h)
  · exact update _ _ (readHalf _ _ h)
  · exact update _ _ h
  · exact update _ _ h

/-- Every change a boundary micro-operation makes to the state is a reload or a stop of the call's channel. -/
theorem boundaryOp_state {P : State → Prop} {lm : LoopMode} {r : Run} (h : P r.2)
    (reload : ∀ u, lm = .loop → loopUnit r.1.fmt = some u → P (r.2.setChan r.1.id (loopReload u (r.2.chan r.1.id))))
    (stop : lm = .stop → P (r.2.setChan r.1.id (stopFlags (r.2.chan r.1.id)))) : P (boundaryOp lm r).2 := by
  cases lm
  · exact h
  · show P (bndLoop r).2
    unfold bndLoop
    split
    · rename_i u hu
      exact reload u rfl hu
    · exact h
  · exact stop rfl
  · exact h

/-- A predicate on states that every elementary change of one index keeps is kept by the index. -/
theorem genIndex_state {P : State → Prop} {x : Nat} {r : Run} (h : P r.2)
    (readByte : ∀ s a, P s → P (s.afterReadByte a)) (readHalf : ∀ s a, P s → P (s.afterReadHalf a))
    (write : ∀ s v, P s → P (s.setSlot x v)) (update : ∀ s f, P s → P (s.updateSlot x f))
    (reload : ∀ s u, r.1.lm = .loop → loopUnit r.1.fmt = some u → P s →
      P (s.setChan r.1.id (loopReload u (s.chan r.1.id))))
    (stop : ∀ s, r.1.lm = .stop → P s → P (s.setChan r.1.id (stopFlags (s.chan r.1.id)))) :
    P (genIndex x r).2 := by
  have hz : P (zseed ({ r.1 with x := x }, r.2)).2 := zseed_state h write
  have hc := zseed_call ({ r.1 with x := x }, r.2)
  unfold genIndex
  dsimp only
  generalize zseed ({ r.1 with x := x }, r.2) = q at hz hc
  obtain ⟨c, s⟩ := q
  subst hc
  split
  · have hs : P (sampleOp r.1.fmt (withAddr ({ r.1 with x := x }, s))).2 :=
      sampleOp_state hz readByte readHalf update
    obtain ⟨a, ha⟩ := sampleOp_call r.1.fmt (withAddr ({ r.1 with x := x }, s))
    show P (atBoundary (sampleOp r.1.fmt (withAddr ({ r.1 with x := x }, s)))).2
    generalize sampleOp r.1.fmt (withAddr ({ r.1 with x := x }, s)) = q at hs ha
    obtain ⟨c', s'⟩ := q
    subst ha
    unfold atBoundary
    split
    · exact boundaryOp_state hs (fun u hl hu => reload _ u hl hu hs) (fun hl => stop _ hl hs)
    · exact hs
  · exact update _ _ hz

/-- A predicate on states that every elementary change of a GEN call keeps is kept by the call. -/
theorem genUpto_state {P : State → Prop} {n : Nat} {r : Run} (h : P r.2)
    (readByte : ∀ s a, P s → P (s.afterReadByte a)) (readHalf : ∀ s a, P s → P (s.afterReadHalf a))
    (write : ∀ s x v, x < n → P s → P (s.setSlot x v)) (update : ∀ s x f, x < n → P s → P (s.updateSlot x f))
    (reload : ∀ s u, r.1.lm = .loop → loopUnit r.1.fmt = some u → P s →
      P (s.setChan r.1.id (loopReload u (s.chan r.1.id))))
    (stop : ∀ s, r.1.lm = .stop → P s → P (s.setChan r.1.id (stopFlags (s.chan r.1.id)))) :
    P (genUpto n r).2 := by
  induction n with
  | zero => exact h
  | succ n ih =>
    refine genIndex_state
      (ih (fun s x v hx => write s x v (by omega)) (fun s x f hx => update s x f (by omega)))
      readByte readHalf (fun s v => write s n v (by omega)) (fun s f => update s n f (by omega)) ?_ ?_
    · simpa using reload
    · simpa using stop

/-- POS.ADV changes `data_pos` of the call's channel and nothing else. -/
theorem posAdv_eq (r : Run) :
    posAdv r = (r.1, r.2.setChan r.1.id { r.2.chan r.1.id with
      dataPos := if r.1.fmt = .pcm16 then evenAddr (advance (r.2.chan r.1.id).dataPos r.1.ratio r.1.played)
        else advance (r.2.chan r.1.id).dataPos r.1.ratio r.1.played }) := rfl

/-- A predicate on states that every elementary change of GEN keeps is kept by GEN. -/
theorem gen_state {P : State → Prop} {id : ChannelId} {n : Nat} {s : State} (h : P s)
    (readByte : ∀ s a, P s → P (s.afterReadByte a)) (readHalf : ∀ s a, P s → P (s.afterReadHalf a))
    (write : ∀ s x v, x < n → P s → P (s.setSlot x v)) (update : ∀ s x f, x < n → P s → P (s.updateSlot x f))
    (reload : ∀ t u, decodeLoopMode (s.chan id).cnt = .loop → loopUnit (decodeFmt (s.chan id).cnt) = some u → P t →
      P (t.setChan id (loopReload u (t.chan id))))
    (stop : ∀ t, decodeLoopMode (s.chan id).cnt = .stop → P t → P (t.setChan id (stopFlags (t.chan id))))
    (move : ∀ t p, P t → P (t.setChan id { t.chan id with dataPos := p }))
    (done : ∀ t, P t → P { t with call := none }) : P (gen id n s) := by
  have hu : P (genUpto n (GenCall.start id s, s)).2 :=
    genUpto_state h readByte readHalf write update reload stop
  refine done _ ?_
  rw [posAdv_eq]
  simpa using move _ _ hu

/-! ### Platform turns -/

theorem PlatformOnly.refl (s : State) : PlatformOnly s s := ⟨0, rfl, rfl, fun _ => rfl⟩

theorem PlatformOnly.turn {s t : State} (hp : t.params = s.params) (h : PlatformOnly s t) :
    PlatformOnly s t.platformTurn := by
  obtain ⟨k, hl, hm, hs⟩ := h
  rcases platformTurn_cases t with e | ⟨hu, xs, rest, hx, e⟩
  · rw [e]
    exact ⟨k, hl, hm, hs⟩
  · refine ⟨k + 1, ?_, ?_, fun h' => ?_⟩
    · rw [e]
      show rest = _
      rw [← List.drop_drop, ← hl, hx]
      rfl
    · rw [e]
      show t.mem.storeAll xs = _
      have hget : s.liveStores[k]? = some xs := by
        have := congrArg (·[0]?) (hl.symm.trans hx)
        simpa using this
      rw [List.take_add_one, hget, hm]
      simp
    · rw [hp, h'] at hu
      cases hu

theorem PlatformOnly.congr {s t u : State} (h : PlatformOnly s t) (hm : u.mem = t.mem)
    (hl : u.liveStores = t.liveStores) : PlatformOnly s u := by
  obtain ⟨k, h1, h2, h3⟩ := h
  exact ⟨k, hl.trans h1, hm.trans h2, h3⟩

theorem PlatformOnly.trans {s t u : State} (hp : t.params = s.params) (h : PlatformOnly s t)
    (k : PlatformOnly t u) : PlatformOnly s u := by
  obtain ⟨a, h1, h2, h3⟩ := h
  obtain ⟨b, k1, k2, k3⟩ := k
  refine ⟨a + b, ?_, ?_, fun hs => ?_⟩
  · rw [k1, h1, List.drop_drop]
  · rw [k2, h1, h2, List.take_add, List.foldl_append]
  · rw [h3 hs, k3 (hp ▸ hs)]

theorem PlatformOnly.mem_of_stable {s t : State} (h : PlatformOnly s t) (hs : s.params.memStable = true) :
    t.mem = s.mem ∧ t.liveStores = s.liveStores := by
  obtain ⟨k, h1, h2, h3⟩ := h
  rw [h3 hs] at h1 h2
  exact ⟨by simpa using h2, by simpa using h1⟩

theorem foldl_storeAll_wf {m : Memory} (xs : List (List Store)) (h : m.wf) : (xs.foldl Memory.storeAll m).wf := by
  induction xs generalizing m with
  | nil => exact h
  | cons x t ih => exact ih (Memory.storeAll_wf x h)

theorem PlatformOnly.wf {s t : State} (h : PlatformOnly s t) (hw : s.mem.wf) : t.mem.wf := by
  obtain ⟨k, -, hm, -⟩ := h
  rw [hm]
  exact foldl_storeAll_wf _ hw

/-! ### The frame of GEN -/

theorem ChannelKept.refl (c : Channel) : ChannelKept c c := ⟨fun _ _ => rfl, rfl, rfl, rfl, rfl, rfl, rfl, rfl⟩

theorem ChannelKept.trans {a b c : Channel} (h : ChannelKept a b) (k : ChannelKept b c) : ChannelKept a c :=
  ⟨fun i hi => (k.cnt i hi).trans (h.cnt i hi), k.loopStart.trans h.loopStart, k.len.trans h.len,
    k.volume.trans h.volume, k.freq.trans h.freq, k.adpcmHeader.trans h.adpcmHeader,
    k.adpcmIndex.trans h.adpcmIndex, k.adpcmVal.trans h.adpcmVal⟩

theorem ChannelKept.loopReload (u : Word) (c : Channel) : ChannelKept c (loopReload u c) :=
  ⟨fun _ _ => rfl, rfl, rfl, rfl, rfl, rfl, rfl, rfl⟩

theorem stopFlags_cnt (c : Channel) (i : Nat) : (stopFlags c).cnt.getLsbD i = (c.cnt.getLsbD i && decide (i < 31)) := by
  have e : (0x7FFFFFFF : Word) = (BitVec.allOnes 31).setWidth 32 := by decide
  simp only [stopFlags, BitVec.getLsbD_and, e, BitVec.getLsbD_setWidth, BitVec.getLsbD_allOnes]
  by_cases h : i < 31
  · have h' : i < 32 := by omega
    simp [h, h']
  · simp [h]

theorem ChannelKept.stopFlags (c : Channel) : ChannelKept c (stopFlags c) :=
  ⟨fun i hi => by simp [stopFlags_cnt, hi], rfl, rfl, rfl, rfl, rfl, rfl, rfl⟩

theorem ChannelKept.dataPos (p : Word) (c : Channel) : ChannelKept c { c with dataPos := p } :=
  ⟨fun _ _ => rfl, rfl, rfl, rfl, rfl, rfl, rfl, rfl⟩

theorem SetupKept.refl (s : State) : SetupKept s s := ⟨rfl, rfl, rfl, rfl, rfl, rfl, rfl, rfl⟩

theorem SetupKept.trans {s t u : State} (h : SetupKept s t) (k : SetupKept t u) : SetupKept s u :=
  ⟨k.params.trans h.params, k.eng.trans h.eng, k.table.trans h.table, k.cfg.trans h.cfg, k.port.trans h.port,
    k.devOk.trans h.devOk, k.result.trans h.result, k.device.trans h.device⟩

theorem GenFrame.refl (id : ChannelId) (n : Nat) (s : State) : GenFrame id n s s :=
  ⟨.refl s, rfl, rfl, fun _ _ => rfl, .refl _, fun _ _ => rfl, .refl s⟩

/-- A change of the channel by a step that keeps what GEN keeps. -/
theorem GenFrame.setChan {id : ChannelId} {n : Nat} {s t : State} {c : Channel} (h : GenFrame id n s t)
    (hc : ChannelKept (t.chan id) c) : GenFrame id n s (t.setChan id c) :=
  { setup := h.setup.trans ⟨rfl, rfl, rfl, rfl, rfl, rfl, rfl, rfl⟩
    ls := h.ls
    samples := h.samples
    others := fun j hj => (chan_setChan_of_ne t c hj).trans (h.others j hj)
    kept := by
      rw [chan_setChan_self]
      exact h.kept.trans hc
    slots := h.slots
    memory := h.memory }

/-- The frame of GEN (41_resampler_fetch.md R129). -/
theorem gen_frame (id : ChannelId) (n : Nat) (s : State) : GenFrame id n s (gen id n s) := by
  refine gen_state (P := GenFrame id n s) (.refl id n s) ?_ ?_ ?_ ?_ ?_ ?_ ?_ ?_
  · intro t a h
    exact
      { setup := h.setup.trans ⟨by simp, by simp, by simp, by simp, by simp, by simp, by simp, by simp⟩
        ls := by simpa using h.ls
        samples := by simpa using h.samples
        others := fun j hj => by simpa using h.others j hj
        kept := by simpa using h.kept
        slots := fun x hx => by simpa using h.slots x hx
        memory := (h.memory.turn h.setup.params).congr rfl rfl }
  · intro t a h
    exact
      { setup := h.setup.trans ⟨by simp, by simp, by simp, by simp, by simp, by simp, by simp, by simp⟩
        ls := by simpa using h.ls
        samples := by simpa using h.samples
        others := fun j hj => by simpa using h.others j hj
        kept := by simpa using h.kept
        slots := fun x hx => by simpa using h.slots x hx
        memory := (h.memory.turn h.setup.params).congr rfl rfl }
  · intro t x v hx h
    exact
      { setup := h.setup.trans ⟨by simp, by simp, by simp, by simp, by simp, by simp, by simp, by simp⟩
        ls := by simpa using h.ls
        samples := by simpa using h.samples
        others := fun j hj => by simpa using h.others j hj
        kept := by simpa using h.kept
        slots := fun y hy => (setSlot_acc_ne t v (by omega)).trans (h.slots y hy)
        memory := h.memory.congr (by simp) (by simp) }
  · intro t x f hx h
    exact
      { setup := h.setup.trans ⟨by simp, by simp, by simp, by simp, by simp, by simp, by simp, by simp⟩
        ls := by simpa using h.ls
        samples := by simpa using h.samples
        others := fun j hj => by simpa using h.others j hj
        kept := by simpa using h.kept
        slots := fun y hy => (updateSlot_acc_ne t f (by omega)).trans (h.slots y hy)
        memory := h.memory.congr (by simp) (by simp) }
  · intro t u _ _ h
    exact h.setChan (.loopReload u _)
  · intro t _ h
    exact h.setChan (.stopFlags _)
  · intro t p h
    exact h.setChan (.dataPos p _)
  · intro t h
    exact ⟨h.setup.trans ⟨rfl, rfl, rfl, rfl, rfl, rfl, rfl, rfl⟩, h.ls, h.samples, h.others, h.kept, h.slots, h.memory⟩

theorem gen_call (id : ChannelId) (n : Nat) (s : State) : (gen id n s).call = none := rfl

/-- GEN keeps the mix buffer canonical and within its capacity. -/
theorem gen_buffer_wf {id : ChannelId} {n : Nat} {s : State} (h : SparseWf s.params.mixbufLen s.acc)
    (hn : n ≤ s.params.mixbufLen) : SparseWf s.params.mixbufLen (gen id n s).acc := by
  refine gen_state (P := fun t => SparseWf s.params.mixbufLen t.acc) h ?_ ?_ ?_ ?_ ?_ ?_ ?_ ?_
  · intro t a h; simpa using h
  · intro t a h; simpa using h
  · intro t x v hx h; exact setSlot_wf v h (by omega)
  · intro t x f hx h; exact updateSlot_wf f h (by omega)
  · intro t u _ _ h; exact h
  · intro t _ h; exact h
  · intro t p h; exact h
  · intro t h; exact h

/-! ### One index and its slot -/

theorem zseed_slot_other (r : Run) {y : Nat} (h : y ≠ r.1.x) : sparseGet (zseed r).2.acc y = sparseGet r.2.acc y := by
  unfold zseed
  split
  · exact setSlot_acc_ne _ _ h
  · rfl

/-- An index touches its own slot only (44_mixer.md R193). -/
theorem genIndex_slot_other {x y : Nat} (r : Run) (h : y ≠ x) :
    sparseGet (genIndex x r).2.acc y = sparseGet r.2.acc y := by
  refine genIndex_state (P := fun t => sparseGet t.acc y = sparseGet r.2.acc y) rfl ?_ ?_ ?_ ?_ ?_ ?_
  · intro s a h; simpa using h
  · intro s a h; simpa using h
  · intro s v h'; exact (setSlot_acc_ne s v h).trans h'
  · intro s f h'; exact (updateSlot_acc_ne s f h).trans h'
  · intro s u _ _ h; exact h
  · intro s _ h; exact h

theorem genUpto_slot_later {n y : Nat} (r : Run) (h : n ≤ y) :
    sparseGet (genUpto n r).2.acc y = sparseGet r.2.acc y := by
  induction n with
  | zero => rfl
  | succ n ih => exact (genIndex_slot_other _ (by omega)).trans (ih (by omega))

/-- A boundary micro-operation touches no slot and no free value. -/
theorem atBoundary_acc (r : Run) : (atBoundary r).2.acc = r.2.acc ∧ (atBoundary r).2.freeCount = r.2.freeCount := by
  unfold atBoundary
  split
  · exact boundaryOp_state (P := fun t => t.acc = r.2.acc ∧ t.freeCount = r.2.freeCount) ⟨rfl, rfl⟩
      (fun _ _ _ => ⟨rfl, rfl⟩) (fun _ => ⟨rfl, rfl⟩)
  · exact ⟨rfl, rfl⟩

/-- What an index does to its slot: with a written slot, or for channel 0, it is one update with either the volume scaling
of a sample of 16 bits or the addition of the silence value. -/
theorem genIndex_slot_self (x : Nat) (r : Run) :
    ∃ (f : Int → Int) (s0 : State), ((∃ sm : Int, -32768 ≤ sm ∧ sm ≤ 32767 ∧ f = volScale r.1.vol sm) ∨ f = addSilence r.1.sil) ∧
      s0.acc = (zseed ({ r.1 with x := x }, r.2)).2.acc ∧
      s0.freeCount = (zseed ({ r.1 with x := x }, r.2)).2.freeCount ∧
      (genIndex x r).2.acc = (s0.updateSlot x f).acc ∧
      (genIndex x r).2.freeCount = (s0.updateSlot x f).freeCount := by
  have hc := zseed_call ({ r.1 with x := x }, r.2)
  unfold genIndex
  dsimp only
  generalize zseed ({ r.1 with x := x }, r.2) = q at hc
  obtain ⟨c, s⟩ := q
  subst hc
  split
  · simp only [playIndex, countPlayed, atBoundary_acc]
    cases r.1.fmt
    · refine ⟨_, s.afterReadByte _, .inl ⟨_, ?_, ?_, rfl⟩, ?_, ?_, rfl, rfl⟩
      · exact (byteSample_bounds _).1
      · exact (byteSample_bounds _).2.trans (by norm_num)
      · simp
      · simp
    · refine ⟨_, s.afterReadHalf _, .inl ⟨_, ?_, ?_, rfl⟩, ?_, ?_, rfl, rfl⟩
      · exact (halfSample_bounds _).1
      · exact (halfSample_bounds _).2
      · simp
      · simp
    · exact ⟨_, s, .inr rfl, rfl, rfl, rfl, rfl⟩
    · exact ⟨_, s, .inr rfl, rfl, rfl, rfl, rfl⟩
  · exact ⟨_, s, .inr rfl, rfl, rfl, rfl, rfl⟩

/-- GEN writes every slot below n. -/
theorem genUpto_written {n x : Nat} (r : Run) (hx : x < n) : ∃ v, sparseGet (genUpto n r).2.acc x = some v := by
  induction n with
  | zero => omega
  | succ n ih =>
    by_cases e : x = n
    · subst e
      obtain ⟨f, s0, -, -, -, hga, -⟩ := genIndex_slot_self x (genUpto x r)
      obtain ⟨v, hv, -⟩ := updateSlot_acc_self s0 x f
      exact ⟨v, (congrArg (sparseGet · x) hga).trans hv⟩
    · obtain ⟨v, hv⟩ := ih (by omega)
      exact ⟨v, (genIndex_slot_other _ e).trans hv⟩

/-- The slot of an index stays within widened bounds and uses no free value (43_volume.md R175). -/
theorem genIndex_bounds {x : Nat} {r : Run} {lo hi : Int} (h0 : 0 ≤ r.1.vol) (h1 : r.1.vol ≤ 1)
    (hs : r.1.sil = silenceValue r.1.vol) (hlo : lo ≤ 0) (hhi : 0 ≤ hi)
    (hl : -2147483648 ≤ lo - 32768) (hh : hi + 32767 ≤ 2147483647)
    (hin : r.1.id = 0 ∨ ∃ v, sparseGet r.2.acc x = some v ∧ lo ≤ v.toInt ∧ v.toInt ≤ hi) :
    (∃ v, sparseGet (genIndex x r).2.acc x = some v ∧ lo - 32768 ≤ v.toInt ∧ v.toInt ≤ hi + 32767) ∧
      (genIndex x r).2.freeCount = r.2.freeCount := by
  obtain ⟨f, s0, hf, ha, hfc, hga, hgf⟩ := genIndex_slot_self x r
  have hz : (∃ v, sparseGet (zseed ({ r.1 with x := x }, r.2)).2.acc x = some v ∧ lo ≤ v.toInt ∧ v.toInt ≤ hi) ∧
      (zseed ({ r.1 with x := x }, r.2)).2.freeCount = r.2.freeCount := by
    unfold zseed
    split
    · rw [setSlot_of_fits (by decide)]
      exact ⟨⟨0, by simp, by simpa using hlo, by simpa using hhi⟩, rfl⟩
    · rename_i hne
      exact ⟨hin.resolve_left hne, rfl⟩
  obtain ⟨⟨v, hv, hvl, hvh⟩, hzf⟩ := hz
  rw [← ha] at hv
  have hb : lo - 32768 ≤ f v.toInt ∧ f v.toInt ≤ hi + 32767 := by
    rcases hf with ⟨sm, hsl, hsh, rfl⟩ | rfl
    · exact volScale_bounds h0 h1 (by omega) (by omega) (by omega) (by omega)
    · rw [hs]
      obtain ⟨hb1, hb2⟩ := silenceValue_bounds h0 h1
      obtain ⟨h3, h4⟩ := addSilence_bounds hb1 hb2 hvl hvh
      exact ⟨h3, by omega⟩
  have hfit : fitsI32 (f v.toInt) = true := fitsI32_iff.mpr ⟨by omega, by omega⟩
  rw [hga, hgf, updateSlot_of_written hv hfit]
  refine ⟨⟨_, sparseGet_sparseSet_self _ _ _, ?_⟩, hfc.trans hzf⟩
  rw [toInt_ofInt_of_fits hfit]
  exact hb

end Sys2Proof.Machine
end

