-- ==== Sys2Proof/Laws/Mixer.lean ====
section
/-! SUPPORT. What DMIX and MIX can do, said once: their frames, the value of every slot within bounds, a silent channel's
pass, and the parts of the state that no pass reads (old slots, lifecycle, engine flags). -/

namespace Sys2Proof.Machine

/-! ### DMIX -/

/-- DMIX changes the output samples and the count of free values only. -/
theorem dmixUpto_frame (n : Nat) (s : State) :
    ∃ l k, dmixUpto n s =
      { s with resp := { s.resp with samples := s.resp.samples ++ l }, freeCount := k } ∧ l.length = n := by
  induction n with
  | zero => exact ⟨[], s.freeCount, by simp [dmixUpto], rfl⟩
  | succ n ih =>
    obtain ⟨l, k, h, hl⟩ := ih
    obtain ⟨m, hm⟩ := noteSlotRead_eq (dmixUpto n s) n
    refine ⟨l ++ [downmix ((dmixUpto n s).slot n)], m, ?_, by simp [hl]⟩
    simp only [dmixUpto, dmixSlot, hm, State.emit]
    simp [h]

/-- DMIX over written slots: the state is as before but for the samples emitted (44_mixer.md R188). -/
theorem dmixUpto_of_written {n : Nat} {s : State} (h : ∀ x, x < n → ∃ v, sparseGet s.acc x = some v) :
    dmixUpto n s = { s with resp := { s.resp with
      samples := s.resp.samples ++ (List.range n).map fun x => downmix (s.slot x) } } := by
  induction n with
  | zero => simp [dmixUpto]
  | succ n ih =>
    obtain ⟨v, hv⟩ := h n (by omega)
    have hi := ih fun x hx => h x (by omega)
    have ha : sparseGet (dmixUpto n s).acc n = some v := by rw [hi]; exact hv
    simp only [dmixUpto, dmixSlot, noteSlotRead_of_some ha, slot_of_some ha, List.range_succ, List.map_append,
      List.map_cons, List.map_nil, slot_of_some hv]
    rw [hi]
    simp [State.emit]

/-! ### The frame of MIX -/

theorem MixFrame.refl (n : Nat) (s : State) : MixFrame n s s :=
  ⟨.refl s, fun _ => .refl _, fun _ _ => rfl, .refl s⟩

theorem MixFrame.trans {n : Nat} {s t u : State} (h : MixFrame n s t) (k : MixFrame n t u) : MixFrame n s u :=
  ⟨h.setup.trans k.setup, fun id => (h.kept id).trans (k.kept id), fun x hx => (k.slots x hx).trans (h.slots x hx),
    h.memory.trans h.setup.params k.memory⟩

theorem GenFrame.mix {id : ChannelId} {n : Nat} {s t : State} (h : GenFrame id n s t) : MixFrame n s t :=
  { setup := h.setup
    kept := fun j => by
      by_cases e : j = id
      · exact e ▸ h.kept
      · rw [h.others j e]
        exact .refl _
    slots := h.slots
    memory := h.memory }

theorem genEach_append (l : List ChannelId) (id : ChannelId) (n : Nat) (s : State) :
    genEach (l ++ [id]) n s = gen id n (genEach l n s) := by simp [genEach]

/-- Sixteen passes keep what each keeps, and leave `LS` and the samples alone. -/
theorem genEach_frame (ids : List ChannelId) (n : Nat) (s : State) :
    MixFrame n s (genEach ids n s) ∧ (genEach ids n s).ls = s.ls ∧
      (genEach ids n s).resp.samples = s.resp.samples := by
  induction ids generalizing s with
  | nil => exact ⟨.refl n s, rfl, rfl⟩
  | cons id t ih =>
    obtain ⟨h1, h2, h3⟩ := ih (gen id n s)
    have hg := gen_frame id n s
    exact ⟨hg.mix.trans h1, h2.trans hg.ls, h3.trans hg.samples⟩

theorem genEach_buffer_wf {ids : List ChannelId} {n : Nat} {s : State} (h : SparseWf s.params.mixbufLen s.acc)
    (hn : n ≤ s.params.mixbufLen) : SparseWf s.params.mixbufLen (genEach ids n s).acc := by
  induction ids generalizing s with
  | nil => exact h
  | cons id t ih =>
    have hp := (gen_frame id n s).setup.params
    rw [← hp] at h hn ⊢
    exact ih (by rw [hp] at h hn ⊢; exact gen_buffer_wf h hn) hn

/-! ### Bounds on the slots -/

/-- Every slot below n is written and within bounds. -/
def SlotsWithin (lo hi : Int) (n : Nat) (s : State) : Prop :=
  ∀ x, x < n → ∃ v, sparseGet s.acc x = some v ∧ lo ≤ v.toInt ∧ v.toInt ≤ hi

/-- One pass widens the bounds by one sample and uses no free value (43_volume.md R175). -/
theorem gen_bounds {id : ChannelId} {n : Nat} {s : State} {lo hi : Int} (hg : s.eng.channelMasterVolume.toNat ≤ 128)
    (hlo : lo ≤ 0) (hhi : 0 ≤ hi) (hl : -2147483648 ≤ lo - 32768) (hh : hi + 32767 ≤ 2147483647)
    (hin : id = 0 ∨ SlotsWithin lo hi n s) :
    SlotsWithin (lo - 32768) (hi + 32767) n (gen id n s) ∧ (gen id n s).freeCount = s.freeCount := by
  have h0 := compositeVolume_nonneg (s.chan id) s.eng
  have h1 := compositeVolume_le_one (c := s.chan id) hg
  have key : ∀ m, m ≤ n → SlotsWithin (lo - 32768) (hi + 32767) m (genUpto m (GenCall.start id s, s)).2 ∧
      (genUpto m (GenCall.start id s, s)).2.freeCount = s.freeCount := by
    intro m
    induction m with
    | zero => exact fun _ => ⟨fun x hx => absurd hx (by omega), rfl⟩
    | succ m ih =>
      intro hm
      obtain ⟨ih1, ih2⟩ := ih (by omega)
      have hb := genIndex_bounds (x := m) (r := genUpto m (GenCall.start id s, s)) (lo := lo) (hi := hi)
        (by simpa using h0) (by simpa using h1) (by simp) hlo hhi hl hh (by
          rcases hin with h | h
          · exact .inl (by simpa using h)
          · refine .inr ?_
            rw [genUpto_slot_later _ (le_refl m)]
            exact h m (by omega))
      refine ⟨fun x hx => ?_, hb.2.trans ih2⟩
      by_cases e : x = m
      · exact e ▸ hb.1
      · obtain ⟨v, hv⟩ := ih1 x (by omega)
        exact ⟨v, (genIndex_slot_other _ e).trans hv.1, hv.2⟩
  exact key n (le_refl n)

/-- After channels 0 to k-1, in order, a slot holds a value of k samples at most (43_volume.md R175). -/
theorem genEach_bounds {n : Nat} {s : State} (hg : s.eng.channelMasterVolume.toNat ≤ 128) (l : List ChannelId)
    (hl : l.length ≤ 15) :
    SlotsWithin (-32768 * (l.length + 1)) (32767 * (l.length + 1)) n (genEach (0 :: l) n s) ∧
      (genEach (0 :: l) n s).freeCount = s.freeCount := by
  induction l using List.reverseRecOn with
  | nil =>
    have h := gen_bounds (id := 0) (s := s) (lo := 0) (hi := 0) (n := n) hg (by omega) (by omega) (by omega) (by omega)
      (.inl rfl)
    simpa [genEach] using h
  | append_singleton l id ih =>
    have hlen : l.length ≤ 14 := by
      rw [List.length_append, List.length_singleton] at hl
      omega
    obtain ⟨h1, h2⟩ := ih (by omega)
    rw [← List.cons_append, genEach_append]
    have hp := (genEach_frame (0 :: l) n s).1.setup.eng
    obtain ⟨h3, h4⟩ := gen_bounds (id := id) (n := n) (s := genEach (0 :: l) n s) (by rw [hp]; exact hg)
      (by omega) (by omega) (by omega) (by omega) (.inr h1)
    refine ⟨fun x hx => ?_, h4.trans h2⟩
    obtain ⟨v, hv, h5, h6⟩ := h3 x hx
    refine ⟨v, hv, ?_, ?_⟩
    · simp only [List.length_append, List.length_cons, List.length_nil]
      push_cast
      omega
    · simp only [List.length_append, List.length_cons, List.length_nil]
      push_cast
      omega

/-- The sixteen passes of a MIX leave every slot below n within the bound of 43_volume.md R175. -/
theorem genAll_bounds {n : Nat} {s : State} (hg : s.eng.channelMasterVolume.toNat ≤ 128) :
    SlotsWithin (-524288) 524272 n (genEach channelOrder n s) ∧
      (genEach channelOrder n s).freeCount = s.freeCount := by
  simpa [channelOrder] using
    genEach_bounds (n := n) hg [1, 2, 3, 4, 5, 6, 7, 8, 9, 10, 11, 12, 13, 14, 15] (by simp)

/-! ### A pass of a channel that does not play -/

/-- ZSEED leaves the channels alone. -/
@[simp] theorem zseed_chan (r : Run) (id : ChannelId) : (zseed r).2.chan id = r.2.chan id :=
  zseed_state (P := fun t => t.chan id = r.2.chan id) rfl fun s v h => by simpa using h

/-- An index of a channel for which the playing test fails (41_resampler_fetch.md R139). -/
theorem genIndex_silent {x : Nat} {r : Run} (h : playingTest (r.2.chan r.1.id) = false) :
    genIndex x r = smpSil (zseed ({ r.1 with x := x }, r.2)) := by
  unfold genIndex
  dsimp only
  rw [zseed_chan, zseed_call, h]
  rfl

/-- Nothing but slots and free values changes while a channel is silent. -/
theorem genUpto_silent {n : Nat} {r : Run} (h : playingTest (r.2.chan r.1.id) = false) :
    (genUpto n r).1.played = r.1.played ∧
      ∃ a k, (genUpto n r).2 = { r.2 with acc := a, freeCount := k } := by
  induction n with
  | zero => exact ⟨rfl, _, _, rfl⟩
  | succ n ih =>
    obtain ⟨ih1, a, k, ih2⟩ := ih
    have hc : playingTest ((genUpto n r).2.chan (genUpto n r).1.id) = false := by
      rw [ih2, genUpto_id]
      exact h
    have hz : ∃ a k, (zseed ({ (genUpto n r).1 with x := n }, (genUpto n r).2)).2 =
        { r.2 with acc := a, freeCount := k } := by
      unfold zseed
      split
      · obtain ⟨a', k', e⟩ := setSlot_eq (genUpto n r).2 n 0
        exact ⟨a', k', e.trans (by rw [ih2])⟩
      · exact ⟨a, k, ih2⟩
    obtain ⟨a', k', hz⟩ := hz
    show (genIndex n (genUpto n r)).1.played = _ ∧ ∃ a k, (genIndex n (genUpto n r)).2 = _
    rw [genIndex_silent hc]
    refine ⟨by simp [smpSil, addSil, zseed_call, ih1], ?_⟩
    simp only [smpSil, addSil, hz]
    obtain ⟨a2, k2, e2⟩ := updateSlot_eq { r.2 with acc := a', freeCount := k' }
      (zseed ({ (genUpto n r).1 with x := n }, (genUpto n r).2)).1.x
      (addSilence (zseed ({ (genUpto n r).1 with x := n }, (genUpto n r).2)).1.sil)
    exact ⟨a2, k2, e2⟩

/-- Every slot a silent channel's pass covers has the silence value added, whatever came before (0 for channel 0). -/
theorem genUpto_silent_slot {r : Run} (h : playingTest (r.2.chan r.1.id) = false) {n x : Nat} (hx : x < n) {a : Int}
    (ha : (r.1.id = 0 ∧ a = 0) ∨ (r.1.id ≠ 0 ∧ ∃ w, sparseGet r.2.acc x = some w ∧ a = w.toInt))
    (hf : fitsI32 (addSilence r.1.sil a) = true) :
    ∃ v, sparseGet (genUpto n r).2.acc x = some v ∧ v.toInt = addSilence r.1.sil a := by
  induction n with
  | zero => omega
  | succ n ih =>
    by_cases e : x = n
    · subst e
      have hc : playingTest ((genUpto x r).2.chan (genUpto x r).1.id) = false := by
        obtain ⟨a, k, e⟩ := (genUpto_silent (n := x) h).2
        rw [e, genUpto_id]
        exact h
      show ∃ v, sparseGet (genIndex x (genUpto x r)).2.acc x = some v ∧ _
      rw [genIndex_silent hc, zseed_eq]
      simp only [smpSil, addSil, genUpto_sil, genUpto_id]
      obtain ⟨v, hv, hvi⟩ := updateSlot_acc_self
        (if r.1.id = 0 then (genUpto x r).2.setSlot x 0 else (genUpto x r).2) x (addSilence r.1.sil)
      have hs : (if r.1.id = 0 then (genUpto x r).2.setSlot x 0 else (genUpto x r).2).slot x = a := by
        rcases ha with ⟨h0, rfl⟩ | ⟨h0, w, hw, rfl⟩
        · rw [if_pos h0, slot_setSlot_of_fits (by decide)]
        · rw [if_neg h0]
          exact slot_of_some ((genUpto_slot_later r (le_refl x)).trans hw)
      rw [hs] at hvi
      exact ⟨v, hv, hvi hf⟩
    · obtain ⟨v, hv, hvi⟩ := ih (by omega)
      exact ⟨v, (genIndex_slot_other _ e).trans hv, hvi⟩

/-- A pass of a channel that does not play: its position is forced even for PCM16; slots and free values change. -/
theorem gen_silent {id : ChannelId} {n : Nat} {s : State} (h : playingTest (s.chan id) = false) :
    ∃ a k, gen id n s = { s.setChan id { s.chan id with
      dataPos := if decodeFmt (s.chan id).cnt = .pcm16 then evenAddr (s.chan id).dataPos else (s.chan id).dataPos } with
      acc := a, freeCount := k, call := none } := by
  obtain ⟨hp, a, k, e⟩ := genUpto_silent (n := n) (r := (GenCall.start id s, s)) h
  refine ⟨a, k, ?_⟩
  have hp' : (genUpto n (GenCall.start id s, s)).1.played = 0 := hp
  unfold gen
  rw [posAdv_eq]
  simp only [genUpto_id, genUpto_fmt, hp', advance_zero, start_id, start_fmt]
  rw [e]
  rfl

/-! ### State that no step of sample generation reads -/

/-- Another lifecycle, other engine flags, another transient call. -/
def State.dress (s : State) (ls : Lifecycle) (soundOn stereo : Bool) (call : Option GenCall) : State :=
  { s with ls := ls, eng := { s.eng with soundOn := soundOn, stereo := stereo }, call := call }

/-- A run over the same state dressed. -/
def Run.dress (r : Run) (ls : Lifecycle) (soundOn stereo : Bool) (call : Option GenCall) : Run :=
  (r.1, r.2.dress ls soundOn stereo call)

section Dress
variable (ls : Lifecycle) (a b : Bool) (k : Option GenCall)

theorem dress_setSlot (s : State) (x : Nat) (v : Int) :
    (s.dress ls a b k).setSlot x v = (s.setSlot x v).dress ls a b k := by
  unfold State.setSlot; split <;> rfl

theorem dress_noteSlotRead (s : State) (x : Nat) :
    (s.dress ls a b k).noteSlotRead x = (s.noteSlotRead x).dress ls a b k := by
  unfold State.noteSlotRead State.dress
  dsimp only
  split <;> rfl

theorem dress_slot (s : State) (x : Nat) : (s.dress ls a b k).slot x = s.slot x := rfl

theorem dress_updateSlot (s : State) (x : Nat) (f : Int → Int) :
    (s.dress ls a b k).updateSlot x f = (s.updateSlot x f).dress ls a b k := by
  simp only [State.updateSlot, dress_noteSlotRead, dress_setSlot, dress_slot]

theorem dress_platformTurn (s : State) : (s.dress ls a b k).platformTurn = s.platformTurn.dress ls a b k := by
  unfold State.platformTurn State.dress
  dsimp only
  split
  · rfl
  · split <;> rfl

theorem dress_readByte (s : State) (p : Word) : (s.dress ls a b k).readByte p = s.readByte p := by
  simp only [State.readByte, dress_platformTurn]; rfl

theorem dress_readHalf (s : State) (p : Word) : (s.dress ls a b k).readHalf p = s.readHalf p := by
  simp only [State.readHalf, dress_platformTurn]; rfl

theorem dress_afterReadByte (s : State) (p : Word) :
    (s.dress ls a b k).afterReadByte p = (s.afterReadByte p).dress ls a b k := by
  simp only [State.afterReadByte, dress_platformTurn]; rfl

theorem dress_afterReadHalf (s : State) (p : Word) :
    (s.dress ls a b k).afterReadHalf p = (s.afterReadHalf p).dress ls a b k := by
  simp only [State.afterReadHalf, dress_platformTurn]; rfl

theorem dress_zseed (r : Run) : zseed (r.dress ls a b k) = (zseed r).dress ls a b k := by
  simp only [zseed, Run.dress, dress_setSlot]
  split <;> rfl

/-- A sample micro-operation reads neither lifecycle, engine flags nor the state's transient call. -/
theorem dress_sampleOp (fmt : Fmt) (r : Run) :
    sampleOp fmt (r.dress ls a b k) = (sampleOp fmt r).dress ls a b k := by
  cases fmt <;>
    simp only [sampleOp, smpPcm8, smpPcm16, pcm16At, smpAdpcm, smpPsg, addSil, Run.dress, dress_updateSlot,
      dress_afterReadByte, dress_afterReadHalf, dress_readByte, dress_readHalf]

theorem dress_boundaryOp (lm : LoopMode) (r : Run) :
    boundaryOp lm (r.dress ls a b k) = (boundaryOp lm r).dress ls a b k := by
  cases lm
  · rfl
  · show bndLoop _ = Run.dress (bndLoop r) ls a b k
    unfold bndLoop Run.dress
    dsimp only
    split <;> rfl
  · rfl
  · rfl

theorem dress_atBoundary (r : Run) : atBoundary (r.dress ls a b k) = (atBoundary r).dress ls a b k := by
  unfold atBoundary
  rw [dress_boundaryOp]
  show (if boundaryHit r.1.addr (r.2.chan r.1.id) then _ else _) = _
  split <;> rfl

theorem dress_playIndex (r : Run) : playIndex (r.dress ls a b k) = (playIndex r).dress ls a b k := by
  show countPlayed (atBoundary (sampleOp r.1.fmt ((withAddr r).dress ls a b k))) = _
  rw [dress_sampleOp, dress_atBoundary]
  rfl

theorem dress_genIndex (x : Nat) (r : Run) : genIndex x (r.dress ls a b k) = (genIndex x r).dress ls a b k := by
  have hz : zseed ({ (r.dress ls a b k).1 with x := x }, (r.dress ls a b k).2) =
      (zseed ({ r.1 with x := x }, r.2)).dress ls a b k := dress_zseed ls a b k ({ r.1 with x := x }, r.2)
  unfold genIndex
  dsimp only
  rw [hz, dress_playIndex]
  generalize zseed ({ r.1 with x := x }, r.2) = q
  show (if playingTest (q.2.chan q.1.id) then _ else _) = _
  split
  · rfl
  · simp only [smpSil, addSil, Run.dress, dress_updateSlot]

theorem dress_genUpto (n : Nat) (r : Run) : genUpto n (r.dress ls a b k) = (genUpto n r).dress ls a b k := by
  induction n with
  | zero => rfl
  | succ n ih => rw [genUpto, genUpto, ih, dress_genIndex]

/-- GEN reads neither lifecycle nor engine flags (45_host_commands.md R215, 10_state.md R34). -/
theorem dress_gen (id : ChannelId) (n : Nat) (s : State) :
    gen id n (s.dress ls a b k) = (gen id n s).dress ls a b none := by
  have h := dress_genUpto ls a b k n (GenCall.start id s, s)
  have e : (GenCall.start id (s.dress ls a b k), s.dress ls a b k) = Run.dress (GenCall.start id s, s) ls a b k := rfl
  unfold gen
  rw [e, h]
  rfl

theorem dress_dmixUpto (n : Nat) (s : State) :
    dmixUpto n (s.dress ls a b k) = (dmixUpto n s).dress ls a b k := by
  induction n with
  | zero => rfl
  | succ n ih =>
    rw [dmixUpto, dmixUpto, ih]
    simp only [dmixSlot, dress_noteSlotRead, dress_slot]
    rfl

end Dress

/-! ### Old slots -/

/-- Two states that differ in the mix buffer only, and agree on written slots where P holds. -/
def AgreeOn (P : Nat → Prop) (s t : State) : Prop :=
  t = { s with acc := t.acc } ∧ ∀ x, P x → ∃ v, sparseGet s.acc x = some v ∧ sparseGet t.acc x = some v

/-- The transient states are equal and the states agree. -/
def RunsAgreeOn (P : Nat → Prop) (r q : Run) : Prop := q.1 = r.1 ∧ AgreeOn P r.2 q.2

section Agree
variable {P : Nat → Prop} {s t : State}

theorem AgreeOn.setSlot (h : AgreeOn P s t) (x : Nat) (v : Int) :
    AgreeOn (fun y => P y ∨ y = x) (s.setSlot x v) (t.setSlot x v) := by
  obtain ⟨e, hp⟩ := h
  have hf : t.freeCount = s.freeCount := by rw [e]
  refine ⟨?_, fun y hy => ?_⟩
  · unfold State.setSlot
    rw [hf]
    split
    · rw [e]
    · rw [e]
  · rw [setSlot_acc, setSlot_acc, hf]
    by_cases hx : y = x
    · simp [hx]
    · simpa [hx] using hp y (hy.resolve_right hx)

theorem AgreeOn.slot (h : AgreeOn P s t) {x : Nat} (hx : P x) : t.slot x = s.slot x := by
  obtain ⟨v, h1, h2⟩ := h.2 x hx
  rw [slot_of_some h1, slot_of_some h2]

theorem AgreeOn.weaken {Q : Nat → Prop} (h : AgreeOn P s t) (hq : ∀ x, Q x → P x) : AgreeOn Q s t :=
  ⟨h.1, fun x hx => h.2 x (hq x hx)⟩

theorem AgreeOn.updateSlot (h : AgreeOn P s t) {x : Nat} (hx : P x) (f : Int → Int) :
    AgreeOn P (s.updateSlot x f) (t.updateSlot x f) := by
  obtain ⟨v, h1, h2⟩ := h.2 x hx
  simp only [State.updateSlot, noteSlotRead_of_some h1, noteSlotRead_of_some h2, slot_of_some h1, slot_of_some h2]
  exact (h.setSlot x _).weaken fun y hy => .inl hy

theorem AgreeOn.chan (h : AgreeOn P s t) (id : ChannelId) : t.chan id = s.chan id := by rw [h.1]; rfl

/-- A change that neither reads nor writes the mix buffer keeps the agreement. -/
theorem AgreeOn.map (h : AgreeOn P s t) (f : State → State) (hacc : ∀ u a, f { u with acc := a } = { f u with acc := a })
    (hkeep : ∀ u, (f u).acc = u.acc) : AgreeOn P (f s) (f t) := by
  obtain ⟨e, hp⟩ := h
  refine ⟨?_, fun x hx => by simpa only [hkeep] using hp x hx⟩
  rw [hkeep t, ← hacc, ← e]

theorem platformTurn_acc_comm (u : State) (a : List (Nat × Word)) :
    State.platformTurn { u with acc := a } = { u.platformTurn with acc := a } := by
  unfold State.platformTurn
  dsimp only
  split
  · rfl
  · split <;> rfl

theorem AgreeOn.afterReadByte (h : AgreeOn P s t) (p : Word) : AgreeOn P (s.afterReadByte p) (t.afterReadByte p) :=
  h.map (fun u => u.afterReadByte p)
    (fun u a => by simp only [State.afterReadByte, platformTurn_acc_comm]; rfl) (fun u => by simp)

theorem AgreeOn.afterReadHalf (h : AgreeOn P s t) (p : Word) : AgreeOn P (s.afterReadHalf p) (t.afterReadHalf p) :=
  h.map (fun u => u.afterReadHalf p)
    (fun u a => by simp only [State.afterReadHalf, platformTurn_acc_comm]; rfl) (fun u => by simp)

theorem AgreeOn.readByte (h : AgreeOn P s t) (p : Word) : t.readByte p = s.readByte p := by
  rw [h.1]; simp only [State.readByte, platformTurn_acc_comm]

theorem AgreeOn.readHalf (h : AgreeOn P s t) (p : Word) : t.readHalf p = s.readHalf p := by
  rw [h.1]; simp only [State.readHalf, platformTurn_acc_comm]

theorem AgreeOn.setChan (h : AgreeOn P s t) (id : ChannelId) (f : Channel → Channel) :
    AgreeOn P (s.setChan id (f (s.chan id))) (t.setChan id (f (t.chan id))) :=
  h.map (fun u => u.setChan id (f (u.chan id))) (fun _ _ => rfl) (fun _ => rfl)

end Agree

theorem RunsAgreeOn.sampleOp {P : Nat → Prop} {r q : Run} (fmt : Fmt) (h : RunsAgreeOn P r q) (hx : P r.1.x) :
    RunsAgreeOn P (sampleOp fmt r) (sampleOp fmt q) := by
  obtain ⟨c, s⟩ := r
  obtain ⟨c', t⟩ := q
  obtain ⟨e, ha⟩ := h
  obtain rfl : c' = c := e
  cases fmt
  · refine ⟨rfl, ?_⟩
    simp only [Machine.sampleOp, smpPcm8, ha.readByte]
    exact (ha.afterReadByte _).updateSlot hx _
  · refine ⟨rfl, ?_⟩
    simp only [Machine.sampleOp, smpPcm16, pcm16At, ha.readHalf]
    exact (ha.afterReadHalf _).updateSlot hx _
  · exact ⟨rfl, ha.updateSlot hx _⟩
  · exact ⟨rfl, ha.updateSlot hx _⟩

theorem RunsAgreeOn.boundaryOp {P : Nat → Prop} {r q : Run} (lm : LoopMode) (h : RunsAgreeOn P r q) :
    RunsAgreeOn P (boundaryOp lm r) (boundaryOp lm q) := by
  obtain ⟨c, s⟩ := r
  obtain ⟨c', t⟩ := q
  obtain ⟨e, ha⟩ := h
  obtain rfl : c' = c := e
  cases lm
  · exact ⟨rfl, ha⟩
  · show RunsAgreeOn P (bndLoop _) (bndLoop _)
    unfold bndLoop
    dsimp only
    split
    · exact ⟨rfl, ha.setChan _ _⟩
    · exact ⟨rfl, ha⟩
  · exact ⟨rfl, ha.setChan _ _⟩
  · exact ⟨rfl, ha⟩

theorem RunsAgreeOn.genIndex {P : Nat → Prop} {r q : Run} (x : Nat) (h : RunsAgreeOn P r q) (hx : r.1.id = 0 ∨ P x) :
    RunsAgreeOn (fun y => P y ∨ y = x) (genIndex x r) (genIndex x q) := by
  obtain ⟨c, s⟩ := r
  obtain ⟨c', t⟩ := q
  obtain ⟨e, ha⟩ := h
  obtain rfl : c' = c := e
  have hz : RunsAgreeOn (fun y => P y ∨ y = x) (zseed ({ c' with x := x }, s)) (zseed ({ c' with x := x }, t)) := by
    unfold zseed
    dsimp only
    split
    · exact ⟨rfl, ha.setSlot x 0⟩
    · rename_i hne
      refine ⟨rfl, ha.weaken fun y hy => hy.elim (fun h => h) fun e => e ▸ hx.resolve_left hne⟩
  have hcx : (zseed ({ c' with x := x }, s)).1.x = x := by rw [zseed_call]
  unfold Machine.genIndex
  dsimp only
  generalize zseed ({ c' with x := x }, s) = r' at hz hcx
  generalize zseed ({ c' with x := x }, t) = q' at hz
  obtain ⟨d, s'⟩ := r'
  obtain ⟨d', t'⟩ := q'
  obtain ⟨e, ha'⟩ := hz
  obtain rfl : d' = d := e
  have hx' : (fun y => P y ∨ y = x) d'.x := .inr hcx
  simp only [ha'.chan]
  split
  · have hw : RunsAgreeOn (fun y => P y ∨ y = x) (withAddr (d', s')) (withAddr (d', t')) := by
      refine ⟨?_, ha'⟩
      simp only [withAddr, ha'.chan]
    have hs := hw.sampleOp d'.fmt hx'
    have hb : RunsAgreeOn (fun y => P y ∨ y = x) (atBoundary (Machine.sampleOp d'.fmt (withAddr (d', s'))))
        (atBoundary (Machine.sampleOp d'.fmt (withAddr (d', t')))) := by
      have e1 := hs.1
      have e2 := hs.2.chan
      unfold atBoundary
      rw [e1, e2]
      split
      · exact hs.boundaryOp _
      · exact hs
    refine ⟨?_, hb.2⟩
    simp only [playIndex, countPlayed, hb.1]
  · exact ⟨rfl, ha'.updateSlot hx' _⟩

/-- A pass of channel 0 makes the slots agree whatever was in them; a pass of another channel keeps agreeing slots. -/
theorem gen_agree {id : ChannelId} {n : Nat} {s t : State} {P : Nat → Prop} (h : AgreeOn P s t)
    (hn : id = 0 ∨ ∀ x, x < n → P x) : AgreeOn (fun y => P y ∨ y < n) (gen id n s) (gen id n t) := by
  have e0 : GenCall.start id t = GenCall.start id s := by rw [h.1]; rfl
  have key : ∀ m, m ≤ n → RunsAgreeOn (fun y => P y ∨ y < m) (genUpto m (GenCall.start id s, s))
      (genUpto m (GenCall.start id t, t)) := by
    intro m
    induction m with
    | zero => exact fun _ => ⟨e0, h.weaken fun y hy => hy.elim (fun h => h) fun h => absurd h (by omega)⟩
    | succ m ih =>
      intro hm
      have hi := (ih (by omega)).genIndex m (by
        rcases hn with h0 | h0
        · exact .inl (by simpa using h0)
        · exact .inr (.inl (h0 m (by omega))))
      exact ⟨hi.1, hi.2.weaken fun y hy => hy.elim (fun h => .inl (.inl h)) fun h =>
        (Nat.lt_succ_iff_lt_or_eq.mp h).elim (fun h => .inl (.inr h)) .inr⟩
  obtain ⟨h1, h2⟩ := key n (le_refl n)
  have h3 : AgreeOn (fun y => P y ∨ y < n) (posAdv (genUpto n (GenCall.start id s, s))).2
      (posAdv (genUpto n (GenCall.start id t, t))).2 := by
    unfold posAdv Run.mapChan
    rw [h1]
    exact h2.setChan (genUpto n (GenCall.start id s, s)).1.id fun c => { c with
      dataPos := if (genUpto n (GenCall.start id s, s)).1.fmt = .pcm16
        then evenAddr (advance c.dataPos (genUpto n (GenCall.start id s, s)).1.ratio (genUpto n (GenCall.start id s, s)).1.played)
        else advance c.dataPos (genUpto n (GenCall.start id s, s)).1.ratio (genUpto n (GenCall.start id s, s)).1.played }
  exact h3.map (fun u => { u with call := none }) (fun _ _ => rfl) (fun _ => rfl)

/-- The content of the mix buffer before the sixteen passes has no influence on them (44_mixer.md R186). -/
theorem genAll_agree (n : Nat) (s : State) (a : List (Nat × Word)) :
    AgreeOn (fun y => y < n) (genEach channelOrder n s) (genEach channelOrder n { s with acc := a }) := by
  have step : ∀ (l : List ChannelId) (u v : State), AgreeOn (fun y => y < n) u v →
      AgreeOn (fun y => y < n) (genEach l n u) (genEach l n v) := by
    intro l
    induction l with
    | nil => exact fun u v h => h
    | cons id l ih =>
      exact fun u v h => ih _ _ ((gen_agree h (.inr fun x hx => hx)).weaken fun y hy => .inl hy)
  have h0 : AgreeOn (fun _ => False) s { s with acc := a } := ⟨rfl, fun _ h => h.elim⟩
  exact step [1, 2, 3, 4, 5, 6, 7, 8, 9, 10, 11, 12, 13, 14, 15] _ _
    ((gen_agree h0 (.inl rfl)).weaken fun y hy => .inr hy)

end Sys2Proof.Machine
end

