-- ==== Sys2Proof/Laws/Registers.lean ====
section
/-! SUPPORT. Register fields as numbers, the legal frequency patterns, what a WR leaves alone, and the entries of the step
table. -/

namespace Sys2Proof.Machine

/-! ### Bits and flags -/

theorem flagDword_toNat (b : Bool) : (flagDword b).toNat = b.toNat := by cases b <;> rfl

theorem getLsbD_zero_toNat {w : Nat} (a : BitVec w) : (a.getLsbD 0).toNat = a.toNat % 2 := by
  rw [BitVec.getLsbD, Nat.testBit_zero]
  rcases Nat.mod_two_eq_zero_or_one a.toNat with h | h <;> simp [h]

/-- The enable bit is the top bit of `cnt` (10_state.md R23). -/
theorem enableBit_toNat (c : Channel) : (enableBit c).toNat = c.cnt.toNat / 2 ^ 31 := by
  have := c.cnt.isLt
  have h : enableBit c = decide (2 ^ 31 ≤ c.cnt.toNat) := by
    rw [enableBit, ← BitVec.msb_eq_getLsbD_last (x := c.cnt), BitVec.msb_eq_decide]
  rw [h]
  by_cases h : 2 ^ 31 ≤ c.cnt.toNat
  · rw [decide_eq_true h, Bool.toNat_true]
    omega
  · rw [decide_eq_false h, Bool.toNat_false]
    omega

/-- Writing the enable bit keeps the other bits of `cnt` (10_state.md R23). -/
theorem setEnable_toNat (b : Bool) (c : Channel) :
    (setEnable b c).cnt.toNat = c.cnt.toNat % 2 ^ 31 + 2 ^ 31 * b.toNat := by
  have h : (setEnable b c).cnt = BitVec.ofBool b ++ c.cnt.extractLsb' 0 31 := by
    apply BitVec.eq_of_getLsbD_eq
    intro i hi
    have e : (0x7FFFFFFF : Word) = (BitVec.allOnes 31).setWidth 32 := by decide
    have e' : (if b then (0x80000000 : Word) else 0) = BitVec.ofBool b ++ (0 : BitVec 31) := by cases b <;> decide
    simp only [setEnable, BitVec.getLsbD_or, BitVec.getLsbD_and, e, e', BitVec.getLsbD_append,
      BitVec.getLsbD_extractLsb', BitVec.getLsbD_setWidth, BitVec.getLsbD_allOnes]
    by_cases h : i < 31
    · simp [h, hi]
    · obtain rfl : i = 31 := by omega
      simp
  rw [h, BitVec.toNat_append, BitVec.extractLsb'_toNat]
  have : c.cnt.toNat >>> 0 % 2 ^ 31 < 2 ^ 31 := Nat.mod_lt _ (by norm_num)
  rw [← Nat.shiftLeft_add_eq_or_of_lt this]
  cases b
  · simp [Nat.shiftLeft_eq]
  · simp [Nat.shiftLeft_eq]
    omega

theorem saturateVolume_toNat (v : BitVec 8) : (saturateVolume v).toNat = min v.toNat 128 := by
  unfold saturateVolume
  split
  · omega
  · simp
    omega

/-- The low bits that a WR keeps, zero-extended again. -/
theorem setWidth_low (arg : Dword) (k : Nat) :
    BitVec.setWidth 64 (arg.extractLsb' 0 k) = BitVec.ofNat 64 (arg.toNat % 2 ^ k) := by
  apply BitVec.eq_of_toNat_eq
  simp [BitVec.extractLsb'_toNat]

/-- Legal frequency patterns, by value of the pattern (10_state.md R30). -/
theorem legalFreq_iff (p : Dword) :
    legalFreq p = true ↔ (p.toNat < 2 ^ 63 ∧ p.toNat / 2 ^ 52 ≠ 0x7FF) ∨ p.toNat = 2 ^ 63 := by
  have hp := p.isLt
  have h3 : p = (0x8000000000000000 : Dword) ↔ p.toNat = 2 ^ 63 :=
    ⟨fun h => by rw [h]; rfl, fun h => BitVec.eq_of_toNat_eq h⟩
  have h1 : p.getLsbD 63 = decide (2 ^ 63 ≤ p.toNat) := by
    rw [← BitVec.msb_eq_getLsbD_last (x := p), BitVec.msb_eq_decide]
  have h2 : (p.extractLsb' 52 11).toNat = p.toNat / 2 ^ 52 % 2 ^ 11 := by
    rw [BitVec.extractLsb'_toNat, Nat.shiftRight_eq_div_pow]
  unfold legalFreq
  rw [h1, h2]
  simp only [Bool.or_eq_true, Bool.and_eq_true, Bool.not_eq_true', decide_eq_false_iff_not, bne_iff_ne, beq_iff_eq, h3]
  omega

/-! ### What a WR leaves alone -/

/-- A WR changes channels, engine flags and volume, and configuration, and nothing else. -/
theorem writeReg_eq (s : State) (arg : Dword) (r : Reg) :
    writeReg s arg r =
      { s with ch := (writeReg s arg r).ch, eng := (writeReg s arg r).eng, cfg := (writeReg s arg r).cfg } := by
  cases r with
  | ch i f => rfl
  | eng e => cases e <;> rfl
  | reserved q => rfl

/-- A WR changes neither latched value (10_state.md R35). -/
theorem writeReg_latched (s : State) (arg : Dword) (r : Reg) :
    (writeReg s arg r).eng.sampleRate = s.eng.sampleRate ∧
      (writeReg s arg r).eng.channelMasterVolume = s.eng.channelMasterVolume := by
  cases r with
  | ch i f => exact ⟨rfl, rfl⟩
  | eng e => cases e <;> exact ⟨rfl, rfl⟩
  | reserved q => exact ⟨rfl, rfl⟩

/-! ### The step table (40_adpcm_decoder.md R110 to R114) -/

theorem stepTable_get (p : Params) (a : TableIndex) : (stepTable p)[a.val] = tableEntry p a.val := by simp [stepTable]

/-- The accumulator fits its width (40_adpcm_decoder.md R115). -/
theorem accumulatorAt_lt (width : Nat) (seed : Word) (a : Nat) : accumulatorAt width seed a < 2 ^ width := by
  cases a <;> exact Nat.mod_lt _ (Nat.two_pow_pos width)

/-- A table entry as a number (40_adpcm_decoder.md R110). -/
theorem tableEntry_toNat (p : Params) (a : Nat) :
    (tableEntry p a).toNat =
      if a = 3 then 0xA else if a = 4 then 0xB else if a = 88 then 0x7FFF
      else if 89 ≤ a then 0 else accumulatorAt p.accWidth p.adpcmSeed a / 2 ^ 16 % 2 ^ 16 := by
  unfold tableEntry
  split_ifs
  iterate 4 rfl
  rw [BitVec.toNat_ofNat]
  omega

/-- Every entry is in 0..0xFFFF, so it reads the same signed and unsigned. -/
theorem tableEntry_bounds (p : Params) (a : Nat) :
    0 ≤ (tableEntry p a).toInt ∧ (tableEntry p a).toInt ≤ 0xFFFF ∧
      (tableEntry p a).toInt = (tableEntry p a).toNat := by
  have hlt : (tableEntry p a).toNat ≤ 0xFFFF := by
    rw [tableEntry_toNat]
    split_ifs <;> omega
  have : (tableEntry p a).toInt = (tableEntry p a).toNat := BitVec.toInt_eq_toNat_of_lt (by omega)
  omega

end Sys2Proof.Machine
end

