-- ==== Sys2Proof/Laws/Exec.lean ====
section
/-! SUPPORT. What exec of each family can answer, said once: the inversion lemmas of the instructions that can do more than
one thing. -/

namespace Sys2Proof.Machine

variable {s t : State}

/-- A micro-operation that answers a next state had a call to act on. -/
theorem inCall_next {f : Run → Run} (h : s.inCall f = .next t) :
    ∃ c, s.call = some c ∧ t = { (f (c, s)).2 with call := some (f (c, s)).1 } := by
  unfold State.inCall at h
  split at h
  · cases h
  · rename_i c hc
    cases h
    exact ⟨c, hc, rfl⟩

theorem inCall_of_call {c : GenCall} (h : s.call = some c) (f : Run → Run) :
    s.inCall f = .next { (f (c, s)).2 with call := some (f (c, s)).1 } := by simp [State.inCall, h]

/-- What a sample micro-operation leaves alone, whatever call State holds. -/
theorem sampleRow_frame {fmt : Fmt} (h : s.inCall (sampleOp fmt) = .next t) :
    t.params = s.params ∧ t.port = s.port ∧ t.devOk = s.devOk ∧ t.ls = s.ls ∧ t.eng = s.eng ∧ t.cfg = s.cfg ∧
      t.table = s.table ∧ PlatformOnly s t := by
  obtain ⟨c, -, rfl⟩ := inCall_next h
  refine sampleOp_state (P := fun t => t.params = s.params ∧ t.port = s.port ∧ t.devOk = s.devOk ∧ t.ls = s.ls ∧
    t.eng = s.eng ∧ t.cfg = s.cfg ∧ t.table = s.table ∧ PlatformOnly s t)
    ⟨rfl, rfl, rfl, rfl, rfl, rfl, rfl, .refl s⟩ ?_ ?_ ?_
  · rintro u a ⟨h1, h2, h3, h4, h5, h6, h7, h8⟩
    exact ⟨by simpa, by simpa, by simpa, by simpa, by simpa, by simpa, by simpa, (h8.turn h1).congr rfl rfl⟩
  · rintro u a ⟨h1, h2, h3, h4, h5, h6, h7, h8⟩
    exact ⟨by simpa, by simpa, by simpa, by simpa, by simpa, by simpa, by simpa, (h8.turn h1).congr rfl rfl⟩
  · rintro u f ⟨h1, h2, h3, h4, h5, h6, h7, h8⟩
    exact ⟨by simpa, by simpa, by simpa, by simpa, by simpa, by simpa, by simpa, h8.congr (by simp) (by simp)⟩

/-- A boundary micro-operation changes the channels and the call. -/
theorem boundaryRow_eq {lm : LoopMode} (h : s.inCall (boundaryOp lm) = .next t) : t = { s with ch := t.ch, call := t.call } := by
  obtain ⟨c, -, rfl⟩ := inCall_next h
  have e : (boundaryOp lm (c, s)).2 = { s with ch := (boundaryOp lm (c, s)).2.ch } :=
    boundaryOp_state (P := fun u => u = { s with ch := u.ch }) rfl (fun _ _ _ => rfl) (fun _ => rfl)
  rw [e]

/-- A change that leaves the Memory Source and the waiting stores alone. -/
theorem PlatformOnly.same (hm : t.mem = s.mem) (hl : t.liveStores = s.liveStores) : PlatformOnly s t :=
  (PlatformOnly.refl s).congr hm hl

/-- The micro-operation a control word selects, run on the call State holds. -/
theorem exec_decodeSample (w : Word) (s : State) : exec (decodeSample w) s = s.inCall (sampleOp (decodeFmt w)) := by
  unfold decodeSample
  cases decodeFmt w <;> rfl

theorem exec_decodeBoundary (w : Word) (s : State) :
    exec (decodeBoundary w) s = s.inCall (boundaryOp (decodeLoopMode w)) := by
  unfold decodeBoundary
  cases decodeLoopMode w <;> rfl

theorem gen_next {id : ChannelId} {n : Nat} (h : exec (.gen id n) s = .next t) :
    (s.params.mixbufLen < n ∧ t = s) ∨
      (n ≤ s.params.mixbufLen ∧ s.eng.sampleRate ≠ 0 ∧ t = gen id n s) := by
  simp only [exec, execGen] at h
  by_cases h1 : s.params.mixbufLen < n
  · rw [if_pos h1] at h
    cases h
    exact .inl ⟨h1, rfl⟩
  · rw [if_neg h1] at h
    by_cases h2 : s.eng.sampleRate = 0
    · rw [if_pos h2] at h
      cases h
    · rw [if_neg h2] at h
      cases h
      exact .inr ⟨by omega, h2, rfl⟩

theorem exec_gen {id : ChannelId} {n : Nat} (hn : n ≤ s.params.mixbufLen) (hr : s.eng.sampleRate ≠ 0) :
    exec (.gen id n) s = .next (gen id n s) := by
  simp only [exec, execGen, if_neg (show ¬ s.params.mixbufLen < n by omega), if_neg hr]

theorem mix_next {b : Nat} (h : exec (.mix b) s = .next t) :
    (s.params.mixbufLen < b / 2 ∧ t = s) ∨
      (b / 2 ≤ s.params.mixbufLen ∧ s.eng.sampleRate ≠ 0 ∧ t = mixSlots (b / 2) s) := by
  simp only [exec, execMix] at h
  by_cases h1 : s.params.mixbufLen < slotsOfBytes b
  · rw [if_pos h1] at h
    cases h
    exact .inl ⟨h1, rfl⟩
  · rw [if_neg h1] at h
    by_cases h2 : s.eng.sampleRate = 0
    · rw [if_pos h2] at h
      cases h
    · rw [if_neg h2] at h
      cases h
      exact .inr ⟨Nat.le_of_not_lt h1, h2, rfl⟩

theorem exec_mix {b : Nat} (hn : b / 2 ≤ s.params.mixbufLen) (hr : s.eng.sampleRate ≠ 0) :
    exec (.mix b) s = .next (mixSlots (b / 2) s) := by
  simp only [exec, execMix, if_neg (show ¬ s.params.mixbufLen < slotsOfBytes b by unfold slotsOfBytes; omega), if_neg hr]
  rfl

/-- DMIX changes the output samples and the count of free values only, a reserved count included. -/
theorem dmix_next {n : Nat} (h : exec (.dmix n) s = .next t) :
    ∃ l k, t = { s with resp := { s.resp with samples := s.resp.samples ++ l }, freeCount := k } := by
  simp only [exec, execDmix] at h
  split at h
  · cases h
    exact ⟨[], s.freeCount, by simp⟩
  · cases h
    obtain ⟨l, k, e, -⟩ := dmixUpto_frame n s
    exact ⟨l, k, e⟩

theorem wr_next {r : Reg} {arg : Dword} (h : exec (.wr r arg) s = .next t) :
    storesIllegalFreq arg r = false ∧ t = writeReg s arg r := by
  simp only [exec, execWr] at h
  split at h
  · cases h
  · rename_i hf
    cases h
    exact ⟨by simpa using hf, rfl⟩

/-- ADH changes the ADPCM registers of its channel only. -/
theorem adh_next {id : ChannelId} (h : exec (.adh id) s = .next t) :
    t = s ∨ t = s.setChan id (loadHeader (s.chan id)) := by
  simp only [exec, execAdh] at h
  split at h
  · cases h
    exact .inr rfl
  · cases h
    exact .inl rfl

/-- ADX changes the ADPCM registers of its channel and returns a word. -/
theorem adx_next {id : ChannelId} {d : BitVec 4} (h : exec (.adx id d) s = .next t) :
    t = s ∨ ∃ w, t = (s.setChan id (expandStep (s.chan id) w d)).answer (.word (expandStep (s.chan id) w d).adpcmVal) := by
  simp only [exec, execAdx] at h
  split at h
  · split at h
    · cases h
    · cases h
      exact .inr ⟨_, rfl⟩
  · cases h
    exact .inl rfl

/-- The sixteen passes of a MIX are GEN sixteen times: what each keeps, all keep. -/
theorem genEach_state {P : State → Prop} {n : Nat} (hgen : ∀ id u, P u → P (gen id n u)) (ids : List ChannelId)
    (h : P s) : P (genEach ids n s) := by
  induction ids generalizing s with
  | nil => exact h
  | cons id l ih => exact ih (hgen id s h)

/-- What MIX does after its passes: samples, the count of free values, the step of `LS`. -/
theorem mixSlots_eq (n : Nat) (s : State) : ∃ l k, l.length = n ∧ mixSlots n s =
    ({ genEach channelOrder n s with
      resp := { (genEach channelOrder n s).resp with samples := (genEach channelOrder n s).resp.samples ++ l }
      freeCount := k } : State).firstPull := by
  obtain ⟨l, k, e, hl⟩ := dmixUpto_frame n (genEach channelOrder n s)
  exact ⟨l, k, hl, by rw [mixSlots, e]⟩

/-- The frame of a MIX, a reserved count included. -/
theorem mix_next_frame {b : Nat} (h : exec (.mix b) s = .next t) : MixFrame (b / 2) s t := by
  rcases mix_next h with ⟨-, rfl⟩ | ⟨-, -, rfl⟩
  · exact .refl _ _
  · have hf := (genEach_frame channelOrder (b / 2) s).1
    obtain ⟨l, k, -, e⟩ := mixSlots_eq (b / 2) s
    rw [e]
    refine hf.trans ⟨⟨?_, ?_, ?_, ?_, ?_, ?_, ?_, ?_⟩, fun id => ?_, fun x _ => ?_, 0, ?_, ?_, fun _ => rfl⟩ <;>
      first | (unfold State.firstPull; split <;> rfl) | skip
    unfold State.firstPull
    split <;> exact .refl _

theorem gen_next_frame {id : ChannelId} {n : Nat} (h : exec (.gen id n) s = .next t) : GenFrame id n s t := by
  rcases gen_next h with ⟨-, rfl⟩ | ⟨-, -, rfl⟩
  · exact .refl _ _ _
  · exact gen_frame _ _ _

end Sys2Proof.Machine
end

