-- ==== Sys2Proof/Laws/PerInstr.lean ====
section
/-! SUPPORT. The family TableRow: the word the encoder writes for an instruction has the fixed bits of its row of
spec/opcode_table.json (`word AND mask = match`), one lemma per constructor. -/

namespace Sys2Proof.Laws.TableRow

/-- "mask" of an instruction's row. -/
def mask (i : Instr) : Word :=
  match i.kind with
  | .cmd => 0xF0000000
  | .cntFmt => 0x60000000
  | .cntLm => 0x18000000

/-- "match" of an instruction's row. -/
def pattern : Instr → Word
  | .nop => 0x00000000
  | .reset => 0x10000000
  | .init => 0x20000000
  | .shutdown => 0x30000000
  | .wr _ _ => 0x40000000
  | .rd _ => 0x50000000
  | .gen _ _ => 0x60000000
  | .dmix _ => 0x70000000
  | .mix _ => 0x80000000
  | .tblinit => 0x90000000
  | .tblrd _ => 0xA0000000
  | .adh _ => 0xB0000000
  | .adx _ _ => 0xC0000000
  | .smpPcm8 => 0x00000000
  | .smpPcm16 => 0x20000000
  | .smpAdpcm => 0x40000000
  | .smpPsg => 0x60000000
  | .bndNone => 0x00000000
  | .bndLoop => 0x08000000
  | .bndStop => 0x10000000
  | .bndRsvd => 0x18000000

/-- The fixed bits of the row stand in the encoded word. -/
def Statement (i : Instr) : Prop := (encode i).word &&& mask i = pattern i

/-- The fixed bits of a command word are its opcode, whatever the operand. -/
theorem commandWord_fixed (op : BitVec 4) (operand : BitVec 28) :
    commandWord op operand &&& 0xF0000000 = commandWord op 0 := by
  have e : (0xF0000000 : Word) = BitVec.allOnes 4 ++ (0 : BitVec 28) := by decide
  rw [e]
  apply BitVec.eq_of_getLsbD_eq
  intro i hi
  simp only [commandWord, BitVec.getLsbD_and, BitVec.getLsbD_append, BitVec.getLsbD_allOnes]
  by_cases h : i < 28
  · simp [h]
  · simp [h, show i - 28 < 4 by omega]

theorem nop : Statement .nop := commandWord_fixed 0x0 _
theorem reset : Statement .reset := commandWord_fixed 0x1 _
theorem init : Statement .init := commandWord_fixed 0x2 _
theorem shutdown : Statement .shutdown := commandWord_fixed 0x3 _
theorem wr (r : Reg) (arg : Dword) : Statement (.wr r arg) := commandWord_fixed 0x4 _
theorem rd (r : Reg) : Statement (.rd r) := commandWord_fixed 0x5 _
theorem gen (id : ChannelId) (n : Nat) : Statement (.gen id n) := commandWord_fixed 0x6 _
theorem dmix (n : Nat) : Statement (.dmix n) := commandWord_fixed 0x7 _
theorem mix (byteLength : Nat) : Statement (.mix byteLength) := commandWord_fixed 0x8 _
theorem tblinit : Statement .tblinit := commandWord_fixed 0x9 _
theorem tblrd (a : TableIndex) : Statement (.tblrd a) := commandWord_fixed 0xA _
theorem adh (id : ChannelId) : Statement (.adh id) := commandWord_fixed 0xB _
theorem adx (id : ChannelId) (d : BitVec 4) : Statement (.adx id d) := commandWord_fixed 0xC _
theorem smpPcm8 : Statement .smpPcm8 := by unfold Statement; decide
theorem smpPcm16 : Statement .smpPcm16 := by unfold Statement; decide
theorem smpAdpcm : Statement .smpAdpcm := by unfold Statement; decide
theorem smpPsg : Statement .smpPsg := by unfold Statement; decide
theorem bndNone : Statement .bndNone := by unfold Statement; decide
theorem bndLoop : Statement .bndLoop := by unfold Statement; decide
theorem bndStop : Statement .bndStop := by unfold Statement; decide
theorem bndRsvd : Statement .bndRsvd := by unfold Statement; decide

end Sys2Proof.Laws.TableRow
end

