-- ==== Sys2Proof/Tests/Slice0.lean ====
section
/-! SUPPORT. Own tests. Expected values are those of spec/95_test_vectors.md (V1 to V30, P1 to P5) and of the tables of the
section files; the witness theorems at the end show states and operands that meet the hypotheses of each obligation. -/

namespace Sys2Proof.Tests

open Sys2Proof.Machine

set_option Elab.async false

/-! ## WellFormed refuses what no encoding holds -/

/-- `n` has 24 bits (30_encoding.md R92). -/
theorem test_wf_gen_count : (Instr.gen 0 (2 ^ 24)).wf = false ∧ (Instr.gen 0 (2 ^ 24 - 1)).wf = true := by decide

theorem test_wf_dmix_count : (Instr.dmix (2 ^ 24)).wf = false ∧ (Instr.dmix (2 ^ 24 - 1)).wf = true := by decide

/-- `byte_length` has 28 bits (30_encoding.md R92). -/
theorem test_wf_mix_length : (Instr.mix (2 ^ 28)).wf = false ∧ (Instr.mix (2 ^ 28 - 1)).wf = true := by decide

/-- An index that names a register is not reserved (10_state.md R41). -/
theorem test_wf_reserved_wr : (Instr.wr (.reserved 0x105) 0).wf = false ∧ (Instr.wr (.reserved 0x106) 0).wf = true := by
  decide

theorem test_wf_reserved_rd : (Instr.rd (.reserved 0x00C)).wf = false ∧ (Instr.rd (.reserved 0x00D)).wf = true := by
  decide

/-! ## Decoding: words written from 30_encoding.md R92, R93, R100 -/

theorem test_decode_nop : decode 0b0000_0000_0000_0000_0000_0000_0000_0000 0 = .ok .nop := by decide
theorem test_decode_reset : decode 0b0001_0000_0000_0000_0000_0000_0000_0000 0 = .ok .reset := by decide
theorem test_decode_init : decode 0b0010_0000_0000_0000_0000_0000_0000_0000 0 = .ok .init := by decide
theorem test_decode_shutdown : decode 0b0011_0000_0000_0000_0000_0000_0000_0000 0 = .ok .shutdown := by decide
/-- V28: `WR ch3.VOLUME`, the channel in bits 7:4, the field in bits 3:0. -/
theorem test_decode_wr : decode 0b0100_0000_0000_0000_0000_0000_0011_0110 0x7F = .ok (.wr (.ch 3 .volume) 0x7F) := by
  decide
/-- P1: `RD eng.LIFECYCLE`, bit 8 set. -/
theorem test_decode_rd : decode 0b0101_0000_0000_0000_0000_0001_0000_0101 0 = .ok (.rd (.eng .lifecycle)) := by decide
/-- The channel in bits 3:0, the count in bits 27:4. -/
theorem test_decode_gen : decode 0b0110_0000_0000_0000_0000_0000_0100_1001 0 = .ok (.gen 9 4) := by decide
theorem test_decode_dmix : decode 0b0111_0000_0000_0000_0000_0000_0010_0000 0 = .ok (.dmix 2) := by decide
theorem test_decode_mix : decode 0b1000_0000_0000_0000_0000_0000_0000_1000 0 = .ok (.mix 8) := by decide
theorem test_decode_tblinit : decode 0b1001_0000_0000_0000_0000_0000_0000_0000 0 = .ok .tblinit := by decide
/-- P4: `TBLRD 88`. -/
theorem test_decode_tblrd : decode 0b1010_0000_0000_0000_0000_0000_0101_1000 0 = .ok (.tblrd 88) := by decide
theorem test_decode_adh : decode 0b1011_0000_0000_0000_0000_0000_0000_0101 0 = .ok (.adh 5) := by decide
/-- The channel in bits 3:0, the code in bits 7:4. -/
theorem test_decode_adx : decode 0b1100_0000_0000_0000_0000_0000_0111_0000 0 = .ok (.adx 0 7) := by decide
/-- V30: the reserved opcodes. -/
theorem test_decode_reserved :
    decode 0xD0000000 0 = .error (.reservedCommand 0xD) ∧ decode 0xE1234567 0 = .error (.reservedCommand 0xE) ∧
    decode 0xFFFFFFFF 0 = .error (.reservedCommand 0xF) := by decide
theorem test_decode_smpPcm8 : decodeSample 0b1_00_11_000000000000000000000000000 = .smpPcm8 := by decide
theorem test_decode_smpPcm16 : decodeSample 0b1_01_00_000000000000000000000000000 = .smpPcm16 := by decide
theorem test_decode_smpAdpcm : decodeSample 0b1_10_00_000000000000000000000000000 = .smpAdpcm := by decide
theorem test_decode_smpPsg : decodeSample 0b1_11_00_000000000000000000000000000 = .smpPsg := by decide
theorem test_decode_bndNone : decodeBoundary 0b1_11_00_000000000000000000000000000 = .bndNone := by decide
theorem test_decode_bndLoop : decodeBoundary 0b1_00_01_000000000000000000000000000 = .bndLoop := by decide
theorem test_decode_bndStop : decodeBoundary 0b1_00_10_000000000000000000000000000 = .bndStop := by decide
theorem test_decode_bndRsvd : decodeBoundary 0b1_00_11_000000000000000000000000000 = .bndRsvd := by decide

/-- The encodings of R100 and of the programs P1 and P2. -/
theorem test_encode_words :
    (encode (.gen 0 4)).word = 0x60000040 ∧ (encode (.mix 10)).word = 0x8000000A ∧
    (encode (.wr (.eng .cfgVolume) 200)).word = 0x40000111 ∧ (encode (.wr (.ch 0 .enable) 0)).word = 0x4000000C ∧
    (encode .bndStop).word = 0x10000000 ∧ (encode .smpPcm16).word = 0x20000000 := by decide

/-! ## States of the vectors -/

/-- The common conventions of 95_test_vectors.md: rate 44100, configuration volume 128, main volume 127. -/
def base : State := { State.reset with eng := { State.reset.eng with mainVolume := 127 } }

/-- The same with the ADPCM extension. -/
def expanding : State := { base with params := { base.params with adpcmExpand := true } }

/-- What `CH.START` leaves (30_encoding.md R101), at byte position `src`. -/
def started (cnt src samples loopStart len : Word) (volume : BitVec 7) (freq : Dword) : Channel :=
  { Channel.zero with
    cnt := cnt
    dataSrc := src
    dataPos := src
    samples := samples
    loopStart := loopStart
    len := len
    volume := volume
    freq := freq
    playing := true }

/-- Bytes of the Memory Source from an address on. -/
def bytesAt (a : Nat) (bytes : List Byte) : Memory := bytes.zipIdx.map fun p => (a + p.2, p.1)

/-- The base state with channel 0 and a memory. -/
def playing (c : Channel) (m : Memory) : State := { base.setChan 0 c with mem := m }

/-- A property of the next state of an instruction. -/
def after (i : Instr) (s : State) (f : State → Bool) : Bool :=
  match exec i s with
  | .next t => f t
  | _ => false

/-- The slots of the mix buffer that hold a value, as integers. -/
def slotValues (s : State) : List Int := s.acc.map fun e => e.2.toInt

/-- The position, the source, the budget and the flags of channel 0. -/
def position (s : State) : Word × Word × Word × Bool × Word :=
  ((s.chan 0).dataPos, (s.chan 0).dataSrc, (s.chan 0).samples, (s.chan 0).playing, (s.chan 0).cnt)

/-- Bytes 1, 2, ..., 32. -/
def counting : List Byte := (List.range 32).map fun i => BitVec.ofNat 8 (i + 1)

/-! ## Commands: one small test or two each -/

/-- V30: a NOP with operand bits set runs as NOP. -/
theorem test_step_nop :
    step (State.reset.withFetchWord 32 0x00ABCDEF) = .next State.reset := by rfl

/-- R201: RESET closes a running device and leaves UNINIT. -/
theorem test_reset : after .reset { base with ls := .running } (fun t =>
    t.ls == .uninit && t.eng.mainVolume == 0 && t.resp.device == [.closeDevice]) = true := by decide

/-- V29: INIT with `dev_ok = true` returns 1 and opens a mono 16-bit device. -/
theorem test_init_ok : after .init { base with devOk := true } (fun t =>
    t.ls == .initialized && t.resp.result == some (.bit true) &&
    t.resp.device == [.openDevice 44100 1 16 4096]) = true := by decide

/-- V29: INIT with `dev_ok = false` returns 0 and leaves UNINIT. -/
theorem test_init_failed : after .init { base with ls := .running } (fun t =>
    t.ls == .uninit && t.resp.result == some (.bit false) &&
    t.resp.device == [.closeDevice, .openDevice 44100 1 16 4096]) = true := by decide

/-- V29: SHUTDOWN. -/
theorem test_shutdown : after .shutdown { base with ls := .initialized } (fun t =>
    t.ls == .shutdown && t.resp.device == [.closeDevice]) = true := by decide

/-- V28: `VOLUME` keeps seven bits, `CFG_VOLUME` saturates its low eight. -/
theorem test_wr_widths :
    after (.wr (.ch 3 .volume) 255) base (fun t => (t.chan 3).volume == 127) = true ∧
    after (.wr (.ch 3 .volume) 128) base (fun t => (t.chan 3).volume == 0) = true ∧
    after (.wr (.eng .cfgVolume) 200) base (fun t => t.cfg.volume == 128) = true ∧
    after (.wr (.eng .cfgVolume) 300) base (fun t => t.cfg.volume == 44) = true := by decide

/-- V28: `ENABLE` is bit 31 of `CNT`; a NaN is refused. -/
theorem test_wr_enable_and_freq :
    after (.wr (.ch 0 .enable) 0) (base.setChan 0 { Channel.zero with cnt := 0xFFFFFFFF }) (fun t =>
      (t.chan 0).cnt == 0x7FFFFFFF) = true ∧
    exec (.wr (.ch 0 .freq) 0x7FF8000000000000) base = .refused .illegalFreqPattern := by
  constructor
  · decide
  · rfl

/-- V28: `ADPCM_INDEX` reads as its 32-bit pattern; a reserved index reads 0. -/
theorem test_rd :
    after (.rd (.ch 0 .adpcmIndex)) (base.setChan 0 { Channel.zero with adpcmIndex := 0xFFFFFFFF }) (fun t =>
      t.resp.result == some (.dword 0x00000000FFFFFFFF)) = true ∧
    (decode 0x500001FF 0 = .ok (.rd (.reserved 0x1FF))) ∧
    after (.rd (.reserved 0x1FF)) base (fun t => t.resp.result == some (.dword 0)) = true := by decide

/-- V12: PCM8 with loop mode 1; the index is not rebased at the loop. -/
theorem test_gen_loop :
    after (.gen 0 8) (playing (started 0x88000000 0x1000 4 1 2 127 0x40E5888000000000) (bytesAt 0x1000 counting)) (fun t =>
      slotValues t == [256, 512, 768, 1024, 1280, 2560, 2816, 3072] &&
      position t == (0x100C, 0x1004, 8, true, 0x88000000)) = true := by decide +kernel

/-- V20: addresses and the boundary wrap. -/
theorem test_gen_wrap :
    after (.gen 0 4)
      (playing { started 0x80000000 0xFFFFFFF0 8 0 0 127 0x40E5888000000000 with dataPos := 0xFFFFFFFE }
        [(0, 3), (1, 4), (0xFFFFFFFE, 1), (0xFFFFFFFF, 2)]) (fun t =>
      slotValues t == [256, 512, 768, 1024] && position t == (2, 0xFFFFFFF0, 8, true, 0x80000000) &&
      t.resp.reads == [.byte 0xFFFFFFFE, .byte 0xFFFFFFFF, .byte 0, .byte 1]) = true := by decide +kernel

/-- V25: DMIX truncates toward zero. -/
theorem test_dmix :
    after (.dmix 5) { base with acc := [(0, 40960), (1, -15), (2, -17), (3, -524288), (4, 1000000)] } (fun t =>
      t.resp.samples.map BitVec.toInt == [2560, 0, -1, -32768, -3036]) = true := by decide

/-- P2, step 11: MIX of a one-shot sample. -/
theorem test_mix :
    after (.mix 10) (playing (started 0x90000000 0x1000 2 0 0 127 0x40E5888000000000)
      (bytesAt 0x1000 [0x0A, 0xF6, 0x0A, 0xF6, 0x7F])) (fun t =>
      t.resp.samples.map BitVec.toInt == [160, -160, 160, -2048, -2048] &&
      position t == (0x1003, 0x1000, 2, false, 0x10000000)) = true := by decide +kernel

/-- R113: entries of the default table, the overrides included. -/
theorem test_tblinit :
    after .tblinit base (fun t =>
      t.table.toList.take 12 == [7, 8, 9, 10, 11, 12, 13, 14, 16, 17, 19, 21] &&
      (t.table.toList.drop 85).take 5 == [24623, 27086, 29794, 32767, 0]) = true := by decide +kernel

/-- V26: a seed whose accumulator wraps. -/
theorem test_tblinit_wrap :
    [0, 1, 2, 3, 4].map (tableEntry { Params.default with adpcmSeed := 0xFFFFFFFF }) =
      [65535, 6553, 7208, 10, 11] := by decide +kernel

/-- R115: with the default seed a wider accumulator shows in no entry (R113: T[86] to T[89]). -/
theorem test_tblinit_wide :
    [86, 87, 88, 89].map (tableEntry { Params.default with accWidth := 40 }) = [27086, 29794, 32767, 0] := by decide +kernel

/-- V26: `TBLRD 87`. -/
theorem test_tblrd : after (.tblrd 87) base (fun t => t.resp.result == some (.word 29794)) = true := by decide +kernel

/-- V27: ADH sign-extends the value and clamps the index. -/
theorem test_adh :
    after (.adh 2) (expanding.setChan 2 { Channel.zero with adpcmHeader := 0x007FFFFF }) (fun t =>
      (t.chan 2).adpcmVal == -1 && (t.chan 2).adpcmIndex == 88) = true := by decide

/-- V27: (11, 8) and code 12 give (-7, 10). -/
theorem test_adx :
    after (.adx 1 12) (expanding.setChan 1 { Channel.zero with adpcmVal := 11, adpcmIndex := 8 }) (fun t =>
      (t.chan 1).adpcmVal == -7 && (t.chan 1).adpcmIndex == 10 && t.resp.result == some (.word (-7))) = true := by
  decide +kernel

/-- V27: (32760, 88) and code 7 give (32767, 88). -/
theorem test_adx_clamp :
    after (.adx 1 7) (expanding.setChan 1 { Channel.zero with adpcmVal := 32760, adpcmIndex := 88 }) (fun t =>
      (t.chan 1).adpcmVal == 32767 && (t.chan 1).adpcmIndex == 88) = true := by decide +kernel

/-! ## Micro-operations, on a call that State holds -/

/-- A call on channel 0 at slot 2. -/
def callAt (fmt : Fmt) (lm : LoopMode) (addr : Word) (vol : Rat) : GenCall where
  id := 0
  ratio := 1
  vol := vol
  sil := -32768 * vol
  fmt := fmt
  lm := lm
  x := 2
  played := 0
  addr := addr

/-- A state with a call in progress, slot 2 holding 2560, and bytes at 0x1000. -/
def inCall (fmt : Fmt) (addr : Word) (vol : Rat) : State :=
  { playing (started 0x80000000 0x1000 4 1 3 127 0x40E5888000000000) (bytesAt 0x1000 [0x34, 0x12, 0xCC, 0xED, 0x80]) with
    acc := [(2, 2560)]
    call := some (callAt fmt .none addr vol) }

/-- 41_resampler_fetch.md R135: byte 0x80 is -128; the whole slot is scaled. -/
theorem test_smpPcm8 : after .smpPcm8 (inCall .pcm8 0x1004 (1 / 2)) (fun t =>
    slotValues t == [-15104] && t.resp.reads == [.byte 0x1004]) = true := by decide +kernel

/-- V8: an odd address is forced even. -/
theorem test_smpPcm16 : after .smpPcm16 (inCall .pcm16 0x1003 1) (fun t =>
    slotValues t == [-2100] && t.resp.reads == [.half 0x1002]) = true := by decide +kernel

/-- V2: -32768 * 100/127 is -25801.57; 2560 plus it truncates to -23241. -/
theorem test_smpAdpcm : after .smpAdpcm (inCall .adpcm 0x1003 (100 / 127)) (fun t =>
    slotValues t == [-23241] && t.resp.reads == []) = true := by decide +kernel

theorem test_smpPsg : after .smpPsg (inCall .psg 0x1003 (100 / 127)) (fun t =>
    slotValues t == [-23241] && t.resp.reads == []) = true := by decide +kernel

theorem test_bndNone : after .bndNone (inCall .pcm8 0x1004 1) (fun t =>
    position t == (0x1000, 0x1000, 4, true, 0x80000000)) = true := by decide +kernel

/-- V12 and V13: the units are 4 and 2. -/
theorem test_bndLoop :
    after .bndLoop (inCall .pcm8 0x1004 1) (fun t => position t == (0x1004, 0x1004, 12, true, 0x80000000)) = true ∧
    after .bndLoop (inCall .pcm16 0x1004 1) (fun t => position t == (0x1002, 0x1002, 6, true, 0x80000000)) = true := by
  decide +kernel

/-- V17: no unit, no action. -/
theorem test_bndLoop_adpcm : after .bndLoop (inCall .adpcm 0x1004 1) (fun t =>
    position t == (0x1000, 0x1000, 4, true, 0x80000000)) = true := by decide +kernel

/-- V10: `playing` and `cnt[31]` are cleared. -/
theorem test_bndStop : after .bndStop (inCall .psg 0x1004 1) (fun t =>
    position t == (0x1000, 0x1000, 4, false, 0)) = true := by decide +kernel

theorem test_bndRsvd : after .bndRsvd (inCall .pcm8 0x1004 1) (fun t =>
    position t == (0x1000, 0x1000, 4, true, 0x80000000)) = true := by decide +kernel

/-- 10_state.md R31: the rule's examples, and negative zero. -/
theorem test_fval :
    [0x40E5888000000000, 0x40E0000000000000, 0x3FF0000000000000, 0, 0x8000000000000000].map fval =
      [44100, 32768, 1, 0, 0] := by decide +kernel

/-! ## Witnesses: states and operands that meet the hypotheses of each obligation -/

/-- Every hypothesis of the kind "exec answers next" is met: one instruction of each class on the states of this file. -/
theorem witness_exec_answers :
    (∃ t, exec .nop base = .next t) ∧ (∃ t, exec .reset base = .next t) ∧
    (∃ t, exec (.wr (.eng .cfgVolume) 255) base = .next t) ∧ (∃ t, exec (.gen 3 4) base = .next t) ∧
    (∃ t, exec (.mix 8) base = .next t) ∧ (∃ t, exec .smpPcm8 (inCall .pcm8 0x1004 1) = .next t) ∧
    ∃ t, exec (.adx 1 7) expanding = .next t :=
  ⟨⟨_, rfl⟩, ⟨_, rfl⟩, ⟨_, rfl⟩, ⟨_, rfl⟩, ⟨_, rfl⟩, ⟨_, rfl⟩, ⟨_, rfl⟩⟩

/-- ResetClosesTheDeviceAndKeepsConfiguration, TblinitFollowsTheRecurrence, InitOpensTheDeviceAndReports and the others that
name an opcode: the least and the greatest word of it. -/
theorem witness_opcode_words :
    (0x10000000 : Word).toNat / 2 ^ 28 = 1 ∧ (0x1FFFFFFF : Word).toNat / 2 ^ 28 = 1 ∧
    (0x20000000 : Word).toNat / 2 ^ 28 = 2 ∧ (0x30000000 : Word).toNat / 2 ^ 28 = 3 ∧
    (0x5FFFFFFF : Word).toNat / 2 ^ 28 = 5 ∧ (0x7FFFFFFF : Word).toNat / 2 ^ 28 = 7 ∧
    (0x8FFFFFFF : Word).toNat / 2 ^ 28 = 8 ∧ (0x9FFFFFFF : Word).toNat / 2 ^ 28 = 9 ∧
    (0xAFFFFFFF : Word).toNat / 2 ^ 28 = 0xA := by decide

/-- LegalFrequencyPatternHasItsExactValue: both exponent clauses at their boundaries, negative zero in the first. -/
theorem witness_legalFreq :
    (legalFreq 0 = true ∧ ((0 : Dword).extractLsb' 52 11).toNat = 0) ∧
    (legalFreq 0x8000000000000000 = true ∧ ((0x8000000000000000 : Dword).extractLsb' 52 11).toNat = 0) ∧
    (legalFreq 0x000FFFFFFFFFFFFF = true ∧ ((0x000FFFFFFFFFFFFF : Dword).extractLsb' 52 11).toNat = 0) ∧
    (legalFreq 0x0010000000000000 = true ∧ ((0x0010000000000000 : Dword).extractLsb' 52 11).toNat = 1) ∧
    (legalFreq 0x7FEFFFFFFFFFFFFF = true ∧ ((0x7FEFFFFFFFFFFFFF : Dword).extractLsb' 52 11).toNat = 2046) := by decide

/-- FreqStoresLegalPatternsAndRefusesOthers: the legal clause at both ends of its range and at negative zero, the other
clause at infinity, at the least negative value and at the top. -/
theorem witness_freq_patterns :
    let legal := fun p : Dword => (p.toNat < 2 ^ 63 ∧ p.toNat / 2 ^ 52 ≠ 0x7FF) ∨ p.toNat = 2 ^ 63
    legal 0 ∧ legal 0x7FEFFFFFFFFFFFFF ∧ legal 0x8000000000000000 ∧ ¬ legal 0x7FF0000000000000 ∧
    ¬ legal 0x7FFFFFFFFFFFFFFF ∧ ¬ legal 0x8000000000000001 ∧ ¬ legal 0xFFFFFFFFFFFFFFFF := by decide

/-- WriteThenReadGivesTheNamedBits: a register of each kind, and `FREQ` with a legal pattern. -/
theorem witness_wr :
    storesIllegalFreq 0xFFFFFFFFFFFFFFFF (.ch 15 .cnt) = false ∧ storesIllegalFreq 0x40E5888000000000 (.ch 0 .freq) = false ∧
    storesIllegalFreq 0xFFFFFFFFFFFFFFFF (.eng .lifecycle) = false ∧
    storesIllegalFreq 0xFFFFFFFFFFFFFFFF (.reserved 0x1FF) = false := by decide

/-- WriteChangesNothingElse: a write that completes, and registers that share nothing with the one written. -/
theorem witness_wr_frame :
    (∃ t, exec (.wr (.ch 3 .enable) 1) base = .next t) ∧ Reg.shares (.ch 3 .enable) (.ch 4 .cnt) = false ∧
    Reg.shares (.ch 3 .enable) (.ch 3 .playing) = false ∧ Reg.shares (.eng .soundOn) (.eng .stereo) = false :=
  ⟨⟨_, rfl⟩, by decide, by decide, by decide⟩

/-- NoInstructionChangesParametersOrPort, OnlyTheHostStartsAChannel: a command, one channel stopped, one starved. -/
theorem witness_stopped_and_starved :
    let s := base.setChan 1 (started 0x88000000 0x1000 0 0 0 127 0)
    (∃ t, exec (.mix 8) s = .next t) ∧ (Instr.mix 8).kind = .cmd ∧ (s.chan 0).playing = false ∧
    (s.chan 1).playing = true ∧ (s.chan 1).samples = 0 ∧ (∀ r arg, Instr.mix 8 ≠ .wr r arg) :=
  ⟨⟨_, rfl⟩, rfl, rfl, rfl, rfl, nofun⟩

/-- BlockNeverWritesMemory: a stable memory source, and one with a store of the platform waiting. -/
theorem witness_memStable :
    base.params.memStable = true ∧ (∃ t, exec (.gen 0 4) base = .next t) ∧
    ∃ t, exec (.gen 0 4) { base with
      params := { base.params with memStable := false }, liveStores := [[⟨0x1000, 5⟩]] } = .next t :=
  ⟨rfl, ⟨_, rfl⟩, ⟨_, rfl⟩⟩

/-- HalfwordsAreLittleEndian: the least and the greatest even address. -/
theorem witness_even : (0 : Word).getLsbD 0 = false ∧ (0xFFFFFFFE : Word).getLsbD 0 = false := by decide

/-- PlatformStoreIsReadBack: a store at the port, over an empty memory. -/
theorem witness_store : ∃ (s : State) (x : Store) (rest : List Arrival), s.port = .store x :: rest ∧ s.mem.wf :=
  ⟨{ base with port := [.store ⟨0xFFFFFFFF, 7⟩] }, ⟨0xFFFFFFFF, 7⟩, [], rfl, List.Pairwise.nil, nofun⟩

/-- DecodeOfEncodeIsTheInstruction and DecoderAcceptsExactlyTheTable: well-formed instructions at the ends of their
operand ranges, of each format; the first reserved word. -/
theorem witness_wellFormed :
    (Instr.gen 15 (2 ^ 24 - 1)).wf = true ∧ (Instr.mix (2 ^ 28 - 1)).wf = true ∧ (Instr.rd (.reserved 0x1FF)).wf = true ∧
    Instr.smpPsg.wf = true ∧ Instr.bndRsvd.wf = true ∧ decodeAs .cntLm 0x98000000 0 = .ok .bndRsvd ∧
    decode 0xCFFFFFFF 0 = .ok (.adx 15 15) ∧ decode 0xD0000000 0 = .error (.reservedCommand 0xD) := by decide

/-- UnnamedOperandBitsAreIgnored: two words of one command that differ in an unnamed bit, with other arguments; and of WR,
where the argument is named. -/
theorem witness_unnamed_bits :
    (0xA0000058 : Word) &&& (0xF0000000 ||| namedOperandBits 0xA) = 0xAFFFFFD8 &&& (0xF0000000 ||| namedOperandBits 0xA) ∧
    (0x40000036 : Word) &&& (0xF0000000 ||| namedOperandBits 4) = 0x4FFFFE36 &&& (0xF0000000 ||| namedOperandBits 4) ∧
    (0x40000036 : Word).toNat / 2 ^ 28 = 4 := by decide

/-- OperandsAreTheBitsTheTableNames: one word of each opcode named there. -/
theorem witness_operand_words :
    (0x0FFFFFFF : Word).toNat / 2 ^ 28 = 0x0 ∧ (0x4FFFFFFF : Word).toNat / 2 ^ 28 = 0x4 ∧
    (0x6FFFFFFF : Word).toNat / 2 ^ 28 = 0x6 ∧ (0x7FFFFFFF : Word).toNat / 2 ^ 28 = 0x7 ∧
    (0x8FFFFFFF : Word).toNat / 2 ^ 28 = 0x8 ∧ (0xAFFFFFFF : Word).toNat / 2 ^ 28 = 0xA ∧
    (0xBFFFFFFF : Word).toNat / 2 ^ 28 = 0xB ∧ (0xCFFFFFFF : Word).toNat / 2 ^ 28 = 0xC := by decide

/-- StepRunsTheDecodedInstruction and StepIgnoresReservedCommandsAndIdles: a command at the port that decodes, a reserved one
at the boundary, and an empty port. -/
theorem witness_step :
    (State.reset.withFetchWord 32 0x60000040).port =
      .command { cmd := 0x60000040, arg := 0, devOk := false } :: [] ∧
    decode 0x60000040 0 = .ok (.gen 0 4) ∧
    (State.reset.withFetchWord 32 0xD0000000).port =
      .command { cmd := 0xD0000000, arg := 0, devOk := false } :: [] ∧
    0xD0000000 ≤ (0xD0000000 : Word).toNat ∧ State.reset.port = [] := by decide

/-- TblinitFollowsTheRecurrence, StepTableFactsForEverySeed, TblinitAtEveryAccumulatorWidth: the width of the rule, which is
also the least of its range, and a wider one. -/
theorem witness_accWidth :
    base.params.accWidth = 32 ∧ 32 ≤ Params.default.accWidth ∧
    32 ≤ ({ Params.default with accWidth := 64 } : Params).accWidth ∧
    ({ Params.default with accWidth := 64 } : Params).adpcmSeed = Params.default.adpcmSeed := by decide

/-- TblinitFollowsTheRecurrence, StepTableFactsForEverySeed: every clause has an index at its boundary. -/
theorem witness_table_clauses :
    (2 : TableIndex).val ≠ 3 ∧ (5 : TableIndex).val ≠ 4 ∧ (87 : TableIndex).val < 89 ∧ 89 ≤ (89 : TableIndex).val ∧
    89 ≤ (127 : TableIndex).val := by decide

/-- AdhLoadsTheHeader, and its complement in NopAndReservedOperandsChangeNothing. -/
theorem witness_extension : expanding.params.adpcmExpand = true ∧ base.params.adpcmExpand = false := by decide

/-- AdxExpandsExactly: the table TBLINIT leaves, an index at either end of its range. -/
theorem witness_adx :
    let s := (expanding.setChan 1 { Channel.zero with adpcmIndex := 127 })
    s.params.adpcmExpand = true ∧ s.table = stepTable s.params ∧ (s.chan 0).adpcmIndex.toNat = 0 ∧
    (s.chan 1).adpcmIndex.toNat = 127 := ⟨rfl, rfl, rfl, rfl⟩

/-- The micro-operations: a call in progress over a stable memory source, for each format; the result fits. -/
theorem witness_call :
    (∀ f : Fmt, (inCall f 0x1004 1).call = some (callAt f .none 0x1004 1)) ∧
    (inCall .pcm8 0x1004 1).params.memStable = true ∧
    fitsI32 (trunc (((((inCall .pcm8 0x1004 1).slot 2 + ((inCall .pcm8 0x1004 1).readByte 0x1004).toInt * 256 : Int) : Rat)) * 1))
      = true ∧
    fitsI32 (trunc (((((inCall .pcm16 0x1003 1).slot 2 + ((inCall .pcm16 0x1003 1).readHalf 0x1002).toInt : Int) : Rat)) * 1))
      = true ∧
    fitsI32 (trunc (((inCall .adpcm 0x1003 1).slot 2 : Rat) + -32768 * 1)) = true :=
  ⟨fun f => by cases f <;> rfl, rfl, by decide +kernel, by decide +kernel, by decide +kernel⟩

/-- BndLoopReloadsPositionAndBudget: each format. -/
theorem witness_bndLoop :
    (callAt .pcm8 .loop 0 1).fmt = .pcm8 ∧ (callAt .pcm16 .loop 0 1).fmt = .pcm16 ∧
    (callAt .adpcm .loop 0 1).fmt = .adpcm ∧ (callAt .psg .loop 0 1).fmt = .psg := by decide

/-- PlayedIndexRunsTheDecodedMicroOperations: latched from a control word, no call in State, an address just below the
boundary 0x1004 and one on it. -/
theorem witness_playIndex :
    let s := playing (started 0xA8000000 0x1000 4 1 3 127 0x40E5888000000000) []
    (callAt .pcm16 .loop 0 1).fmt = decodeFmt 0xA8000000 ∧ (callAt .pcm16 .loop 0 1).lm = decodeLoopMode 0xA8000000 ∧
    s.call = none ∧ (0x1003 : Word).toNat < ((s.chan 0).dataSrc.toNat + (s.chan 0).samples.toNat) % 2 ^ 32 ∧
    ((s.chan 0).dataSrc.toNat + (s.chan 0).samples.toNat) % 2 ^ 32 ≤ (0x1004 : Word).toNat := by decide

/-- GenCompletesAndWritesOnlyItsList, GenRunsItsIndicesInOrder, ZeroLengthGenOnlyForcesPcm16Even, the DMIX and MIX statements:
the least and the greatest count, a rate that is not 0, legal volumes; counts above. -/
theorem witness_counts :
    0 ≤ base.params.mixbufLen ∧ 4096 ≤ base.params.mixbufLen ∧ base.params.mixbufLen < 4097 ∧ 8193 / 2 = 4096 ∧
    8194 / 2 = 4097 ∧ base.eng.sampleRate ≠ 0 ∧ base.eng.channelMasterVolume.toNat ≤ 128 ∧
    (∃ t, exec (.gen 0 4096) base = .next t) ∧ ∃ t, exec (.mix 8193) base = .next t :=
  ⟨by decide, by decide, by decide, by decide, by decide, by decide, by decide, ⟨_, rfl⟩, ⟨_, rfl⟩⟩

/-- GenRunsItsIndicesInOrder: the playing test holds for a started channel and fails for a stopped and a starved one; the
two clauses of the final position. -/
theorem witness_playing_test :
    (started 0xA0000000 0x1000 4 0 0 127 0).samples ≠ 0 ∧ (started 0xA0000000 0x1000 4 0 0 127 0).playing = true ∧
    Channel.zero.playing = false ∧ (started 0 0x1000 0 0 0 127 0).samples = 0 ∧
    decodeFmt 0xA0000000 = .pcm16 ∧ decodeFmt 0x80000000 ≠ .pcm16 := by decide

/-- SilentPassAddsTheSilenceValue: a stopped channel 0, and a stopped channel 1 above a slot that holds a value. -/
theorem witness_silent :
    let s := { base with acc := [(0, 2560)] }
    3 ≤ s.params.mixbufLen ∧ s.eng.sampleRate ≠ 0 ∧ (s.chan 0).playing = false ∧ (s.chan 1).playing = false ∧
    sparseGet s.acc 0 = some 2560 ∧
    fitsI32 (trunc (((2560 : Int) : Rat) + -32768 * compositeVolume (s.chan 1) s.eng)) = true ∧
    fitsI32 (trunc (((0 : Int) : Rat) + -32768 * compositeVolume (s.chan 0) s.eng)) = true :=
  ⟨by decide, by decide, rfl, rfl, rfl, by decide +kernel, by decide +kernel⟩

/-- Pcm8AtRatioOnePlaysItsBytes: vector V3. -/
theorem witness_pcm8 :
    let s := playing (started 0x80000000 0x1000 4 0 0 127 0x40E5888000000000) (bytesAt 0x1000 [0x0A, 0xF6, 0x0A, 0xF6])
    4 ≤ s.params.mixbufLen ∧ s.eng.sampleRate ≠ 0 ∧ s.params.memStable = true ∧
    s.eng.channelMasterVolume.toNat ≤ 128 ∧ fval (s.chan 0).freq = (s.eng.sampleRate.toNat : Rat) ∧
    decodeFmt (s.chan 0).cnt = .pcm8 ∧ (s.chan 0).playing = true ∧ (s.chan 0).samples.toNat = 4 ∧
    (s.chan 0).dataPos = (s.chan 0).dataSrc ∧ (s.chan 0).dataSrc.toNat + 4 < 2 ^ 32 :=
  ⟨by decide, by decide, rfl, by decide, by decide +kernel, rfl, rfl, rfl, rfl, by decide⟩

/-- LoopModeBoundsWhatGenChanges, GenReadFootprint: a channel of each loop mode and of each format. -/
theorem witness_loop_modes :
    decodeLoopMode 0x80000000 ≠ .loop ∧ decodeLoopMode 0x88000000 ≠ .stop ∧ decodeLoopMode 0x90000000 = .stop ∧
    decodeFmt 0x80000000 = .pcm8 ∧ decodeFmt 0xA0000000 = .pcm16 ∧ decodeFmt 0xC0000000 = .adpcm ∧
    decodeFmt 0xE0000000 = .psg := by decide

/-- TruncationIsTowardZero and ScalingNeverIncreasesMagnitude: a divisor, and both ends of the range of a volume. -/
theorem witness_numbers : 0 < 16 ∧ (0 : Rat) ≤ 0 ∧ (0 : Rat) ≤ 1 ∧ (1 : Rat) ≤ 1 := by decide +kernel

/-- CompositeVolumeClosedForm: the greatest legal master volume, on which its clause about 1 is met. -/
theorem witness_volume :
    base.eng.channelMasterVolume.toNat = 128 ∧ base.eng.mainVolume.toNat = 127 ∧
    compositeVolume { Channel.zero with volume := 127 } base.eng = 1 := ⟨rfl, rfl, by decide +kernel⟩

/-- DmixEmitsTheDividedSlots: slots that hold a value, at both ends of the range of the exact clause. -/
theorem witness_dmix :
    let s := { base with acc := [(0, BitVec.ofInt 32 (-524288)), (1, 524287)] }
    2 ≤ s.params.mixbufLen ∧ (∀ x, x < 2 → ∃ v, sparseGet s.acc x = some v) ∧
    -524288 ≤ (BitVec.ofInt 32 (-524288)).toInt ∧ (524287 : Word).toInt ≤ 524287 := by
  refine ⟨by decide, ?_, by decide, by decide⟩
  intro x hx
  match x, hx with
  | 0, _ => exact ⟨_, rfl⟩
  | 1, _ => exact ⟨_, rfl⟩

/-- OldMixBufferHasNoInfluence: two runs that differ in the buffer. -/
theorem witness_old_buffer :
    8 / 2 ≤ base.params.mixbufLen ∧ (∃ t, exec (.mix 8) base = .next t) ∧
    ∃ t, exec (.mix 8) { base with acc := [(0, 99), (7, 5)] } = .next t := ⟨by decide, ⟨_, rfl⟩, ⟨_, rfl⟩⟩

/-- MixAfterResetIsSilent: the state at power-on. -/
theorem witness_afterReset : AfterReset State.reset ∧ State.reset.eng.sampleRate ≠ 0 where
  left :=
    { channels := by decide
      table := fun a => Vector.getElem_ofFn a.isLt
      sampleRate := rfl
      channelMasterVolume := rfl
      mainVolume := rfl
      soundOn := rfl
      stereo := rfl
      lifecycle := rfl
      unwritten := fun _ => rfl
      transient := rfl }
  right := by decide

/-- SixteenSilentChannelsAtFullVolume: vector V24. -/
theorem witness_sixteen_silent :
    let s := { base with ch := Vector.replicate 16 { Channel.zero with volume := 127 } }
    (∀ id, (s.chan id).playing = false ∧ (s.chan id).volume.toNat = 127) ∧ s.eng.mainVolume.toNat = 127 ∧
    s.eng.channelMasterVolume.toNat = 128 ∧ 8 / 2 ≤ s.params.mixbufLen ∧ s.eng.sampleRate ≠ 0 := by decide

/-- LifecycleGatesNothing and SoundOnAndStereoHaveNoEffect: a MIX names neither. -/
theorem witness_not_named :
    Instr.mix 8 ≠ .reset ∧ Instr.mix 8 ≠ .init ∧ Instr.mix 8 ≠ .shutdown ∧ Instr.mix 8 ≠ .rd (.eng .lifecycle) ∧
    (Instr.mix 8).namesEngineFlags = false ∧ ∃ t, exec (.mix 8) base = .next t :=
  ⟨by decide, by decide, by decide, by decide, rfl, ⟨_, rfl⟩⟩

/-- InstructionsCompleteUnlessListed: no reason to stop, and each of the four. -/
theorem witness_stopReason :
    stopReason (.gen 0 4) base = none ∧
    stopReason (.gen 0 4096) { base with eng := { base.eng with sampleRate := 0 } } = some .sampleRateZero ∧
    stopReason (.gen 0 4097) { base with eng := { base.eng with sampleRate := 0 } } = none ∧
    stopReason (.wr (.ch 0 .freq) 0x7FF0000000000000) base = some .illegalFreqPattern ∧
    stopReason (.adx 0 0) (expanding.setChan 0 { Channel.zero with adpcmIndex := 128 }) = some .adpcmIndexOutOfTable ∧
    stopReason (.adx 0 0) (expanding.setChan 0 { Channel.zero with adpcmIndex := 127 }) = none ∧
    stopReason .smpPcm8 base = some .noGenCall ∧ stopReason .bndStop (inCall .psg 0 1) = none :=
  ⟨by decide, by decide, by decide, by decide, by decide, by decide, rfl, rfl⟩

/-- InvariantHoldsAtPowerOn, EveryStepKeepsTheInvariant: a state with a store and then a MIX at the port. -/
theorem witness_inv :
    let s := { base with port := [.store ⟨0x1000, 5⟩, .command { cmd := 0x80000008, arg := 0, devOk := false }] }
    Inv s ∧ (∃ t, step s = .next t) ∧ Params.default.cfgDefaultVolume.toNat ≤ 128 :=
  ⟨{ memory := ⟨List.Pairwise.nil, nofun⟩
     buffer := ⟨List.Pairwise.nil, nofun⟩
     transient := rfl
     freqs := by decide
     volumes := ⟨by decide, by decide⟩
     table := rfl }, ⟨_, rfl⟩, by decide⟩

end Sys2Proof.Tests
end

section
/-! PROOFS. State and reset (10_state.md): what RESET and power-on leave, the FREQ patterns a WR stores, ENABLE as a bit of
CNT, and the latching of the configuration. -/

namespace Sys2Proof.Machine

/-! ### RESET -/

@[simp] theorem resetBlock_ch (s : State) : s.resetBlock.ch = Vector.replicate 16 Channel.zero := rfl
@[simp] theorem resetBlock_eng (s : State) : s.resetBlock.eng =
    { soundOn := false, stereo := false, sampleRate := s.cfg.sampleRate, mainVolume := s.params.resetMainVolume,
      channelMasterVolume := s.cfg.volume } := rfl

theorem exec_reset (s : State) : exec .reset s = .next s.closeDevice.resetBlock := rfl

/-- What RESET leaves once the device is closed meets every row of the reset table (10_state.md R43). -/
theorem resetBlock_afterReset (s : State) : AfterReset s.resetBlock where
  channels := resetBlock_chan s
  table := stepTable_get s.params
  sampleRate := rfl
  channelMasterVolume := rfl
  mainVolume := rfl
  soundOn := rfl
  stereo := rfl
  lifecycle := rfl
  unwritten _ := rfl
  transient := rfl

/-- Power-on meets every row of the reset table for its parameters (10_state.md R43). -/
theorem powerOn_afterReset (p : Params) : AfterReset (State.powerOn p) where
  channels := powerOn_chan p
  table := stepTable_get p
  sampleRate := rfl
  channelMasterVolume := rfl
  mainVolume := rfl
  soundOn := rfl
  stereo := rfl
  lifecycle := rfl
  unwritten _ := rfl
  transient := rfl

/-- Settles O1: what RESET writes depends on the parameters and on `cfg` alone, and it keeps both, so a second RESET
writes the same. -/
theorem resetAndPowerOnLeaveTheResetState : Obligations.ResetAndPowerOnLeaveTheResetState := by
  refine ⟨fun p => ⟨powerOn_afterReset p, rfl⟩, fun s => ?_⟩
  exact ⟨_, exec_reset s, resetBlock_afterReset _, by simp, _, exec_reset _, by simp⟩

/-! ### WR -/

theorem exec_wr {r : Reg} {arg : Dword} (h : storesIllegalFreq arg r = false) (s : State) :
    exec (.wr r arg) s = .next (writeReg s arg r) := by simp [exec, execWr, h]

theorem exec_wr_refused {r : Reg} {arg : Dword} (h : storesIllegalFreq arg r = true) (s : State) :
    exec (.wr r arg) s = .refused .illegalFreqPattern := by simp [exec, execWr, h]

theorem storesIllegalFreq_freq (id : ChannelId) (p : Dword) :
    storesIllegalFreq p (.ch id .freq) = !legalFreq p := rfl

/-- Settles O4: a WR of FREQ is refused exactly for the patterns that `legalFreq_iff` excludes. -/
theorem freqStoresLegalPatternsAndRefusesOthers : Obligations.FreqStoresLegalPatternsAndRefusesOthers := by
  intro id p s
  rw [← legalFreq_iff]
  constructor
  · intro h
    exact exec_wr (by simp [storesIllegalFreq_freq, h]) s
  · intro h
    exact exec_wr_refused (by simpa [storesIllegalFreq_freq] using h) s

/-- Settles O8: `enable` is read from `cnt[31]`, and writing it rebuilds `cnt` from its low 31 bits and `arg[0]`. -/
theorem enableIsBit31OfCnt : Obligations.EnableIsBit31OfCnt := by
  intro s id arg
  constructor
  · exact (flagDword_toNat _).trans (enableBit_toNat _)
  · refine ⟨(setEnable (arg.getLsbD 0) (s.chan id)).cnt, exec_wr rfl s, ?_⟩
    rw [setEnable_toNat, getLsbD_zero_toNat]

/-! ### The configuration registers and what RESET latches of them (10_state.md R35) -/

theorem sampleRow_eng_cfg {s t : State} {fmt : Fmt} (h : s.inCall (sampleOp fmt) = .next t) :
    t.eng = s.eng ∧ t.cfg = s.cfg := by
  obtain ⟨-, -, -, -, heng, hcfg, -⟩ := sampleRow_frame h
  exact ⟨heng, hcfg⟩

theorem boundaryRow_eng_cfg {s t : State} {lm : LoopMode} (h : s.inCall (boundaryOp lm) = .next t) :
    t.eng = s.eng ∧ t.cfg = s.cfg := by
  rw [boundaryRow_eq h]
  exact ⟨rfl, rfl⟩

/-- Only RESET and WR change the engine's registers or the configuration. -/
theorem eng_cfg_of_next {i : Instr} {s t : State} (h : exec i s = .next t) (hreset : i ≠ .reset)
    (hwr : ∀ r arg, i ≠ .wr r arg) : t.eng = s.eng ∧ t.cfg = s.cfg := by
  cases i with
  | reset => exact absurd rfl hreset
  | wr r arg => exact absurd rfl (hwr r arg)
  | nop | tblinit | tblrd _ | rd _ =>
    cases h
    exact ⟨rfl, rfl⟩
  | init | shutdown =>
    cases h
    exact ⟨closeDevice_eng s, closeDevice_cfg s⟩
  | gen id n =>
    have hf := (gen_next_frame h).setup
    exact ⟨hf.eng, hf.cfg⟩
  | mix b =>
    have hf := (mix_next_frame h).setup
    exact ⟨hf.eng, hf.cfg⟩
  | dmix n =>
    obtain ⟨l, k, rfl⟩ := dmix_next h
    exact ⟨rfl, rfl⟩
  | adh id =>
    rcases adh_next h with rfl | rfl
    · exact ⟨rfl, rfl⟩
    · exact ⟨rfl, rfl⟩
  | adx id d =>
    rcases adx_next h with rfl | ⟨w, rfl⟩
    · exact ⟨rfl, rfl⟩
    · exact ⟨rfl, rfl⟩
  | smpPcm8 => exact sampleRow_eng_cfg (fmt := .pcm8) h
  | smpPcm16 => exact sampleRow_eng_cfg (fmt := .pcm16) h
  | smpAdpcm => exact sampleRow_eng_cfg (fmt := .adpcm) h
  | smpPsg => exact sampleRow_eng_cfg (fmt := .psg) h
  | bndNone => exact boundaryRow_eng_cfg (lm := .none) h
  | bndLoop => exact boundaryRow_eng_cfg (lm := .loop) h
  | bndStop => exact boundaryRow_eng_cfg (lm := .stop) h
  | bndRsvd => exact boundaryRow_eng_cfg (lm := .rsvd) h

theorem writeReg_cfg_sampleRate (s : State) (arg : Dword) {r : Reg} (hr : r ≠ .eng .cfgSampleRate) :
    (writeReg s arg r).cfg.sampleRate = s.cfg.sampleRate := by
  cases r with
  | ch id f => rfl
  | eng e =>
    cases e with
    | cfgSampleRate => exact absurd rfl hr
    | _ => rfl
  | reserved q => rfl

theorem writeReg_cfg_volume (s : State) (arg : Dword) {r : Reg} (hr : r ≠ .eng .cfgVolume) :
    (writeReg s arg r).cfg.volume = s.cfg.volume := by
  cases r with
  | ch id f => rfl
  | eng e =>
    cases e with
    | cfgVolume => exact absurd rfl hr
    | _ => rfl
  | reserved q => rfl

theorem writeReg_cfgSampleRate_toNat (s : State) (arg : Dword) :
    (writeReg s arg (.eng .cfgSampleRate)).cfg.sampleRate.toNat = arg.toNat % 2 ^ 32 := by
  simp [writeReg, writeEng, BitVec.extractLsb'_toNat]

theorem writeReg_cfgVolume_toNat (s : State) (arg : Dword) :
    (writeReg s arg (.eng .cfgVolume)).cfg.volume.toNat = min (arg.toNat % 2 ^ 8) 128 := by
  simp [writeReg, writeEng, saturateVolume_toNat, BitVec.extractLsb'_toNat]

/-- Settles O9: by the three kinds of instruction, RESET, WR, and those that change neither the engine nor `cfg`. -/
theorem configurationIsLatchedByResetOnly : Obligations.ConfigurationIsLatchedByResetOnly := by
  intro i s t h
  by_cases hreset : i = .reset
  · subst hreset
    cases h
    exact ⟨fun _ => by simp, absurd rfl, fun _ => by simp, fun _ => by simp, nofun, nofun⟩
  by_cases hwr : ∃ r arg, i = .wr r arg
  · obtain ⟨r, arg, rfl⟩ := hwr
    obtain ⟨-, rfl⟩ := wr_next h
    refine ⟨nofun, fun _ => writeReg_latched s arg r, fun hne => ?_, fun hne => ?_, ?_, ?_⟩
    · exact writeReg_cfg_sampleRate s arg fun e => hne arg (e ▸ rfl)
    · exact writeReg_cfg_volume s arg fun e => hne arg (e ▸ rfl)
    · rintro _ ⟨⟩
      exact ⟨writeReg_cfgSampleRate_toNat s arg, rfl⟩
    · rintro _ ⟨⟩
      exact ⟨writeReg_cfgVolume_toNat s arg, rfl⟩
  · obtain ⟨heng, hcfg⟩ := eng_cfg_of_next h hreset fun r arg e => hwr ⟨r, arg, e⟩
    refine ⟨fun e => absurd e hreset, fun _ => ?_, fun _ => ?_, fun _ => ?_, ?_, ?_⟩
    · rw [heng]
      exact ⟨rfl, rfl⟩
    · rw [hcfg]
    · rw [hcfg]
    · exact fun arg e => absurd ⟨_, arg, e⟩ hwr
    · exact fun arg e => absurd ⟨_, arg, e⟩ hwr

end Sys2Proof.Machine
end

section
/-! PROOFS. Encoding (30_encoding.md): the operands of a command word as numbers, and register indices as numbers. -/

namespace Sys2Proof

/-! ### Operand fields (30_encoding.md R92) -/

/-- A field of the operand as a number of the command word. -/
theorem operand_field_toNat (w : Word) {lo len : Nat} (h : lo + len ≤ 28) :
    ((w.extractLsb' 0 28).extractLsb' lo len).toNat = w.toNat / 2 ^ lo % 2 ^ len := by
  rw [operand_field w h, field_toNat]

/-- A field of the operand as a bit vector. -/
theorem operand_field_eq_ofNat (w : Word) {lo len : Nat} (h : lo + len ≤ 28) :
    (w.extractLsb' 0 28).extractLsb' lo len = BitVec.ofNat len (w.toNat / 2 ^ lo % 2 ^ len) := by
  apply BitVec.eq_of_toNat_eq
  rw [operand_field_toNat w h, BitVec.toNat_ofNat, Nat.mod_mod]

/-- A field at the bottom of the operand as a number of the command word. -/
theorem operand_low_toNat (w : Word) {len : Nat} (h : len ≤ 28) :
    ((w.extractLsb' 0 28).extractLsb' 0 len).toNat = w.toNat % 2 ^ len := by
  rw [operand_field_toNat w (by omega), pow_zero, Nat.div_one]

/-- The register index of WR and RD, `cmd[8:0]`. -/
theorem operand_register (w : Word) :
    (w.extractLsb' 0 28).extractLsb' 0 9 = BitVec.ofNat 9 (w.toNat % 2 ^ 9) := by
  rw [operand_field_eq_ofNat w (by decide), pow_zero, Nat.div_one]

/-- The channel id of GEN, ADH and ADX, `cmd[3:0]`. -/
theorem operand_channel (w : Word) :
    (channelIdOf ((w.extractLsb' 0 28).extractLsb' 0 4)).val = w.toNat % 2 ^ 4 :=
  operand_low_toNat w (by decide)

/-! ### Command words of a known opcode -/

theorem decode_nop {w : Word} (h : w.toNat / 2 ^ 28 = 0x0) (arg : Dword) : decode w arg = .ok .nop :=
  decode_of_opcode (op := 0x0) h arg

theorem decode_wr {w : Word} (h : w.toNat / 2 ^ 28 = 0x4) (arg : Dword) :
    decode w arg = .ok (.wr (Reg.ofIndex (BitVec.ofNat 9 (w.toNat % 2 ^ 9))) arg) := by
  rw [← operand_register]
  exact decode_of_opcode (op := 0x4) h arg

theorem decode_gen {w : Word} (h : w.toNat / 2 ^ 28 = 0x6) (arg : Dword) :
    ∃ id : ChannelId, id.val = w.toNat % 2 ^ 4 ∧ decode w arg = .ok (.gen id (w.toNat / 2 ^ 4 % 2 ^ 24)) := by
  rw [← operand_field_toNat w (by decide)]
  exact ⟨_, operand_channel w, decode_of_opcode (op := 0x6) h arg⟩

theorem decode_dmix {w : Word} (h : w.toNat / 2 ^ 28 = 0x7) (arg : Dword) :
    decode w arg = .ok (.dmix (w.toNat / 2 ^ 4 % 2 ^ 24)) := by
  rw [← operand_field_toNat w (by decide)]
  exact decode_of_opcode (op := 0x7) h arg

theorem decode_mix {w : Word} (h : w.toNat / 2 ^ 28 = 0x8) (arg : Dword) :
    decode w arg = .ok (.mix (w.toNat % 2 ^ 28)) := by
  have operand : (w.extractLsb' 0 28).toNat = w.toNat % 2 ^ 28 := by rw [field_toNat, pow_zero, Nat.div_one]
  rw [← operand]
  exact decode_of_opcode (op := 0x8) h arg

theorem decode_tblrd {w : Word} (h : w.toNat / 2 ^ 28 = 0xA) (arg : Dword) :
    ∃ a : TableIndex, a.val = w.toNat % 2 ^ 7 ∧ decode w arg = .ok (.tblrd a) :=
  ⟨⟨_, ((w.extractLsb' 0 28).extractLsb' 0 7).isLt⟩, operand_low_toNat w (by decide),
    decode_of_opcode (op := 0xA) h arg⟩

theorem decode_adh {w : Word} (h : w.toNat / 2 ^ 28 = 0xB) (arg : Dword) :
    ∃ id : ChannelId, id.val = w.toNat % 2 ^ 4 ∧ decode w arg = .ok (.adh id) :=
  ⟨_, operand_channel w, decode_of_opcode (op := 0xB) h arg⟩

theorem decode_adx {w : Word} (h : w.toNat / 2 ^ 28 = 0xC) (arg : Dword) :
    ∃ id : ChannelId, id.val = w.toNat % 2 ^ 4 ∧
      decode w arg = .ok (.adx id (BitVec.ofNat 4 (w.toNat / 2 ^ 4 % 2 ^ 4))) := by
  rw [← operand_field_eq_ofNat w (by decide)]
  exact ⟨_, operand_channel w, decode_of_opcode (op := 0xC) h arg⟩

/-! ### Register indices (30_encoding.md R95) -/

theorem ChField.num_of_ofNum {k : Nat} {f : ChField} (h : ChField.ofNum k = some f) : f.num = k := by
  unfold ChField.ofNum at h
  split at h <;> cases h <;> rfl

theorem EngReg.num_of_ofNum {k : Nat} {e : EngReg} (h : EngReg.ofNum k = some e) : e.num = k := by
  unfold EngReg.ofNum at h
  split at h <;> cases h <;> rfl

theorem ChField.num_lt (f : ChField) : f.num < 16 := by cases f <;> decide

theorem EngReg.num_lt (e : EngReg) : e.num < 0x100 := by cases e <;> decide

theorem index_ch_toNat (id : ChannelId) (f : ChField) : (Reg.ch id f).index.toNat = 16 * id.val + f.num := by
  have := id.isLt
  have := f.num_lt
  rw [Reg.index, BitVec.toNat_ofNat, Nat.mod_eq_of_lt (by omega)]

theorem index_eng_toNat (e : EngReg) : (Reg.eng e).index.toNat = 0x100 + e.num := by
  have := e.num_lt
  rw [Reg.index, BitVec.toNat_ofNat, Nat.mod_eq_of_lt (by omega)]

/-- Bit 8 of a register index splits the indices at 0x100. -/
theorem index_bit8 (r : BitVec 9) : r.getLsbD 8 = true ↔ 0x100 ≤ r.toNat := by
  rw [← BitVec.msb_eq_getLsbD_last r, BitVec.msb_eq_decide, decide_eq_true_iff]

/-- The register an index decodes to has that index. -/
theorem index_ofIndex (r : BitVec 9) : (Reg.ofIndex r).index = r := by
  have hr := r.isLt
  have h8 := index_bit8 r
  unfold Reg.ofIndex
  split
  case isTrue hbit =>
    split
    case h_1 e he =>
      have hnum : e.num = r.toNat % 2 ^ 8 := by simpa using EngReg.num_of_ofNum he
      apply BitVec.eq_of_toNat_eq
      rw [index_eng_toNat]
      have := h8.mp hbit
      omega
    case h_2 => rfl
  case isFalse hbit =>
    split
    case h_1 f hf =>
      have hnum : f.num = r.toNat % 2 ^ 4 := by simpa using ChField.num_of_ofNum hf
      have hid : (channelIdOf (r.extractLsb' 4 4)).val = r.toNat / 2 ^ 4 % 2 ^ 4 := by
        simp [channelIdOf, BitVec.extractLsb'_toNat, Nat.shiftRight_eq_div_pow]
      apply BitVec.eq_of_toNat_eq
      rw [index_ch_toNat, hid, hnum]
      have := mt h8.mpr hbit
      omega
    case h_2 => rfl

/-- Decoding a register index and `Reg.index` are inverse on the registers that have an index of their own. -/
theorem ofIndex_eq_iff {r : BitVec 9} {q : Reg} (hq : q.wf = true) : Reg.ofIndex r = q ↔ r.toNat = q.index.toNat := by
  rw [BitVec.toNat_inj]
  constructor
  · rintro rfl
    exact (index_ofIndex r).symm
  · rintro rfl
    exact ofIndex_index q hq

/-- Settles O17: the operands by opcode, and the register indices by the inverse `Reg.index` of their decoding. -/
theorem operandsAreTheBitsTheTableNames : Obligations.OperandsAreTheBitsTheTableNames := by
  refine ⟨fun w arg => ?_, fun r => ⟨fun id f => ?_, fun e => ?_, fun q h => ?_⟩⟩
  · exact ⟨(decode_nop · arg), (decode_wr · arg), (decode_gen · arg), (decode_dmix · arg), (decode_mix · arg),
      (decode_tblrd · arg), (decode_adh · arg), (decode_adx · arg)⟩
  · rw [ofIndex_eq_iff rfl, index_ch_toNat]
  · rw [ofIndex_eq_iff rfl, index_eng_toNat]
  · simpa [h, Reg.index] using index_ofIndex r

end Sys2Proof
end

section
/-! PROOFS. Step table (40_adpcm_decoder.md): what TBLINIT writes and what TBLRD returns. -/

namespace Sys2Proof

theorem decode_tblinit {w : Word} (h : w.toNat / 2 ^ 28 = 0x9) (arg : Dword) : decode w arg = .ok .tblinit :=
  decode_of_opcode (op := 0x9) h arg

end Sys2Proof

namespace Sys2Proof.Machine

theorem exec_tblinit (s : State) : exec .tblinit s = .next { s with table := stepTable s.params } := rfl

theorem exec_tblrd (a : TableIndex) (s : State) : exec (.tblrd a) s = .next (s.answer (.word s.table[a.val])) := rfl

/-- A `u32` accumulator starts at the whole seed (40_adpcm_decoder.md R110). -/
theorem accumulatorAt_32_zero (seed : Word) : accumulatorAt 32 seed 0 = seed.toNat := Nat.mod_eq_of_lt seed.isLt

/-- The high half of a `u32` accumulator is all that is left above bit 15, so taking 16 bits of it takes it whole. -/
theorem accumulatorAt_32_high (seed : Word) (a : Nat) :
    accumulatorAt 32 seed a / 2 ^ 16 % 2 ^ 16 = accumulatorAt 32 seed a / 2 ^ 16 :=
  Nat.mod_eq_of_lt (Nat.div_lt_of_lt_mul (accumulatorAt_lt 32 seed a))

/-- Settles O21: the sequence is the model's accumulator at width 32, and TBLINIT keeps the parameters, which alone
determine the table it writes. -/
theorem tblinitFollowsTheRecurrence : Obligations.TblinitFollowsTheRecurrence := by
  refine ⟨fun _ arg h => decode_tblinit h arg, fun s => ?_⟩
  refine ⟨_, accumulatorAt 32 s.params.adpcmSeed, exec_tblinit s, rfl, exec_tblinit _, accumulatorAt_32_zero _,
    fun _ => rfl, fun hwidth a => ?_⟩
  calc (stepTable s.params)[a.val].toNat
      = (tableEntry s.params a.val).toNat := by rw [stepTable_get]
    _ = _ := by rw [tableEntry_toNat, hwidth, accumulatorAt_32_high]

/-- Settles O23: by the operand of opcode 0xA and the answer of TBLRD. -/
theorem tblrdReturnsTheEntry : Obligations.TblrdReturnsTheEntry :=
  ⟨fun _ arg h => decode_tblrd h arg, fun s a => exec_tblrd a s⟩

end Sys2Proof.Machine
end

section
/-! PROOFS. Resampler and fetch (41_resampler_fetch.md): the sample rows that read the Memory Source, and GEN as the chain
of its indices. -/

namespace Sys2Proof.Machine

/-! ### The format field (30_encoding.md R93, R94) -/

/-- The sample row a control word selects is the row of its format. -/
theorem decodeSample_eq_instr_iff (w : Word) (fmt : Fmt) : decodeSample w = fmt.instr ↔ decodeFmt w = fmt := by
  unfold decodeSample
  cases decodeFmt w <;> cases fmt <;> decide

theorem decodeFmt_eq_pcm8_iff (w : Word) : decodeFmt w = .pcm8 ↔ w.getLsbD 30 = false ∧ w.getLsbD 29 = false := by
  unfold decodeFmt
  rw [selector_toNat]
  cases w.getLsbD 29 <;> cases w.getLsbD 30 <;> decide

theorem decodeFmt_eq_pcm16_iff (w : Word) : decodeFmt w = .pcm16 ↔ w.getLsbD 30 = false ∧ w.getLsbD 29 = true := by
  unfold decodeFmt
  rw [selector_toNat]
  cases w.getLsbD 29 <;> cases w.getLsbD 30 <;> decide

/-! ### What a sample row leaves alone -/

/-- All that a sample micro-operation keeps but the reads, the slots and the call (41_resampler_fetch.md R135 to R138). -/
structure SampleFrame (s t : State) : Prop where
  setup : SetupKept s t
  ch : t.ch = s.ch
  ls : t.ls = s.ls
  samples : t.resp.samples = s.resp.samples
  memory : PlatformOnly s t

theorem SampleFrame.refl (s : State) : SampleFrame s s := ⟨.refl s, rfl, rfl, rfl, .refl s⟩

/-- A read of either width: the platform's turn, then the request at the port. -/
theorem SampleFrame.read {s t : State} (q : ReadRequest) (h : SampleFrame s t) :
    SampleFrame s (t.platformTurn.noteRead q) where
  setup := h.setup.trans ⟨by simp, by simp, by simp, by simp, by simp, by simp, by simp, by simp⟩
  ch := by simpa using h.ch
  ls := by simpa using h.ls
  samples := by simpa using h.samples
  memory := (h.memory.turn h.setup.params).congr rfl rfl

theorem SampleFrame.updateSlot {s t : State} (x : Nat) (f : Int → Int) (h : SampleFrame s t) :
    SampleFrame s (t.updateSlot x f) where
  setup := h.setup.trans ⟨by simp, by simp, by simp, by simp, by simp, by simp, by simp, by simp⟩
  ch := by simpa using h.ch
  ls := by simpa using h.ls
  samples := by simpa using h.samples
  memory := h.memory.congr (by simp) (by simp)

theorem SampleFrame.withCall {s t : State} (c : Option GenCall) (h : SampleFrame s t) :
    SampleFrame s { t with call := c } :=
  ⟨h.setup.trans ⟨rfl, rfl, rfl, rfl, rfl, rfl, rfl, rfl⟩, h.ch, h.ls, h.samples, h.memory⟩

theorem sampleOp_frame (fmt : Fmt) (r : Run) : SampleFrame r.2 (sampleOp fmt r).2 :=
  sampleOp_state (P := SampleFrame r.2) (.refl r.2) (fun _ a h => h.read (.byte a)) (fun _ a h => h.read (.half a))
    (fun _ f h => h.updateSlot r.1.x f)

/-! ### SMP.PCM8 and SMP.PCM16 -/

/-- The slots after an update that comes after a read, in terms of the slots before the read, which a read leaves alone. -/
theorem updateSlot_slots {s u : State} (hacc : u.acc = s.acc) (hfree : u.freeCount = s.freeCount) (x : Nat)
    (f : Int → Int) :
    (fitsI32 (f (s.slot x)) = true → (u.updateSlot x f).slot x = f (s.slot x)) ∧
      (∃ w, sparseGet (u.updateSlot x f).acc x = some w) ∧
      ∀ y, y ≠ x → sparseGet (u.updateSlot x f).acc y = sparseGet s.acc y := by
  have hslot : u.slot x = s.slot x := by simp only [State.slot, hacc, hfree]
  obtain ⟨w, hw, -⟩ := updateSlot_acc_self u x f
  refine ⟨?_, ⟨w, hw⟩, fun y hy => ?_⟩
  · rw [← hslot]
    exact slot_updateSlot_of_fits
  · rw [updateSlot_acc_ne u f hy, hacc]

/-- Settles O26: a byte read, which touches no slot, then one update of slot `x` by VOL.SCALE. -/
theorem smpPcm8ReadsAddsAndScales : Obligations.SmpPcm8ReadsAddsAndScales := by
  refine ⟨fun w => (decodeSample_eq_instr_iff w .pcm8).trans (decodeFmt_eq_pcm8_iff w), fun s c hc => ?_⟩
  obtain ⟨hsetup, hch, hls, hsamples, hmemory⟩ := (sampleOp_frame .pcm8 (c, s)).withCall (some c)
  obtain ⟨hvalue, hwritten, hothers⟩ := updateSlot_slots (afterReadByte_acc s c.addr)
    (afterReadByte_freeCount s c.addr) c.x (volScale c.vol ((s.readByte c.addr).toInt * 256))
  exact ⟨_, inCall_of_call hc smpPcm8, hvalue, fun hstable => (readByte_of_stable hstable _).1, by simp [smpPcm8],
    hsamples, hwritten, hothers, rfl, hch, hls, hsetup, hmemory⟩

/-- Settles O27: a halfword read at the even address, then one update of slot `x` by VOL.SCALE. -/
theorem smpPcm16ForcesEvenReadsAddsAndScales : Obligations.SmpPcm16ForcesEvenReadsAddsAndScales := by
  refine ⟨fun w => (decodeSample_eq_instr_iff w .pcm16).trans (decodeFmt_eq_pcm16_iff w), fun s c hc => ?_⟩
  obtain ⟨hsetup, hch, hls, hsamples, hmemory⟩ :=
    (sampleOp_frame .pcm16 (c, s)).withCall (some { c with addr := evenAddr c.addr })
  obtain ⟨hvalue, hwritten, hothers⟩ := updateSlot_slots (afterReadHalf_acc s (evenAddr c.addr))
    (afterReadHalf_freeCount s (evenAddr c.addr)) c.x (volScale c.vol (s.readHalf (evenAddr c.addr)).toInt)
  exact ⟨_, evenAddr c.addr, inCall_of_call hc smpPcm16, evenAddr_toNat _, hvalue,
    fun hstable => (readHalf_of_stable hstable _).1, by simp [smpPcm16, pcm16At], hsamples, hwritten, hothers, rfl,
    hch, hls, hsetup, hmemory⟩

/-! ### GEN as the chain of its indices (41_resampler_fetch.md R129 to R134, R139) -/

/-- The playing test in the words of 41_resampler_fetch.md R132. -/
theorem playingTest_iff (c : Channel) : playingTest c = true ↔ c.samples ≠ 0 ∧ c.playing = true := by
  simp [playingTest]

/-- An index of a channel for which the playing test holds (41_resampler_fetch.md R132). -/
theorem genIndex_playing {x : Nat} {r : Run} (h : playingTest (r.2.chan r.1.id) = true) :
    genIndex x r = playIndex (zseed ({ r.1 with x := x }, r.2)) := by
  unfold genIndex
  dsimp only
  rw [zseed_chan, zseed_call, h]
  rfl

theorem playIndex_played (r : Run) : (playIndex r).1.played = r.1.played + 1 := by
  obtain ⟨a, h⟩ := playIndex_call r
  rw [h]

/-- Where a GEN call stands before its index `x`: the chain of 41_resampler_fetch.md R129. -/
def genBefore (id : ChannelId) (s : State) (x : Nat) : Run := genUpto x (GenCall.start id s, s)

section Chain
variable (id : ChannelId) (s : State)

/-- The values of the start stand at every index (41_resampler_fetch.md R131). -/
theorem genBefore_sameCall (x : Nat) : SameCall (GenCall.start id s) (genBefore id s x).1 :=
  genUpto_sameCall x (GenCall.start id s, s)

theorem genBefore_id (x : Nat) : (genBefore id s x).1.id = id := (genBefore_sameCall id s x).id

/-- The state at an index after ZSEED: channel 0 has zeroed the slot (41_resampler_fetch.md R134). -/
def genSeeded (x : Nat) : State :=
  if id = 0 then (genBefore id s x).2.setSlot x 0 else (genBefore id s x).2

theorem zseed_genBefore (x : Nat) :
    zseed ({ (genBefore id s x).1 with x := x }, (genBefore id s x).2) =
      ({ (genBefore id s x).1 with x := x }, genSeeded id s x) := by
  rw [zseed_eq, genBefore_id, genSeeded]

/-- An index at which the playing test holds is a played one. -/
theorem genBefore_succ_playing {x : Nat} (h : playingTest ((genBefore id s x).2.chan id) = true) :
    genBefore id s (x + 1) = playIndex ({ (genBefore id s x).1 with x := x }, genSeeded id s x) := by
  rw [← zseed_genBefore]
  exact genIndex_playing (r := genBefore id s x) (by rwa [genBefore_id])

/-- An index at which the playing test fails adds the silence value (41_resampler_fetch.md R139). -/
theorem genBefore_succ_silent {x : Nat} (h : playingTest ((genBefore id s x).2.chan id) = false) :
    genBefore id s (x + 1) =
      ({ (genBefore id s x).1 with x := x },
        (genSeeded id s x).updateSlot x (addSilence (genBefore id s x).1.sil)) := by
  have hsil : genBefore id s (x + 1) = smpSil (zseed ({ (genBefore id s x).1 with x := x }, (genBefore id s x).2)) :=
    genIndex_silent (r := genBefore id s x) (by rwa [genBefore_id])
  rw [hsil, zseed_genBefore]
  rfl

/-- The position POS.ADV leaves (42_position_loop_stop.md R156, R157). -/
def genPosition (n : Nat) : Word :=
  let pos := advance ((genBefore id s n).2.chan id).dataPos (genBefore id s n).1.ratio (genBefore id s n).1.played
  if (genBefore id s n).1.fmt = .pcm16 then evenAddr pos else pos

/-- GEN is the end of the chain with the channel's position moved and the call discarded. -/
theorem gen_eq (n : Nat) :
    gen id n s =
      { (genBefore id s n).2.setChan id { (genBefore id s n).2.chan id with dataPos := genPosition id s n } with
        call := none } := by
  show { (posAdv (genBefore id s n)).2 with call := none } = _
  rw [posAdv_eq, genBefore_id]
  rfl

end Chain

/-- A position moves modulo 2^32 (42_position_loop_stop.md R156). -/
theorem advance_toNat (pos : Word) (ratio : Rat) (k : Nat) :
    ((advance pos ratio k).toNat : Int) = (pos.toNat + trunc (ratio * (k : Rat))) % 2 ^ 32 := by
  rw [advance, BitVec.toNat_add, BitVec.toNat_ofInt]
  push_cast
  omega

/-- Settles O34: the chain is `genBefore`, an index of it is played or silent by the playing test, and POS.ADV ends it. -/
theorem genRunsItsIndicesInOrder : Obligations.GenRunsItsIndicesInOrder := by
  intro id n s hn hrate
  refine ⟨fun x => (genBefore id s x).1, fun x => (genBefore id s x).2, genPosition id s n, ?_, rfl, rfl,
    fun y hy => genUpto_slot_later _ hy, fun x _ => ?_, fun x _ => ?_, ?_⟩
  · rw [exec_gen hn hrate, gen_eq]
  · obtain ⟨hid, hratio, hvol, hsil, hfmt, hlm⟩ := genBefore_sameCall id s x
    exact ⟨hid, hratio, hvol, hsil, hfmt, hlm⟩
  · refine ⟨genSeeded id s x, (if_pos ·), (if_neg ·), fun hplaying => ?_, fun hsilent => ?_⟩
    · have hstep := genBefore_succ_playing id s ((playingTest_iff _).mpr hplaying)
      exact ⟨hstep, (congrArg (·.1.played) hstep).trans (playIndex_played _)⟩
    · have hstep := genBefore_succ_silent id s (Bool.eq_false_iff.mpr (mt (playingTest_iff _).mp hsilent))
      exact ⟨congrArg Prod.fst hstep, congrArg Prod.snd hstep⟩
  · have hpos := advance_toNat ((genBefore id s n).2.chan id).dataPos (genBefore id s n).1.ratio
      (genBefore id s n).1.played
    by_cases hfmt : (genBefore id s n).1.fmt = .pcm16
    · refine .inr ⟨?_, hfmt⟩
      rw [genPosition, if_pos hfmt, evenAddr_toNat, ← hpos]
      push_cast
      rfl
    · refine .inl ⟨?_, hfmt⟩
      rw [genPosition, if_neg hfmt]
      exact hpos

end Sys2Proof.Machine
end

section
/-! PROOFS. Position, loop and stop (42_position_loop_stop.md): the loop mode of a control word and the boundary rows it
selects. -/

namespace Sys2Proof

/-! ### The loop mode field (30_encoding.md R93, R94) -/

/-- The value of `cnt[28]` that a loop mode stands for. -/
def LoopMode.highBit : LoopMode → Bool
  | .none => false
  | .loop => false
  | .stop => true
  | .rsvd => true

/-- The value of `cnt[27]` that a loop mode stands for. -/
def LoopMode.lowBit : LoopMode → Bool
  | .none => false
  | .loop => true
  | .stop => false
  | .rsvd => true

theorem decodeLoopMode_eq_iff (w : Word) (lm : LoopMode) :
    decodeLoopMode w = lm ↔ w.getLsbD 28 = lm.highBit ∧ w.getLsbD 27 = lm.lowBit := by
  unfold decodeLoopMode
  rw [selector_toNat]
  cases w.getLsbD 27 <;> cases w.getLsbD 28 <;> cases lm <;> decide

/-- The boundary row a control word selects is the row of its loop mode. -/
theorem decodeBoundary_eq_instr_iff (w : Word) (lm : LoopMode) : decodeBoundary w = lm.instr ↔ decodeLoopMode w = lm := by
  unfold decodeBoundary
  cases decodeLoopMode w <;> cases lm <;> decide

/-- The boundary row of a loop mode is selected by the two bits of the mode. -/
theorem decodeBoundary_eq_instr_iff_bits (w : Word) (lm : LoopMode) :
    decodeBoundary w = lm.instr ↔ w.getLsbD 28 = lm.highBit ∧ w.getLsbD 27 = lm.lowBit :=
  (decodeBoundary_eq_instr_iff w lm).trans (decodeLoopMode_eq_iff w lm)

end Sys2Proof

namespace Sys2Proof.Machine

/-! ### A boundary row on the call in progress -/

/-- A boundary row keeps the call and answers what its micro-operation makes of the state. -/
theorem exec_boundaryRow {s : State} {c : GenCall} (h : s.call = some c) (lm : LoopMode) :
    exec lm.instr s = .next (boundaryOp lm (c, s)).2 := by
  have hrow : exec lm.instr s = s.inCall (boundaryOp lm) := by cases lm <;> rfl
  have hcall : (boundaryOp lm (c, s)).2.call = some c :=
    boundaryOp_state (P := fun t => t.call = some c) h (fun _ _ _ => h) (fun _ => h)
  rw [hrow, inCall_of_call h, boundaryOp_call, ← hcall]

/-! ### BND.LOOP -/

theorem bndLoop_of_unit {r : Run} {unit : Word} (h : loopUnit r.1.fmt = some unit) :
    bndLoop r = r.mapChan (loopReload unit) := by
  simp [bndLoop, h]

theorem bndLoop_of_no_unit {r : Run} (h : loopUnit r.1.fmt = none) : bndLoop r = r := by
  simp [bndLoop, h]

/-- The units of 42_position_loop_stop.md R153 as numbers. -/
theorem loopUnit_eq_some {fmt : Fmt} {u : Nat} (h : (fmt = .pcm8 ∧ u = 4) ∨ (fmt = .pcm16 ∧ u = 2)) :
    ∃ unit, loopUnit fmt = some unit ∧ unit.toNat = u := by
  obtain ⟨rfl, rfl⟩ | ⟨rfl, rfl⟩ := h
  · exact ⟨4, rfl, rfl⟩
  · exact ⟨2, rfl, rfl⟩

theorem loopUnit_eq_none {fmt : Fmt} (h : fmt = .adpcm ∨ fmt = .psg) : loopUnit fmt = none := by
  obtain rfl | rfl := h <;> rfl

theorem loopReload_dataSrc_toNat (unit : Word) (c : Channel) :
    (loopReload unit c).dataSrc.toNat = (c.dataSrc.toNat + c.loopStart.toNat * unit.toNat) % 2 ^ 32 := by
  rw [loopReload, BitVec.toNat_add, BitVec.toNat_mul, Nat.add_mod_mod]

theorem loopReload_samples_toNat (unit : Word) (c : Channel) :
    (loopReload unit c).samples.toNat = c.len.toNat * unit.toNat % 2 ^ 32 :=
  BitVec.toNat_mul _ _

/-- Settles O30: a format with a unit reloads the channel by it, and one without leaves the state. -/
theorem bndLoopReloadsPositionAndBudget : Obligations.BndLoopReloadsPositionAndBudget := by
  refine ⟨fun w => decodeBoundary_eq_instr_iff_bits w .loop, fun s c hc => ?_⟩
  have hexec : exec .bndLoop s = .next (bndLoop (c, s)).2 := exec_boundaryRow hc .loop
  constructor
  · intro u hu
    obtain ⟨unit, hunit, rfl⟩ := loopUnit_eq_some hu
    rw [bndLoop_of_unit hunit] at hexec
    exact ⟨_, _, hexec, loopReload_dataSrc_toNat unit _, loopReload_samples_toNat unit _⟩
  · intro hfmt
    rwa [bndLoop_of_no_unit (loopUnit_eq_none hfmt)] at hexec

/-! ### BND.STOP -/

/-- BND.STOP clears the bit of `cnt` that a write of 0 to ENABLE clears. -/
theorem stopFlags_cnt_toNat (c : Channel) : (stopFlags c).cnt.toNat = c.cnt.toNat % 2 ^ 31 := by
  have h : (stopFlags c).cnt = (setEnable false c).cnt := by simp [stopFlags, setEnable]
  rw [h, setEnable_toNat, Bool.toNat_false, mul_zero, add_zero]

/-- Settles O31: BND.STOP applies `stopFlags` to the channel of the call, whatever its format. -/
theorem bndStopClearsPlayingAndEnable : Obligations.BndStopClearsPlayingAndEnable := by
  refine ⟨fun w => decodeBoundary_eq_instr_iff_bits w .stop, fun s c hc => ?_⟩
  exact ⟨(stopFlags (s.chan c.id)).cnt, exec_boundaryRow hc .stop, stopFlags_cnt_toNat _⟩

/-! ### BND.NONE and BND.RSVD -/

/-- Settles O29: the micro-operations of both modes return the call and the state they are given. -/
theorem bndNoneAndRsvdDoNothing : Obligations.BndNoneAndRsvdDoNothing :=
  ⟨fun w => decodeBoundary_eq_instr_iff_bits w .none, fun w => decodeBoundary_eq_instr_iff_bits w .rsvd,
    fun _ _ hc => ⟨exec_boundaryRow hc .none, exec_boundaryRow hc .rsvd⟩⟩

end Sys2Proof.Machine
end

section
/-! PROOFS. The volume scaler (43_volume.md): VOL.SCALE never increases magnitude, and its two corner cases. -/

namespace Sys2Proof.Machine

@[simp] theorem volScale_one (s a : Int) : volScale 1 s a = a + s := by
  rw [volScale, mul_one, trunc_intCast]

@[simp] theorem volScale_zero (s a : Int) : volScale 0 s a = 0 := by
  rw [volScale, mul_zero, trunc_zero]

/-- The bounds `volScale_bounds` keeps, at the symmetric interval of the sum's own magnitude. -/
theorem volScale_natAbs_le {vol : Rat} (h0 : 0 ≤ vol) (h1 : vol ≤ 1) (s a : Int) :
    (volScale vol s a).natAbs ≤ (a + s).natAbs := by
  obtain ⟨lower, upper⟩ := volScale_bounds (s := s) (a := a) (lo := -(a + s).natAbs) (hi := (a + s).natAbs)
    h0 h1 (by omega) (by omega) (by omega) (by omega)
  omega

/-- Settles O44: VOL.SCALE is the one truncation by definition, and `volScale_bounds` keeps its result between the sum and
its negation. -/
theorem scalingNeverIncreasesMagnitude : Obligations.ScalingNeverIncreasesMagnitude :=
  fun _ s a h0 h1 => ⟨rfl, volScale_natAbs_le h0 h1 s a, volScale_one s a, volScale_zero s a⟩

end Sys2Proof.Machine
end

section
/-! PROOFS. The mixer (44_mixer.md): the samples DMIX emits, slot by slot, and MIX as the chain of its sixteen passes. -/

namespace Sys2Proof.Machine

/-! ### DMIX (44_mixer.md R187 to R189) -/

theorem exec_dmix {n : Nat} {s : State} (hn : n ≤ s.params.mixbufLen) :
    exec (.dmix n) s = .next (dmixUpto n s) := by
  simp only [exec, execDmix, if_neg (Nat.not_lt.mpr hn)]

@[simp] theorem dmixUpto_acc (n : Nat) (s : State) : (dmixUpto n s).acc = s.acc := by
  obtain ⟨l, k, h, -⟩ := dmixUpto_frame n s
  rw [h]

theorem dmixUpto_freeCount_of_written {n : Nat} {s : State} (h : ∀ x, x < n → ∃ v, sparseGet s.acc x = some v) :
    (dmixUpto n s).freeCount = s.freeCount := by
  rw [dmixUpto_of_written h]

/-- The sample of slot `x` in a DMIX from `s`: a slot nothing has written shows the free value that is next once the
slots below it have been read (log 7). -/
def dmixSample (s : State) (x : Nat) : Half := downmix ((dmixUpto x s).slot x)

theorem dmixSample_of_written {s : State} {x : Nat} {v : Word} (h : sparseGet s.acc x = some v) :
    dmixSample s x = downmix v.toInt := by
  rw [dmixSample, slot_of_some (by rwa [dmixUpto_acc])]

/-- DMIX emits the sample of every slot in increasing order and may use free values (44_mixer.md R188). -/
theorem dmixUpto_eq (n : Nat) (s : State) :
    dmixUpto n s = { s with
      resp := { s.resp with samples := s.resp.samples ++ (List.range n).map (dmixSample s) }
      freeCount := (dmixUpto n s).freeCount } := by
  induction n with
  | zero => simp [dmixUpto]
  | succ n ih =>
    obtain ⟨k, hread⟩ := noteSlotRead_eq (dmixUpto n s) n
    have hslot : dmixUpto (n + 1) s = ({ dmixUpto n s with freeCount := k } : State).emit (dmixSample s n) := by
      rw [← hread]
      rfl
    rw [hslot, ih]
    simp [State.emit, List.range_succ]

/-- Narrowing loses multiples of 2^16 only (44_mixer.md R188). -/
theorem downmix_toInt_emod (a : Int) : ((downmix a).toInt - a.tdiv 16) % 65536 = 0 := by
  rw [downmix, BitVec.toInt_ofInt]
  exact Int.emod_eq_emod_iff_emod_sub_eq_zero.mp (Int.bmod_emod ..)

/-- Settles O45: sample `x` is `dmixSample`, which at a written slot is the narrowed quotient. -/
theorem dmixEmitsTheDividedSlots : Obligations.DmixEmitsTheDividedSlots := by
  refine ⟨fun _ arg h => decode_dmix h arg, fun s n hn => ?_⟩
  refine ⟨(List.range n).map (dmixSample s), _, (exec_dmix hn).trans (congrArg _ (dmixUpto_eq n s)), by simp,
    dmixUpto_freeCount_of_written, fun x v o hv ho => ?_⟩
  have hsample : dmixSample s x = o := by
    obtain ⟨_, hget⟩ := List.getElem?_eq_some_iff.mp ho
    simpa using hget
  rw [← hsample, dmixSample_of_written hv]
  exact ⟨downmix_toInt_emod _, downmix_toInt⟩

/-! ### MIX (44_mixer.md R185, R186) -/

/-- The channel after the first `id` of the order is `id`: the order is increasing and leaves none out. -/
theorem take_channelOrder_succ :
    ∀ id : ChannelId, channelOrder.take (id.val + 1) = channelOrder.take id.val ++ [id] := by decide

/-- Where a MIX over n slots stands once the first `k` channels have had their pass. -/
def mixBefore (n : Nat) (s : State) (k : Nat) : State := genEach (channelOrder.take k) n s

theorem mixBefore_succ (n : Nat) (s : State) (id : ChannelId) :
    mixBefore n s (id.val + 1) = gen id n (mixBefore n s id.val) := by
  rw [mixBefore, take_channelOrder_succ, genEach_append]
  rfl

/-- The passes before a channel's keep the parameters and the engine, so each GEN of the chain is carried out. -/
theorem mixBefore_setup (n : Nat) (s : State) (k : Nat) : SetupKept s (mixBefore n s k) :=
  (genEach_frame (channelOrder.take k) n s).1.setup

/-- Settles O46: the chain is `mixBefore`, whose sixteenth state is where `mixSlots` puts DMIX. -/
theorem mixIsSixteenGensThenDmix : Obligations.MixIsSixteenGensThenDmix := by
  refine ⟨fun _ arg h => decode_mix h arg, fun s b hn hrate => ?_⟩
  have hcount : ∀ k, b / 2 ≤ (mixBefore (b / 2) s k).params.mixbufLen := fun k => by
    rwa [(mixBefore_setup _ s k).params]
  refine ⟨mixBefore (b / 2) s, dmixUpto (b / 2) (mixBefore (b / 2) s 16), rfl, fun id => ?_, exec_dmix (hcount 16),
    exec_mix hn hrate⟩
  rw [mixBefore_succ]
  exact exec_gen (hcount id.val) (by rwa [(mixBefore_setup _ s id.val).eng])

end Sys2Proof.Machine
end

section
/-! PROOFS. Host commands (45_host_commands.md): RD, INIT and SHUTDOWN, the moves of `LS`, and that no command is gated
by it. -/

namespace Sys2Proof

theorem decode_init {w : Word} (h : w.toNat / 2 ^ 28 = 0x2) (arg : Dword) : decode w arg = .ok .init :=
  decode_of_opcode (op := 0x2) h arg

theorem decode_shutdown {w : Word} (h : w.toNat / 2 ^ 28 = 0x3) (arg : Dword) : decode w arg = .ok .shutdown :=
  decode_of_opcode (op := 0x3) h arg

theorem decode_rd {w : Word} (h : w.toNat / 2 ^ 28 = 0x5) (arg : Dword) :
    decode w arg = .ok (.rd (Reg.ofIndex (BitVec.ofNat 9 (w.toNat % 2 ^ 9)))) := by
  rw [← operand_register]
  exact decode_of_opcode (op := 0x5) h arg

end Sys2Proof

namespace Sys2Proof.Machine

/-! ### RD (45_host_commands.md R206) -/

theorem exec_rd (r : Reg) (s : State) : exec (.rd r) s = .next (s.answer (.dword (readReg s r))) := rfl

theorem readField_toNat (s : State) (id : ChannelId) (f : ChField) :
    (readField (s.chan id) f).toNat = registerNat s (.ch id f) := by
  cases f with
  | cnt | dataSrc | dataPos | loopStart | len | samples | volume | adpcmHeader | adpcmIndex | adpcmVal =>
    exact BitVec.toNat_setWidth_of_le (by decide)
  | playing => exact flagDword_toNat _
  | freq => rfl
  | enable => exact (flagDword_toNat _).trans (enableBit_toNat _)

theorem readEng_toNat (s : State) (e : EngReg) : (readEng s e).toNat = registerNat s (.eng e) := by
  cases e with
  | soundOn | stereo => exact flagDword_toNat _
  | sampleRate | mainVolume | channelMasterVolume | cfgSampleRate | cfgVolume =>
    exact BitVec.toNat_setWidth_of_le (by decide)
  | lifecycle =>
    unfold readEng registerNat
    cases s.ls <;> rfl

theorem readReg_toNat (s : State) (r : Reg) : (readReg s r).toNat = registerNat s r := by
  cases r with
  | ch id f => exact readField_toNat s id f
  | eng e => exact readEng_toNat s e
  | reserved q => rfl

/-- Settles O7: the data word is `readReg`, whose number is compared register by register. -/
theorem readReturnsTheRegisterZeroExtended : Obligations.ReadReturnsTheRegisterZeroExtended :=
  ⟨fun _ arg h => decode_rd h arg, fun s r => ⟨readReg s r, readReg_toNat s r, exec_rd r s⟩⟩

/-! ### INIT and SHUTDOWN (45_host_commands.md R212, R213) -/

theorem deviceOpen_iff (ls : Lifecycle) : deviceOpen ls = true ↔ ls = .initialized ∨ ls = .running := by
  cases ls <;> decide

/-- The request that closes an open device is all that closing shows. -/
theorem closeDevice_eq (s : State) :
    s.closeDevice = { s with resp := { s.resp with
      device := s.resp.device ++ if s.ls = .initialized ∨ s.ls = .running then [.closeDevice] else [] } } := by
  simp only [State.closeDevice, deviceOpen_iff]
  split
  · rfl
  · simp

/-- Settles O52: the device requests are those of closing, then the open request. -/
theorem initOpensTheDeviceAndReports : Obligations.InitOpensTheDeviceAndReports := by
  refine ⟨fun _ arg h => decode_init h arg, fun s => ?_⟩
  simp only [exec, execInit, closeDevice_eq]
  rfl

/-- Settles O53: the only request is that of closing. -/
theorem shutdownClosesTheDevice : Obligations.ShutdownClosesTheDevice := by
  refine ⟨fun _ arg h => decode_shutdown h arg, fun s => ?_⟩
  simp only [exec, execShutdown, closeDevice_eq]

/-! ### The moves of `LS` (45_host_commands.md R214) -/

/-- `LS` after a MIX that is carried out: the first pull moves INITIALIZED to RUNNING. -/
def afterPull (ls : Lifecycle) : Lifecycle := if ls = .initialized then .running else ls

theorem firstPull_eq (s : State) : s.firstPull = { s with ls := afterPull s.ls } := by
  unfold State.firstPull afterPull
  split <;> rfl

theorem lifecycleAfter_mix {b : Nat} {s : State} (hn : b / 2 ≤ s.params.mixbufLen) :
    lifecycleAfter (.mix b) s = afterPull s.ls := by simp [lifecycleAfter, afterPull, hn]

theorem lifecycleAfter_mix_reserved {b : Nat} {s : State} (hn : s.params.mixbufLen < b / 2) :
    lifecycleAfter (.mix b) s = s.ls := by simp [lifecycleAfter, Nat.not_le.mpr hn]

@[simp] theorem dmixUpto_ls (n : Nat) (s : State) : (dmixUpto n s).ls = s.ls := by
  obtain ⟨l, k, h, -⟩ := dmixUpto_frame n s
  rw [h]

@[simp] theorem writeReg_ls (s : State) (arg : Dword) (r : Reg) : (writeReg s arg r).ls = s.ls := by
  rw [writeReg_eq]

theorem mixSlots_ls (n : Nat) (s : State) : (mixSlots n s).ls = afterPull s.ls := by
  obtain ⟨-, hpasses, -⟩ := genEach_frame channelOrder n s
  rw [mixSlots, firstPull_eq, dmixUpto_ls, hpasses]

theorem sampleRow_ls {s t : State} {fmt : Fmt} (h : s.inCall (sampleOp fmt) = .next t) : t.ls = s.ls := by
  obtain ⟨-, -, -, hls, -⟩ := sampleRow_frame h
  exact hls

theorem boundaryRow_ls {s t : State} {lm : LoopMode} (h : s.inCall (boundaryOp lm) = .next t) : t.ls = s.ls := by
  rw [boundaryRow_eq h]

/-- Every instruction that answers a next state moves `LS` as the table says. -/
theorem ls_of_next {i : Instr} {s t : State} (h : exec i s = .next t) : t.ls = lifecycleAfter i s := by
  cases i with
  | nop | reset | init | shutdown | rd _ | tblinit | tblrd _ =>
    cases h
    rfl
  | wr r arg =>
    obtain ⟨-, rfl⟩ := wr_next h
    exact writeReg_ls s arg r
  | gen id n => exact (gen_next_frame h).ls
  | dmix n =>
    obtain ⟨l, k, rfl⟩ := dmix_next h
    rfl
  | mix b =>
    rcases mix_next h with ⟨hn, rfl⟩ | ⟨hn, -, rfl⟩
    · exact (lifecycleAfter_mix_reserved hn).symm
    · rw [mixSlots_ls, lifecycleAfter_mix hn]
  | adh id => rcases adh_next h with rfl | rfl <;> rfl
  | adx id d => rcases adx_next h with rfl | ⟨w, rfl⟩ <;> rfl
  | smpPcm8 => exact sampleRow_ls (fmt := .pcm8) h
  | smpPcm16 => exact sampleRow_ls (fmt := .pcm16) h
  | smpAdpcm => exact sampleRow_ls (fmt := .adpcm) h
  | smpPsg => exact sampleRow_ls (fmt := .psg) h
  | bndNone => exact boundaryRow_ls (lm := .none) h
  | bndLoop => exact boundaryRow_ls (lm := .loop) h
  | bndStop => exact boundaryRow_ls (lm := .stop) h
  | bndRsvd => exact boundaryRow_ls (lm := .rsvd) h

/-- Settles O54: the table is `ls_of_next`, instruction by instruction. -/
theorem lifecycleChangesOnlyAsTheTableSays : Obligations.LifecycleChangesOnlyAsTheTableSays :=
  ⟨fun _ => rfl, fun _ _ _ => ls_of_next⟩

/-! ### The same state in another lifecycle (45_host_commands.md R215) -/

/-- The same state with another `LS`. -/
def State.withLifecycle (s : State) (ls : Lifecycle) : State := { s with ls := ls }

section WithLifecycle
variable {s t : State} (ls : Lifecycle)

/-- Dressing a state in flags that are its own changes its lifecycle and call only. -/
theorem dress_own_flags (heng : t.eng = s.eng) (k : Option GenCall) :
    t.dress ls s.eng.soundOn s.eng.stereo k = { t.withLifecycle ls with call := k } := by
  rw [State.dress, State.withLifecycle, heng]

theorem readReg_withLifecycle {r : Reg} (hr : r ≠ .eng .lifecycle) (s : State) :
    readReg (s.withLifecycle ls) r = readReg s r := by
  cases r with
  | ch id f => rfl
  | eng e =>
    cases e with
    | lifecycle => exact absurd rfl hr
    | _ => rfl
  | reserved q => rfl

theorem writeReg_withLifecycle (s : State) (arg : Dword) (r : Reg) :
    writeReg (s.withLifecycle ls) arg r = (writeReg s arg r).withLifecycle ls := by
  cases r with
  | ch id f => rfl
  | eng e => cases e <;> rfl
  | reserved q => rfl

theorem gen_withLifecycle (id : ChannelId) (n : Nat) (s : State) :
    gen id n (s.withLifecycle ls) = (gen id n s).withLifecycle ls := by
  have hframe := (gen_frame id n s).setup
  calc gen id n (s.withLifecycle ls)
    _ = (gen id n s).dress ls s.eng.soundOn s.eng.stereo none :=
        dress_gen ls s.eng.soundOn s.eng.stereo s.call id n s
    _ = (gen id n s).withLifecycle ls := dress_own_flags ls hframe.eng none

theorem genEach_withLifecycle (ids : List ChannelId) (n : Nat) (s : State) :
    genEach ids n (s.withLifecycle ls) = (genEach ids n s).withLifecycle ls := by
  induction ids generalizing s with
  | nil => rfl
  | cons id ids ih =>
    show genEach ids n (gen id n (s.withLifecycle ls)) = (genEach ids n (gen id n s)).withLifecycle ls
    rw [gen_withLifecycle, ih]

theorem dmixUpto_withLifecycle (n : Nat) (s : State) :
    dmixUpto n (s.withLifecycle ls) = (dmixUpto n s).withLifecycle ls := by
  obtain ⟨l, k, hframe, -⟩ := dmixUpto_frame n s
  calc dmixUpto n (s.withLifecycle ls)
    _ = (dmixUpto n s).dress ls s.eng.soundOn s.eng.stereo s.call :=
        dress_dmixUpto ls s.eng.soundOn s.eng.stereo s.call n s
    _ = (dmixUpto n s).withLifecycle ls := by rw [hframe]; rfl

theorem firstPull_withLifecycle (s : State) :
    (s.withLifecycle ls).firstPull = s.firstPull.withLifecycle (afterPull ls) := by
  rw [firstPull_eq, firstPull_eq]
  rfl

theorem mixSlots_withLifecycle (n : Nat) (s : State) :
    mixSlots n (s.withLifecycle ls) = (mixSlots n s).withLifecycle (afterPull ls) := by
  rw [mixSlots, genEach_withLifecycle, dmixUpto_withLifecycle, firstPull_withLifecycle]
  rfl

/-- A micro-operation that reads neither lifecycle, engine flags nor the state's call, and keeps the engine, acts on the
call in progress whatever `LS` is. -/
theorem inCall_withLifecycle {f : Run → Run}
    (hf : ∀ ls a b k r, f (Run.dress r ls a b k) = (f r).dress ls a b k)
    (heng : t.eng = s.eng) (h : s.inCall f = .next t) :
    (s.withLifecycle ls).inCall f = .next (t.withLifecycle ls) := by
  obtain ⟨c, hc, rfl⟩ := inCall_next h
  have hrun : f (c, s.withLifecycle ls) = (f (c, s)).dress ls s.eng.soundOn s.eng.stereo s.call :=
    hf ls s.eng.soundOn s.eng.stereo s.call (c, s)
  have hstate : (f (c, s)).2.dress ls s.eng.soundOn s.eng.stereo s.call =
      { (f (c, s)).2.withLifecycle ls with call := s.call } := dress_own_flags ls heng s.call
  rw [inCall_of_call (s := s.withLifecycle ls) hc, hrun, Run.dress, hstate]
  rfl

theorem sampleRow_withLifecycle {fmt : Fmt} (h : s.inCall (sampleOp fmt) = .next t) :
    (s.withLifecycle ls).inCall (sampleOp fmt) = .next (t.withLifecycle ls) :=
  inCall_withLifecycle ls (fun ls a b k => dress_sampleOp ls a b k fmt) (sampleRow_eng_cfg h).1 h

theorem boundaryRow_withLifecycle {lm : LoopMode} (h : s.inCall (boundaryOp lm) = .next t) :
    (s.withLifecycle ls).inCall (boundaryOp lm) = .next (t.withLifecycle ls) :=
  inCall_withLifecycle ls (fun ls a b k => dress_boundaryOp ls a b k lm) (boundaryRow_eng_cfg h).1 h

theorem gen_next_withLifecycle {id : ChannelId} {n : Nat} (h : exec (.gen id n) s = .next t) :
    exec (.gen id n) (s.withLifecycle ls) = .next (t.withLifecycle ls) := by
  rcases gen_next h with ⟨hn, rfl⟩ | ⟨hn, hrate, rfl⟩
  · exact if_pos hn
  · rw [exec_gen (s := s.withLifecycle ls) hn hrate, gen_withLifecycle]

theorem dmix_next_withLifecycle {n : Nat} (h : exec (.dmix n) s = .next t) :
    exec (.dmix n) (s.withLifecycle ls) = .next (t.withLifecycle ls) := by
  simp only [exec, execDmix] at h
  split at h
  case isTrue hn =>
    cases h
    exact if_pos hn
  case isFalse hn =>
    cases h
    rw [exec_dmix (s := s.withLifecycle ls) (Nat.not_lt.mp hn), dmixUpto_withLifecycle]

theorem mix_next_withLifecycle {b : Nat} (h : exec (.mix b) s = .next t) :
    exec (.mix b) (s.withLifecycle ls) = .next (t.withLifecycle (lifecycleAfter (.mix b) (s.withLifecycle ls))) := by
  rcases mix_next h with ⟨hn, rfl⟩ | ⟨hn, hrate, rfl⟩
  · rw [lifecycleAfter_mix_reserved (s := t.withLifecycle ls) hn]
    exact if_pos hn
  · rw [lifecycleAfter_mix (s := s.withLifecycle ls) hn, exec_mix (s := s.withLifecycle ls) hn hrate,
      mixSlots_withLifecycle]
    rfl

theorem adh_next_withLifecycle {id : ChannelId} (h : exec (.adh id) s = .next t) :
    exec (.adh id) (s.withLifecycle ls) = .next (t.withLifecycle ls) := by
  simp only [exec, execAdh] at h
  split at h
  case isTrue hexpand =>
    cases h
    exact if_pos hexpand
  case isFalse hexpand =>
    cases h
    exact if_neg hexpand

theorem adx_next_withLifecycle {id : ChannelId} {d : BitVec 4} (h : exec (.adx id d) s = .next t) :
    exec (.adx id d) (s.withLifecycle ls) = .next (t.withLifecycle ls) := by
  have hparams : (s.withLifecycle ls).params = s.params := rfl
  have hchan : (s.withLifecycle ls).chan id = s.chan id := rfl
  simp only [exec, execAdx, hparams, hchan] at h ⊢
  split at h
  case isTrue hexpand =>
    rw [if_pos hexpand]
    split at h
    case h_1 => cases h
    case h_2 =>
      cases h
      rfl
  case isFalse hexpand =>
    cases h
    exact if_neg hexpand

end WithLifecycle

/-- Settles O55: by the instructions, each of which leaves `LS` unread and, but for MIX, as it is. -/
theorem lifecycleGatesNothing : Obligations.LifecycleGatesNothing := by
  intro i s t ls hreset hinit hshutdown hrd h
  show exec i (s.withLifecycle ls) = .next (t.withLifecycle (lifecycleAfter i (s.withLifecycle ls)))
  cases i with
  | reset => exact absurd rfl hreset
  | init => exact absurd rfl hinit
  | shutdown => exact absurd rfl hshutdown
  | nop | tblinit | tblrd _ =>
    cases h
    rfl
  | rd r =>
    cases h
    rw [exec_rd, readReg_withLifecycle ls fun e => hrd (congrArg _ e)]
    rfl
  | wr r arg =>
    obtain ⟨hlegal, rfl⟩ := wr_next h
    rw [exec_wr hlegal, writeReg_withLifecycle]
    rfl
  | gen id n => exact gen_next_withLifecycle ls h
  | dmix n => exact dmix_next_withLifecycle ls h
  | mix b => exact mix_next_withLifecycle ls h
  | adh id => exact adh_next_withLifecycle ls h
  | adx id d => exact adx_next_withLifecycle ls h
  | smpPcm8 => exact sampleRow_withLifecycle (fmt := .pcm8) ls h
  | smpPcm16 => exact sampleRow_withLifecycle (fmt := .pcm16) ls h
  | smpAdpcm => exact sampleRow_withLifecycle (fmt := .adpcm) ls h
  | smpPsg => exact sampleRow_withLifecycle (fmt := .psg) ls h
  | bndNone => exact boundaryRow_withLifecycle (lm := .none) ls h
  | bndLoop => exact boundaryRow_withLifecycle (lm := .loop) ls h
  | bndStop => exact boundaryRow_withLifecycle (lm := .stop) ls h
  | bndRsvd => exact boundaryRow_withLifecycle (lm := .rsvd) ls h

end Sys2Proof.Machine
end

section
/-! PROOFS. Encoding (30_encoding.md): decoding what the encoder writes, what the decoder accepts, and the operand bits it
ignores. -/

namespace Sys2Proof

/-! ### Fields of an encoded operand -/

/-- A channel id in the low four bits of an operand is read back. -/
theorem channelIdOf_operand {k : Nat} {id : ChannelId} (h : k % 2 ^ 28 % 2 ^ 4 = id.val) :
    channelIdOf ((BitVec.ofNat 28 k).extractLsb' 0 4) = id := by
  apply Fin.ext
  show ((BitVec.ofNat 28 k).extractLsb' 0 4).toNat = _
  rw [field_ofNat, pow_zero, Nat.div_one, h]

/-- A well-formed register is read back from the operand of WR and RD. -/
theorem ofIndex_operand {r : Reg} (h : r.wf = true) :
    Reg.ofIndex ((BitVec.ofNat 28 r.index.toNat).extractLsb' 0 9) = r := by
  rw [index_of_operand, ofIndex_index r h]

/-! ### One row at a time: the decoder reads back what the encoder wrote -/

theorem decode_encode_wr {r : Reg} (h : r.wf = true) (arg : Dword) :
    decode (encode (.wr r arg)).word arg = .ok (.wr r arg) := by
  refine (decode_commandWord ..).trans ?_
  show Except.ok (Instr.wr (Reg.ofIndex _) arg) = _
  rw [ofIndex_operand h]

theorem decode_encode_rd {r : Reg} (h : r.wf = true) : decode (encode (.rd r)).word 0 = .ok (.rd r) := by
  refine (decode_commandWord ..).trans ?_
  show Except.ok (Instr.rd (Reg.ofIndex _)) = _
  rw [ofIndex_operand h]

theorem decode_encode_gen (id : ChannelId) {n : Nat} (h : n < 2 ^ 24) :
    decode (encode (.gen id n)).word 0 = .ok (.gen id n) := by
  have hid := id.isLt
  refine (decode_commandWord ..).trans ?_
  show Except.ok (Instr.gen (channelIdOf _) (BitVec.toNat _)) = _
  rw [channelIdOf_operand (id := id) (by omega), field_ofNat]
  congr 2
  omega

theorem decode_encode_dmix {n : Nat} (h : n < 2 ^ 24) : decode (encode (.dmix n)).word 0 = .ok (.dmix n) := by
  refine (decode_commandWord ..).trans ?_
  show Except.ok (Instr.dmix (BitVec.toNat _)) = _
  rw [field_ofNat]
  congr 2
  omega

theorem decode_encode_mix {b : Nat} (h : b < 2 ^ 28) : decode (encode (.mix b)).word 0 = .ok (.mix b) := by
  refine (decode_commandWord ..).trans ?_
  show Except.ok (Instr.mix (BitVec.toNat _)) = _
  rw [BitVec.toNat_ofNat, Nat.mod_eq_of_lt h]

theorem decode_encode_tblrd (a : TableIndex) : decode (encode (.tblrd a)).word 0 = .ok (.tblrd a) := by
  have ha := a.isLt
  refine (decode_commandWord ..).trans ?_
  refine congrArg (fun i => Except.ok (Instr.tblrd i)) (Fin.ext ?_)
  show BitVec.toNat _ = _
  rw [field_ofNat]
  omega

theorem decode_encode_adh (id : ChannelId) : decode (encode (.adh id)).word 0 = .ok (.adh id) := by
  have hid := id.isLt
  refine (decode_commandWord ..).trans ?_
  show Except.ok (Instr.adh (channelIdOf _)) = _
  rw [channelIdOf_operand (id := id) (by omega)]

theorem decode_encode_adx (id : ChannelId) (d : BitVec 4) :
    decode (encode (.adx id d)).word 0 = .ok (.adx id d) := by
  have hid := id.isLt
  have hd := d.isLt
  have hcode : (BitVec.ofNat 28 (16 * d.toNat + id.val)).extractLsb' 4 4 = d := by
    apply BitVec.eq_of_toNat_eq
    rw [field_ofNat]
    omega
  refine (decode_commandWord ..).trans ?_
  show Except.ok (Instr.adx (channelIdOf _) (BitVec.extractLsb' 4 4 _)) = _
  rw [channelIdOf_operand (id := id) (by omega), hcode]

/-- Settles O14: by the rows of the table; a row with operands is read back field by field. -/
theorem decodeOfEncodeIsTheInstruction : Obligations.DecodeOfEncodeIsTheInstruction := by
  intro i hwf
  cases i with
  | nop => exact decode_commandWord 0x0 _ 0
  | reset => exact decode_commandWord 0x1 _ 0
  | init => exact decode_commandWord 0x2 _ 0
  | shutdown => exact decode_commandWord 0x3 _ 0
  | tblinit => exact decode_commandWord 0x9 _ 0
  | wr r arg => exact decode_encode_wr hwf arg
  | rd r => exact decode_encode_rd hwf
  | gen id n => exact decode_encode_gen id (of_decide_eq_true hwf)
  | dmix n => exact decode_encode_dmix (of_decide_eq_true hwf)
  | mix b => exact decode_encode_mix (of_decide_eq_true hwf)
  | tblrd a => exact decode_encode_tblrd a
  | adh id => exact decode_encode_adh id
  | adx id d => exact decode_encode_adx id d
  | smpPcm8 | smpPcm16 | smpAdpcm | smpPsg | bndNone | bndLoop | bndStop | bndRsvd => decide

/-! ### What the decoder accepts (30_encoding.md R97, R98) -/

/-- The opcode of a command word is rejected exactly when it is 0xD, 0xE or 0xF. -/
theorem decodeOp_error_iff (op : BitVec 4) (operand : BitVec 28) (arg : Dword) :
    (∃ e, decodeOp op operand arg = .error e) ↔ 0xD ≤ op.toNat := by
  have hop := op.isLt
  unfold decodeOp
  generalize op.toNat = k at hop
  interval_cases k <;> simp

/-- Every instruction of a command word is well formed and a command. -/
theorem decodeOp_ok {op : BitVec 4} {operand : BitVec 28} {arg : Dword} {i : Instr}
    (h : decodeOp op operand arg = .ok i) : i.wf = true ∧ i.kind = .cmd := by
  unfold decodeOp at h
  split at h <;> cases h
  case h_5 | h_6 => exact ⟨ofIndex_wf _, rfl⟩
  case h_7 | h_8 => exact ⟨decide_eq_true (operand.extractLsb' 4 24).isLt, rfl⟩
  case h_9 => exact ⟨decide_eq_true operand.isLt, rfl⟩
  all_goals exact ⟨rfl, rfl⟩

theorem decodeAs_ok {k : WordKind} {w : Word} {arg : Dword} {i : Instr} (h : decodeAs k w arg = .ok i) :
    i.wf = true ∧ i.kind = k := by
  cases k with
  | cmd => exact decodeOp_ok h
  | cntFmt =>
    cases h
    unfold decodeSample
    cases decodeFmt w <;> exact ⟨rfl, rfl⟩
  | cntLm =>
    cases h
    unfold decodeBoundary
    cases decodeLoopMode w <;> exact ⟨rfl, rfl⟩

theorem decode_error_iff (w : Word) (arg : Dword) : (∃ e, decode w arg = .error e) ↔ 0xD0000000 ≤ w.toNat := by
  rw [decode, decodeOp_error_iff, opcode_toNat]
  omega

/-- Settles O15: by the rows of `decodeOp`, and the opcode as the top four bits of the word. -/
theorem decoderAcceptsExactlyTheTable : Obligations.DecoderAcceptsExactlyTheTable :=
  ⟨fun _ _ _ _ => decodeAs_ok, decode_error_iff⟩

/-! ### Operand bits that a command does not name (30_encoding.md R98) -/

/-- Operands that agree in every field a command names decode alike, and the argument matters for WR only. -/
theorem decodeOp_congr {op : BitVec 4} {operand operand' : BitVec 28} {arg arg' : Dword}
    (harg : op.toNat = 4 → arg = arg')
    (hfield : ∀ lo len, lo + len ≤ 28 → (∀ i, i < len → (Machine.namedOperandBits op.toNat).getLsbD (lo + i) = true) →
      operand.extractLsb' lo len = operand'.extractLsb' lo len) :
    decodeOp op operand arg = decodeOp op operand' arg' := by
  have hop := op.isLt
  unfold decodeOp
  generalize op.toNat = k at hop harg hfield
  interval_cases k
  iterate 4 rfl
  · simp only [hfield 0 9 (by decide) (by decide), harg rfl]
  · simp only [hfield 0 9 (by decide) (by decide)]
  · simp only [hfield 0 4 (by decide) (by decide), hfield 4 24 (by decide) (by decide)]
  · simp only [hfield 4 24 (by decide) (by decide)]
  · have hall := hfield 0 28 (by decide) (by decide)
    rw [BitVec.extractLsb'_eq_self, BitVec.extractLsb'_eq_self] at hall
    simp only [hall]
  · rfl
  · simp only [hfield 0 7 (by decide) (by decide)]
  · simp only [hfield 0 4 (by decide) (by decide)]
  · simp only [hfield 0 4 (by decide) (by decide), hfield 4 4 (by decide) (by decide)]
  iterate 3 rfl

/-- Settles O16: words that agree in the named bits agree in the opcode and in every field its row reads. -/
theorem unnamedOperandBitsAreIgnored : Obligations.UnnamedOperandBitsAreIgnored := by
  intro w w' arg arg' hbits harg
  have hop : w.extractLsb' 28 4 = w'.extractLsb' 28 4 := by
    refine field_of_and hbits 28 4 fun i hi => ?_
    rw [BitVec.getLsbD_or, Bool.or_eq_true]
    left
    interval_cases i <;> decide
  rw [← opcode_toNat] at hbits harg
  rw [decode, decode, ← hop]
  refine decodeOp_congr harg fun lo len hlen hnamed => ?_
  rw [operand_field w hlen, operand_field w' hlen]
  refine field_of_and hbits lo len fun i hi => ?_
  rw [BitVec.getLsbD_or, hnamed i hi, Bool.or_true]

/-- Settles O18: the decoder evaluated on the nine words. -/
theorem decodeOfWordsTheSpecWritesOut : Obligations.DecodeOfWordsTheSpecWritesOut := by
  unfold Obligations.DecodeOfWordsTheSpecWritesOut
  decide

end Sys2Proof
end

section
/-! PROOFS. State (10_state.md): what RESET leaves alone, the exact value of a frequency pattern, and what a WR keeps. -/

namespace Sys2Proof

theorem decode_reset {w : Word} (h : w.toNat / 2 ^ 28 = 0x1) (arg : Dword) : decode w arg = .ok .reset :=
  decode_of_opcode (op := 0x1) h arg

end Sys2Proof

namespace Sys2Proof.Machine

/-! ### RESET (45_host_commands.md R201) -/

/-- Settles O2: RESET is `resetBlock` after closing, and closing shows the device request only. -/
theorem resetClosesTheDeviceAndKeepsConfiguration : Obligations.ResetClosesTheDeviceAndKeepsConfiguration := by
  refine ⟨fun _ arg h => decode_reset h arg, fun s => ⟨_, exec_reset s, resetBlock_afterReset _, ?_⟩⟩
  rw [closeDevice_eq]
  rfl

/-! ### The value of a frequency pattern (10_state.md R31) -/

theorem mkRat_two_pow (n k : Nat) : mkRat n (2 ^ k) = (n : Rat) * (2 : Rat) ^ (-(k : Int)) := by
  rw [Rat.mkRat_eq_div, zpow_neg, zpow_natCast, div_eq_mul_inv]
  push_cast
  rfl

/-- A legal pattern with exponent field 0 is a multiple of 2^-1074. -/
theorem fval_of_exponent_zero {p : Dword} (h : legalFreq p = true) (he : (p.extractLsb' 52 11).toNat = 0) :
    fval p = ((p.extractLsb' 0 52).toNat : Rat) * (2 : Rat) ^ (-1074 : Int) := by
  simp only [fval, h, he, if_true]
  exact mkRat_two_pow _ 1074

/-- A legal pattern with another exponent field has the implicit leading bit. -/
theorem fval_of_exponent_pos {p : Dword} (h : legalFreq p = true) (he : 1 ≤ (p.extractLsb' 52 11).toNat) :
    fval p = ((2 : Rat) ^ 52 + ((p.extractLsb' 0 52).toNat : Rat)) *
      (2 : Rat) ^ (((p.extractLsb' 52 11).toNat : Int) - 1075) := by
  simp only [fval, h, if_true, if_neg (Nat.one_le_iff_ne_zero.mp he)]
  generalize (p.extractLsb' 52 11).toNat = e
  split
  case isTrue hle =>
    rw [mkRat_two_pow, Nat.cast_sub hle, neg_sub]
    push_cast
    rfl
  case isFalse hlt =>
    obtain ⟨k, rfl⟩ := Nat.exists_eq_add_of_lt (Nat.lt_of_not_le hlt)
    have hsub : (1075 + k + 1 : Nat) - 1075 = k + 1 := by omega
    have hexp : ((1075 + k + 1 : Nat) : Int) - 1075 = (k + 1 : Nat) := by omega
    rw [hsub, hexp, zpow_natCast]
    push_cast
    rfl

theorem fval_nonneg {p : Dword} (h : legalFreq p = true) : 0 ≤ fval p := by
  rcases Nat.eq_zero_or_pos (p.extractLsb' 52 11).toNat with he | he
  · rw [fval_of_exponent_zero h he]
    positivity
  · rw [fval_of_exponent_pos h he]
    positivity

/-- Settles O3: by the exponent field, and the six examples by evaluation. -/
theorem legalFrequencyPatternHasItsExactValue : Obligations.LegalFrequencyPatternHasItsExactValue := by
  refine ⟨fun p h => ⟨fval_of_exponent_zero h, fun he _ => fval_of_exponent_pos h he, fval_nonneg h⟩, ?_⟩
  decide +kernel

/-! ### What a WR keeps (10_state.md R41, R42) -/

/-- A one-bit register reads back the low bit of the argument. -/
theorem flagDword_low (arg : Dword) : flagDword (arg.getLsbD 0) = BitVec.ofNat 64 (arg.toNat % 2) := by
  apply BitVec.eq_of_toNat_eq
  rw [flagDword_toNat, getLsbD_zero_toNat, BitVec.toNat_ofNat]
  omega

/-- A write of ENABLE is read back from `cnt[31]` (10_state.md R23). -/
theorem enableBit_setEnable (b : Bool) (c : Channel) : enableBit (setEnable b c) = b := by
  have h := enableBit_toNat (setEnable b c)
  rw [setEnable_toNat] at h
  have hb : (enableBit (setEnable b c)).toNat = b.toNat := by
    have := b.toNat_lt
    omega
  rw [← Bool.ofNat_toNat (enableBit _), hb, Bool.ofNat_toNat]

theorem readField_writeField (s : State) (id : ChannelId) (f : ChField) (c : Channel) (arg : Dword) :
    readField (writeField c arg f) f = readAfterWrite s arg (.ch id f) := by
  cases f with
  | cnt | dataSrc | dataPos | loopStart | len | samples | adpcmHeader | adpcmIndex | adpcmVal =>
    exact setWidth_low arg 32
  | volume => exact setWidth_low arg 7
  | playing => exact flagDword_low arg
  | freq => rfl
  | enable => exact (congrArg flagDword (enableBit_setEnable _ c)).trans (flagDword_low arg)

theorem readEng_writeEng (s : State) (e : EngReg) (arg : Dword) :
    readEng (writeEng s arg e) e = readAfterWrite s arg (.eng e) := by
  cases e with
  | soundOn | stereo => exact flagDword_low arg
  | sampleRate | channelMasterVolume | lifecycle => rfl
  | mainVolume => exact setWidth_low arg 7
  | cfgSampleRate => exact setWidth_low arg 32
  | cfgVolume =>
    apply BitVec.eq_of_toNat_eq
    show ((saturateVolume (arg.extractLsb' 0 8)).setWidth 64).toNat = (BitVec.ofNat 64 (min (arg.toNat % 2 ^ 8) 128)).toNat
    rw [BitVec.toNat_setWidth_of_le (by decide), saturateVolume_toNat, BitVec.extractLsb'_toNat, Nat.shiftRight_zero,
      BitVec.toNat_ofNat]
    omega

/-- Settles O5: by the register written, channel field or engine register. -/
theorem writeThenReadGivesTheNamedBits : Obligations.WriteThenReadGivesTheNamedBits := by
  intro s r arg hlegal
  refine ⟨_, exec_wr hlegal s, ?_⟩
  cases r with
  | ch id f =>
    show readField ((s.setChan id (writeField (s.chan id) arg f)).chan id) f = _
    rw [chan_setChan_self]
    exact readField_writeField s id f _ arg
  | eng e => exact readEng_writeEng s e arg
  | reserved q => rfl

/-! ### What a WR leaves alone (10_state.md R42) -/

/-- A write of a field leaves every field that shares no storage with it: for each pair, the field written is not the one
read, or the pair is excluded. -/
theorem readField_writeField_of_not_shares {id : ChannelId} {f f' : ChField}
    (h : Reg.shares (.ch id f) (.ch id f') = false) (c : Channel) (arg : Dword) :
    readField (writeField c arg f) f' = readField c f' := by
  revert h
  cases f <;> cases f' <;> simp [Reg.shares, writeField, readField, setEnable, enableBit]

/-- A write of an engine register leaves every other one. -/
theorem readEng_writeEng_of_ne {e e' : EngReg} (h : e ≠ e') (s : State) (arg : Dword) :
    readEng (writeEng s arg e) e' = readEng s e' := by
  revert h
  cases e <;> cases e' <;> simp [writeEng, readEng]

theorem writeEng_ch (s : State) (arg : Dword) (e : EngReg) : (writeEng s arg e).ch = s.ch := by cases e <;> rfl

theorem readReg_writeReg_of_not_shares {r r' : Reg} (h : r.shares r' = false) (s : State) (arg : Dword) :
    readReg (writeReg s arg r) r' = readReg s r' := by
  cases r' with
  | reserved q => rfl
  | ch j f' =>
    cases r with
    | reserved q => rfl
    | eng e =>
      show readField (writeEng s arg e).ch[j.val] f' = readField s.ch[j.val] f'
      simp only [writeEng_ch]
    | ch i f =>
      show readField ((s.setChan i (writeField (s.chan i) arg f)).chan j) f' = readField (s.chan j) f'
      rw [chan_setChan]
      split
      case isTrue e =>
        subst e
        exact readField_writeField_of_not_shares h _ arg
      case isFalse => rfl
  | eng e' =>
    cases r with
    | reserved q => rfl
    | ch i f => cases e' <;> rfl
    | eng e =>
      refine readEng_writeEng_of_ne (fun he => ?_) s arg
      subst he
      simp [Reg.shares] at h

/-- Settles O6: by the register written and the register read; the frame is the model's `writeReg_eq`. -/
theorem writeChangesNothingElse : Obligations.WriteChangesNothingElse := by
  intro s t r arg h
  obtain ⟨-, rfl⟩ := wr_next h
  refine ⟨fun r' hr => readReg_writeReg_of_not_shares hr s arg, writeReg_eq s arg r, ?_, ?_⟩
  · rintro (⟨e, rfl⟩ | ⟨q, rfl⟩)
    · exact writeEng_ch s arg e
    · rfl
  · rintro id f rfl
    exact ⟨rfl, rfl, fun j hj => chan_setChan_of_ne s _ hj⟩

end Sys2Proof.Machine
end

section
/-! PROOFS. The whole machine (20_memory.md, 60_exceptions.md): what a command can do, said once; what no instruction
changes; the steps of the command port; the invariant. -/

namespace Sys2Proof.Machine

variable {s t : State}

/-! ### What an instruction can do -/

/-- A row that is no command is a sample or a boundary micro-operation on the call in progress. -/
theorem microRow_exec {i : Instr} (hk : i.kind ≠ .cmd) :
    (∃ fmt, ∀ s, exec i s = s.inCall (sampleOp fmt)) ∨ ∃ lm, ∀ s, exec i s = s.inCall (boundaryOp lm) := by
  cases i with
  | smpPcm8 => exact .inl ⟨.pcm8, fun _ => rfl⟩
  | smpPcm16 => exact .inl ⟨.pcm16, fun _ => rfl⟩
  | smpAdpcm => exact .inl ⟨.adpcm, fun _ => rfl⟩
  | smpPsg => exact .inl ⟨.psg, fun _ => rfl⟩
  | bndNone => exact .inr ⟨.none, fun _ => rfl⟩
  | bndLoop => exact .inr ⟨.loop, fun _ => rfl⟩
  | bndStop => exact .inr ⟨.stop, fun _ => rfl⟩
  | bndRsvd => exact .inr ⟨.rsvd, fun _ => rfl⟩
  | _ => exact absurd rfl hk

/-- A predicate on states is kept by every command but RESET and WR when it is kept by GEN within the mix buffer, by a
change of the ADPCM registers of a channel, and by a change of the lifecycle, the output ports, the count of free values
or the step table, which only TBLINIT writes. -/
theorem command_state {P : State → Prop} {i : Instr} (hk : i.kind = .cmd) (hreset : i ≠ .reset)
    (hwr : ∀ r arg, i ≠ .wr r arg) (h : exec i s = .next t) (hs : P s)
    (pass : ∀ id n u, n ≤ s.params.mixbufLen → u.params = s.params → P u → P (gen id n u))
    (adpcm : ∀ u id v k, P u → P (u.setChan id { u.chan id with adpcmVal := v, adpcmIndex := k }))
    (rest : ∀ u ls resp free table, (table = u.table ∨ table = stepTable u.params) → P u →
      P { u with ls := ls, resp := resp, freeCount := free, table := table }) : P t := by
  cases i with
  | reset => exact absurd rfl hreset
  | wr r arg => exact absurd rfl (hwr r arg)
  | smpPcm8 | smpPcm16 | smpAdpcm | smpPsg | bndNone | bndLoop | bndStop | bndRsvd => cases hk
  | nop =>
    cases h
    exact hs
  | init =>
    rw [initOpensTheDeviceAndReports.2] at h
    cases h
    exact rest s _ _ s.freeCount s.table (.inl rfl) hs
  | shutdown =>
    rw [shutdownClosesTheDevice.2] at h
    cases h
    exact rest s _ _ s.freeCount s.table (.inl rfl) hs
  | rd _ | tblrd _ =>
    cases h
    exact rest s s.ls _ s.freeCount s.table (.inl rfl) hs
  | tblinit =>
    cases h
    exact rest s s.ls s.resp s.freeCount _ (.inr rfl) hs
  | gen id n =>
    rcases gen_next h with ⟨-, rfl⟩ | ⟨hn, -, rfl⟩
    · exact hs
    · exact pass id n s hn rfl hs
  | dmix n =>
    obtain ⟨l, k, rfl⟩ := dmix_next h
    exact rest s s.ls _ k s.table (.inl rfl) hs
  | mix b =>
    rcases mix_next h with ⟨-, rfl⟩ | ⟨hn, -, rfl⟩
    · exact hs
    · have hpasses : (genEach channelOrder (b / 2) s).params = s.params ∧ P (genEach channelOrder (b / 2) s) :=
        genEach_state (P := fun u => u.params = s.params ∧ P u)
          (fun id u hu => ⟨(gen_frame id _ u).setup.params.trans hu.1, pass id _ u hn hu.1 hu.2⟩) channelOrder ⟨rfl, hs⟩
      obtain ⟨l, k, -, e⟩ := mixSlots_eq (b / 2) s
      rw [e, firstPull_eq]
      exact rest (genEach channelOrder (b / 2) s) _ _ k _ (.inl rfl) hpasses.2
  | adh id =>
    rcases adh_next h with rfl | rfl
    · exact hs
    · exact adpcm s id _ _ hs
  | adx id d =>
    rcases adx_next h with rfl | ⟨w, rfl⟩
    · exact hs
    · exact rest _ _ _ _ _ (.inl rfl) (adpcm s id _ _ hs)

/-! ### What no instruction changes -/

/-- The parts of the state that no instruction writes: parameters, port, `dev_ok`, and memory but for the platform. -/
structure InstrFrame (s t : State) : Prop where
  params : t.params = s.params
  port : t.port = s.port
  devOk : t.devOk = s.devOk
  memory : PlatformOnly s t

theorem InstrFrame.refl (s : State) : InstrFrame s s := ⟨rfl, rfl, rfl, .refl s⟩

theorem InstrFrame.trans {u : State} (h : InstrFrame s t) (k : InstrFrame t u) : InstrFrame s u :=
  ⟨k.params.trans h.params, k.port.trans h.port, k.devOk.trans h.devOk, h.memory.trans h.params k.memory⟩

theorem gen_instrFrame (id : ChannelId) (n : Nat) (s : State) : InstrFrame s (gen id n s) :=
  have hf := gen_frame id n s
  ⟨hf.setup.params, hf.setup.port, hf.setup.devOk, hf.memory⟩

theorem writeReg_instrFrame (s : State) (arg : Dword) (r : Reg) : InstrFrame s (writeReg s arg r) := by
  rw [writeReg_eq]
  exact ⟨rfl, rfl, rfl, .same rfl rfl⟩

theorem instrFrame_of_next {i : Instr} (h : exec i s = .next t) : InstrFrame s t := by
  by_cases hk : i.kind = .cmd
  · by_cases hreset : i = .reset
    · subst hreset
      cases h
      exact ⟨closeDevice_params s, closeDevice_port s, closeDevice_devOk s,
        .same (closeDevice_mem s) (closeDevice_liveStores s)⟩
    by_cases hwr : ∃ r arg, i = .wr r arg
    · obtain ⟨r, arg, rfl⟩ := hwr
      obtain ⟨-, rfl⟩ := wr_next h
      exact writeReg_instrFrame s arg r
    exact command_state (P := InstrFrame s) hk hreset (fun r arg e => hwr ⟨r, arg, e⟩) h (.refl s)
      (fun id n u _ _ hu => hu.trans (gen_instrFrame id n u))
      (fun _ _ _ _ hu => hu.trans ⟨rfl, rfl, rfl, .same rfl rfl⟩)
      (fun _ _ _ _ _ _ hu => hu.trans ⟨rfl, rfl, rfl, .same rfl rfl⟩)
  · rcases microRow_exec hk with ⟨fmt, e⟩ | ⟨lm, e⟩
    · obtain ⟨hparams, hport, hdev, -, -, -, -, hmem⟩ := sampleRow_frame ((e s).symm.trans h)
      exact ⟨hparams, hport, hdev, hmem⟩
    · rw [boundaryRow_eq ((e s).symm.trans h)]
      exact ⟨rfl, rfl, rfl, .same rfl rfl⟩

/-- A command leaves the transient call alone or ends it (10_state.md R39). -/
theorem call_of_next {i : Instr} (hk : i.kind = .cmd) (h : exec i s = .next t) : t.call = s.call ∨ t.call = none := by
  by_cases hreset : i = .reset
  · subst hreset
    cases h
    exact .inr rfl
  by_cases hwr : ∃ r arg, i = .wr r arg
  · obtain ⟨r, arg, rfl⟩ := hwr
    obtain ⟨-, rfl⟩ := wr_next h
    rw [writeReg_eq]
    exact .inl rfl
  exact command_state (P := fun u => u.call = s.call ∨ u.call = none) hk hreset (fun r arg e => hwr ⟨r, arg, e⟩) h
    (.inl rfl) (fun id n u _ _ _ => .inr (gen_call id n u)) (fun _ _ _ _ hu => hu) (fun _ _ _ _ _ _ hu => hu)

/-- Settles O10: the frame of every instruction, and what a command does to the call. -/
theorem noInstructionChangesParametersOrPort : Obligations.NoInstructionChangesParametersOrPort := by
  intro i s t h
  obtain ⟨hparams, hport, hdev, -⟩ := instrFrame_of_next h
  exact ⟨hparams, hport, hdev, fun hk => call_of_next hk h⟩

/-- Settles O11: the frame of every instruction lets memory change by the platform's batches only, and a stable Memory
Source has none. -/
theorem blockNeverWritesMemory : Obligations.BlockNeverWritesMemory := by
  intro i s t h
  have hmem := (instrFrame_of_next h).memory
  exact ⟨hmem.mem_of_stable, hmem⟩

/-! ### Halfwords and stores (20_memory.md R63, R64, R67, R72) -/

/-- The address after an even one does not wrap. -/
theorem even_succ_toNat {a : Word} (h : a.getLsbD 0 = false) : (a + 1).toNat = a.toNat + 1 := by
  have hlt := a.isLt
  have heven := getLsbD_zero_toNat a
  rw [h, Bool.toNat_false] at heven
  rw [BitVec.toNat_add]
  show (a.toNat + 1) % 2 ^ 32 = _
  omega

theorem hostBytes_append (l : List Half) (v : Half) :
    hostBytes (l ++ [v]) = hostBytes l ++ [v.extractLsb' 0 8, v.extractLsb' 8 8] := by simp [hostBytes]

theorem half_bytes (v : Half) :
    v.extractLsb' 0 8 = BitVec.ofNat 8 (v.toNat % 256) ∧ v.extractLsb' 8 8 = BitVec.ofNat 8 (v.toNat / 256) := by
  constructor
  · apply BitVec.eq_of_toNat_eq
    rw [BitVec.extractLsb'_toNat, Nat.shiftRight_zero, BitVec.toNat_ofNat]
    omega
  · apply BitVec.eq_of_toNat_eq
    rw [BitVec.extractLsb'_toNat, Nat.shiftRight_eq_div_pow, BitVec.toNat_ofNat]

/-- Settles O12: an even address has room above it, and a halfword is its high byte, then its low byte. -/
theorem halfwordsAreLittleEndian : Obligations.HalfwordsAreLittleEndian := by
  refine ⟨fun m a h => ⟨even_succ_toNat h, m.readHalf_toNat a⟩, fun l v => ?_⟩
  rw [hostBytes_append, (half_bytes v).1, (half_bytes v).2]

theorem Memory.read_store (m : Memory) (x : Store) (a : Word) :
    (m.store x).read a = if a = x.addr then x.value else m.read a := by
  simp only [Memory.read, Memory.store, sparseGet_sparseSet, BitVec.toNat_inj]
  split <;> rfl

/-! ### The steps of the command port (20_memory.md R72, R73) -/

theorem step_empty (h : s.port = []) : step s = .next s := by simp [step, h]

theorem step_store {x : Store} {rest : List Arrival} (h : s.port = .store x :: rest) :
    step s = .next (s.platformStore x rest) := by simp [step, h]

theorem step_command {c : PortCommand} {rest : List Arrival} {i : Instr} (h : s.port = .command c :: rest)
    (hi : decode c.cmd c.arg = .ok i) : step s = exec i (s.accept c rest) := by simp [step, h, hi]

theorem step_reserved {c : PortCommand} {rest : List Arrival} {e : DecodeError} (h : s.port = .command c :: rest)
    (he : decode c.cmd c.arg = .error e) : step s = .next (s.accept c rest) := by simp [step, h, he]

/-- Settles O13: the step is the platform's store, and memory reads after it by `sparseGet_sparseSet`. -/
theorem platformStoreIsReadBack : Obligations.PlatformStoreIsReadBack :=
  fun s x _ h => ⟨_, step_store h, s.mem.read_store x, Memory.store_wf x, rfl⟩

/-- Settles O19: the accepted state is the one the statement writes out. -/
theorem stepRunsTheDecodedInstruction : Obligations.StepRunsTheDecodedInstruction :=
  fun _ _ _ _ => step_command

/-- Settles O20: a word of a reserved opcode is rejected by the decoder, so the step only accepts it. -/
theorem stepIgnoresReservedCommandsAndIdles : Obligations.StepIgnoresReservedCommandsAndIdles := by
  refine fun s => ⟨fun c rest h hc => ?_, step_empty⟩
  obtain ⟨e, he⟩ := (decode_error_iff c.cmd c.arg).mpr hc
  exact step_reserved h he

/-! ### The invariant (10_state.md R30, R33, R35, R37 to R40) -/

theorem powerOn_inv {p : Params} (h : p.cfgDefaultVolume.toNat ≤ 128) : Inv (State.powerOn p) where
  memory := ⟨.nil, nofun⟩
  buffer := ⟨.nil, nofun⟩
  transient := rfl
  freqs id := by
    rw [powerOn_chan]
    decide
  volumes := ⟨h, h⟩
  table := rfl

/-- Settles O58: State.reset is the power-on state of the default parameters. -/
theorem invariantHoldsAtPowerOn : Obligations.InvariantHoldsAtPowerOn :=
  ⟨powerOn_inv (by decide), fun _ => powerOn_inv⟩

/-- RESET zeroes what the invariant speaks of, or sets it from `cfg` and the parameters. -/
theorem Inv.reset (h : Inv s) : Inv s.closeDevice.resetBlock where
  memory := by simpa using h.memory
  buffer := ⟨.nil, nofun⟩
  transient := rfl
  freqs id := by
    rw [resetBlock_chan]
    decide
  volumes := ⟨by simpa using h.volumes.cfg, by simpa using h.volumes.cfg⟩
  table := rfl

/-- A WR that is not refused leaves a legal pattern in every FREQ. -/
theorem writeField_legalFreq {id : ChannelId} {f : ChField} {arg : Dword} {c : Channel}
    (hr : storesIllegalFreq arg (.ch id f) = false) (hc : legalFreq c.freq = true) :
    legalFreq (writeField c arg f).freq = true := by
  cases f with
  | freq =>
    show legalFreq arg = true
    simpa [storesIllegalFreq_freq] using hr
  | _ => exact hc

theorem writeReg_legalFreq {r : Reg} {arg : Dword} (hr : storesIllegalFreq arg r = false)
    (hs : ∀ id, legalFreq (s.chan id).freq = true) (j : ChannelId) :
    legalFreq ((writeReg s arg r).chan j).freq = true := by
  cases r with
  | reserved q => exact hs j
  | eng e =>
    rw [writeReg, State.chan, writeEng_ch]
    exact hs j
  | ch id f =>
    rw [writeReg, chan_setChan]
    split
    · exact writeField_legalFreq hr (hs id)
    · exact hs j

/-- CFG_VOLUME saturates at 128 (10_state.md R35). -/
theorem writeReg_volumesLegal (h : VolumesLegal s) (arg : Dword) (r : Reg) : VolumesLegal (writeReg s arg r) where
  master := by
    rw [(writeReg_latched s arg r).2]
    exact h.master
  cfg := by
    by_cases hr : r = .eng .cfgVolume
    · rw [hr, writeReg_cfgVolume_toNat]
      exact Nat.min_le_right ..
    · rw [writeReg_cfg_volume s arg hr]
      exact h.cfg

theorem Inv.writeReg {r : Reg} {arg : Dword} (hr : storesIllegalFreq arg r = false) (h : Inv s) :
    Inv (writeReg s arg r) where
  memory := by
    rw [writeReg_eq]
    exact h.memory
  buffer := by
    rw [writeReg_eq]
    exact h.buffer
  transient := by
    rw [writeReg_eq]
    exact h.transient
  freqs := writeReg_legalFreq hr h.freqs
  volumes := writeReg_volumesLegal h.volumes arg r
  table := by
    rw [writeReg_eq]
    exact h.table

theorem Inv.gen {n : Nat} (hn : n ≤ s.params.mixbufLen) (h : Inv s) (id : ChannelId) : Inv (gen id n s) := by
  have hf := gen_frame id n s
  exact
    { memory := hf.memory.wf h.memory
      buffer := by
        rw [hf.setup.params]
        exact gen_buffer_wf h.buffer hn
      transient := gen_call id n s
      freqs := fun j => by
        rw [(hf.mix.kept j).freq]
        exact h.freqs j
      volumes := ⟨by rw [hf.setup.eng]; exact h.volumes.master, by rw [hf.setup.cfg]; exact h.volumes.cfg⟩
      table := by
        rw [hf.setup.table, hf.setup.params]
        exact h.table }

/-- A change of a channel that keeps its `freq` keeps the invariant. -/
theorem Inv.setChan {id : ChannelId} {c : Channel} (h : Inv s) (hc : c.freq = (s.chan id).freq) :
    Inv (s.setChan id c) :=
  { h with
    freqs := fun j => by
      rw [chan_setChan]
      split
      · rw [hc]
        exact h.freqs id
      · exact h.freqs j
    volumes := ⟨h.volumes.master, h.volumes.cfg⟩ }

/-- Every command keeps the invariant. -/
theorem Inv.exec {i : Instr} (hk : i.kind = .cmd) (hs : Inv s) (h : exec i s = .next t) : Inv t := by
  by_cases hreset : i = .reset
  · subst hreset
    cases h
    exact hs.reset
  by_cases hwr : ∃ r arg, i = .wr r arg
  · obtain ⟨r, arg, rfl⟩ := hwr
    obtain ⟨hr, rfl⟩ := wr_next h
    exact hs.writeReg hr
  refine command_state (P := Inv) hk hreset (fun r arg e => hwr ⟨r, arg, e⟩) h hs
    (fun id n u hn hp hu => hu.gen (hp ▸ hn) id) (fun u id v k hu => hu.setChan rfl) ?_
  intro u ls resp free table htable hu
  exact
    { hu with
      volumes := ⟨hu.volumes.master, hu.volumes.cfg⟩
      table := htable.elim (fun e => e.trans hu.table) fun e => e }

theorem Inv.accept (h : Inv s) (c : PortCommand) (rest : List Arrival) : Inv (s.accept c rest) :=
  { h with volumes := ⟨h.volumes.master, h.volumes.cfg⟩ }

theorem Inv.platformStore (h : Inv s) (x : Store) (rest : List Arrival) : Inv (s.platformStore x rest) :=
  { h with
    memory := Memory.store_wf x h.memory
    volumes := ⟨h.volumes.master, h.volumes.cfg⟩ }

/-- Settles O59: by the arrival at the head of the port; a command that decodes is one `Inv.exec` speaks of. -/
theorem everyStepKeepsTheInvariant : Obligations.EveryStepKeepsTheInvariant := by
  intro s t hs h
  cases hport : s.port with
  | nil =>
    rw [step_empty hport] at h
    cases h
    exact hs
  | cons a rest =>
    cases a with
    | store x =>
      rw [step_store hport] at h
      cases h
      exact hs.platformStore x rest
    | command c =>
      cases hd : decode c.cmd c.arg with
      | ok i =>
        rw [step_command hport hd] at h
        exact (hs.accept c rest).exec (decodeAs_ok (k := .cmd) hd).2 h
      | error e =>
        rw [step_reserved hport hd] at h
        cases h
        exact hs.accept c rest

end Sys2Proof.Machine
end

section
/-! PROOFS. Step table and ADPCM registers (40_adpcm_decoder.md): the entries for every seed and width, ADH and ADX. -/

namespace Sys2Proof.Machine

/-! ### The table for every seed and width (R110 to R115) -/

theorem powerOn_table_get (p : Params) (a : TableIndex) : (State.powerOn p).table[a.val] = tableEntry p a.val :=
  stepTable_get p a

/-- An entry of the table power-on leaves, read signed. -/
theorem powerOn_table_toInt (p : Params) (a : TableIndex) :
    (State.powerOn p).table[a.val].toInt = (tableEntry p a.val).toNat := by
  rw [powerOn_table_get]
  exact (tableEntry_bounds p a.val).2.2

/-- An accumulator of 32 bits or more starts at the whole seed. -/
theorem accumulatorAt_zero {width : Nat} (h : 32 ≤ width) (seed : Word) : accumulatorAt width seed 0 = seed.toNat :=
  Nat.mod_eq_of_lt (seed.isLt.trans_le (Nat.pow_le_pow_right (by decide) h))

/-- Settles O22: the overrides and the zero entries by `tableEntry_toNat`, and the first entry by the seed. -/
theorem stepTableFactsForEverySeed : Obligations.StepTableFactsForEverySeed := by
  intro p
  refine ⟨?_, ?_, ?_, fun a ha => ?_, fun hwidth => ?_, fun a => ?_⟩
  · exact (powerOn_table_toInt p 3).trans (by simp [tableEntry_toNat])
  · exact (powerOn_table_toInt p 4).trans (by simp [tableEntry_toNat])
  · exact (powerOn_table_toInt p 88).trans (by simp [tableEntry_toNat])
  · rw [powerOn_table_toInt, tableEntry_toNat]
    simp [ha, show a.val ≠ 3 by omega, show a.val ≠ 4 by omega, show a.val ≠ 88 by omega]
  · have hentry := congrArg BitVec.toNat (powerOn_table_get p 0)
    have hseed := p.adpcmSeed.isLt
    refine hentry.trans ?_
    rw [tableEntry_toNat]
    show accumulatorAt p.accWidth p.adpcmSeed 0 / 2 ^ 16 % 2 ^ 16 = _
    rw [accumulatorAt_zero hwidth]
    omega
  · rw [powerOn_table_get]
    obtain ⟨hlo, hhi, -⟩ := tableEntry_bounds p a.val
    exact ⟨hlo, hhi⟩

/-- With the default seed the 32-bit accumulator does not wrap before the zero entries (R115). -/
theorem accumulatorAt_default_no_wrap : ∀ a < 88,
    accumulatorAt 32 Params.default.adpcmSeed a + accumulatorAt 32 Params.default.adpcmSeed a / 10 < 2 ^ 32 := by
  decide +kernel

/-- Where the 32-bit accumulator does not wrap, a wider one holds the same number (R115). -/
theorem accumulatorAt_default_wide {width a : Nat} (hw : 32 ≤ width) (ha : a ≤ 88) :
    accumulatorAt width Params.default.adpcmSeed a = accumulatorAt 32 Params.default.adpcmSeed a := by
  induction a with
  | zero => rw [accumulatorAt_zero hw, accumulatorAt_zero (le_refl 32)]
  | succ a ih =>
    have hlt := accumulatorAt_default_no_wrap a (by omega)
    rw [accumulatorAt, accumulatorAt, ih (by omega), Nat.mod_eq_of_lt hlt,
      Nat.mod_eq_of_lt (hlt.trans_le (Nat.pow_le_pow_right (by decide) hw))]

theorem tableEntry_default_wide {p : Params} (hseed : p.adpcmSeed = Params.default.adpcmSeed) (hw : 32 ≤ p.accWidth)
    (a : Nat) : tableEntry p a = tableEntry Params.default a := by
  apply BitVec.eq_of_toNat_eq
  rw [tableEntry_toNat, tableEntry_toNat, hseed]
  by_cases ha : 89 ≤ a
  · simp only [if_pos ha]
  · rw [accumulatorAt_default_wide hw (by omega), show Params.default.accWidth = 32 from rfl]

/-- Settles O60: the sequence is the model's accumulator at the width of the parameters; with the default seed it is the
32-bit one wherever an entry shows it. -/
theorem tblinitAtEveryAccumulatorWidth : Obligations.TblinitAtEveryAccumulatorWidth := by
  refine ⟨fun s => ⟨_, accumulatorAt s.params.accWidth s.params.adpcmSeed, exec_tblinit s, rfl, fun _ => rfl,
    fun a => ?_⟩, fun p hseed hw => ?_⟩
  · show (stepTable s.params)[a.val].toNat = _
    rw [stepTable_get, tableEntry_toNat]
  · exact congrArg Vector.ofFn (funext fun a => tableEntry_default_wide hseed hw a.val)

/-! ### ADH (R121, R122) -/

theorem exec_adh {s : State} (h : s.params.adpcmExpand = true) (id : ChannelId) :
    exec (.adh id) s = .next (s.setChan id (loadHeader (s.chan id))) := if_pos h

theorem loadHeader_adpcmVal_toInt (c : Channel) :
    (loadHeader c).adpcmVal.toInt = (BitVec.ofNat 16 (c.adpcmHeader.toNat % 2 ^ 16)).toInt := by
  have hfield : c.adpcmHeader.extractLsb' 0 16 = BitVec.ofNat 16 (c.adpcmHeader.toNat % 2 ^ 16) := by
    apply BitVec.eq_of_toNat_eq
    rw [field_toNat, BitVec.toNat_ofNat, Nat.mod_mod, pow_zero, Nat.div_one]
  rw [loadHeader, BitVec.toInt_signExtend_of_le (by decide), hfield]

theorem loadHeader_adpcmIndex_toNat (c : Channel) :
    (loadHeader c).adpcmIndex.toNat = min (c.adpcmHeader.toNat / 2 ^ 16 % 2 ^ 7) 88 := by
  rw [loadHeader, headerIndex, field_toNat, BitVec.toNat_ofNat]
  omega

/-- Settles O24: ADH is `loadHeader` on its channel. -/
theorem adhLoadsTheHeader : Obligations.AdhLoadsTheHeader :=
  fun s id h => ⟨_, _, exec_adh h id, loadHeader_adpcmVal_toInt (s.chan id), loadHeader_adpcmIndex_toNat (s.chan id)⟩

/-! ### ADX (R123) -/

theorem exec_adx {s : State} (h : s.params.adpcmExpand = true) {id : ChannelId} {a : TableIndex}
    (ha : tableIndexOf (s.chan id).adpcmIndex = some a) (d : BitVec 4) :
    exec (.adx id d) s = .next ((s.setChan id (expandStep (s.chan id) s.table[a.val] d)).answer
      (.word (expandStep (s.chan id) s.table[a.val] d).adpcmVal)) := by
  simp only [exec, execAdx, h, ha, if_true]

theorem tableIndexOf_of_toNat {i : Word} {k : Nat} (hk : k < 128) (h : i.toNat = k) : tableIndexOf i = some ⟨k, hk⟩ := by
  subst h
  exact dif_pos hk

/-- For an entry that is not negative the truncating divisions are the plain ones. -/
theorem expandDiff_eq {t : Int} (h : 0 ≤ t) (d : BitVec 4) :
    expandDiff t d = t / 8 + (if d.getLsbD 0 then t / 4 else 0) + (if d.getLsbD 1 then t / 2 else 0) +
      (if d.getLsbD 2 then t else 0) := by
  simp only [expandDiff, Int.tdiv_eq_ediv_of_nonneg h]

theorem expandDiff_bounds {t : Int} (h0 : 0 ≤ t) (h1 : t ≤ 0xFFFF) (d : BitVec 4) :
    0 ≤ expandDiff t d ∧ expandDiff t d ≤ 0x1FFFF := by
  rw [expandDiff_eq h0]
  split_ifs <;> omega

/-- The clamped value is an `i32` whatever the value before was. -/
theorem expandStep_adpcmVal_toInt (c : Channel) {t : Word} (h0 : 0 ≤ t.toInt) (h1 : t.toInt ≤ 0xFFFF) (d : BitVec 4) :
    (expandStep c t d).adpcmVal.toInt = expandValue c.adpcmVal.toInt t.toInt d := by
  obtain ⟨hlo, hhi⟩ := expandDiff_bounds h0 h1 d
  have hval1 := BitVec.le_toInt c.adpcmVal
  have hval2 := BitVec.toInt_lt (x := c.adpcmVal)
  refine toInt_ofInt_of_fits (fitsI32_iff.mpr ?_)
  unfold expandValue
  split <;> omega

theorem expandStep_adpcmIndex_toInt (c : Channel) (t : Word) (d : BitVec 4) :
    (expandStep c t d).adpcmIndex.toInt = expandIndex c.adpcmIndex.toInt d :=
  toInt_ofInt_of_fits (fitsI32_iff.mpr (by unfold expandIndex; omega))

/-- The table of adjustments in one formula: -1 below code 4, then 2, 4, 6, 8. -/
theorem indexAdjust_eq : ∀ d : BitVec 4,
    indexAdjust d = if d.getLsbD 2 then 2 * ((d.toNat : Int) % 4) + 2 else -1 := by decide

/-- Settles O25: ADX is `expandStep` with the entry at the index, which TBLINIT leaves in 0..0xFFFF. -/
theorem adxExpandsExactly : Obligations.AdxExpandsExactly := by
  intro s id d hexpand htable k hk hindex
  obtain ⟨h0, h1, -⟩ : 0 ≤ s.table[k].toInt ∧ s.table[k].toInt ≤ 0xFFFF ∧ _ := by
    have hentry : s.table[k] = tableEntry s.params k := by
      simp only [htable]
      exact stepTable_get s.params ⟨k, hk⟩
    rw [hentry]
    exact tableEntry_bounds s.params k
  have hindexInt : (s.chan id).adpcmIndex.toInt = k := by
    rw [BitVec.toInt_eq_toNat_of_lt (by omega), hindex]
  refine ⟨_, _, expandDiff s.table[k].toInt d, exec_adx hexpand (tableIndexOf_of_toNat hk hindex) d,
    expandDiff_eq h0 d, expandStep_adpcmVal_toInt (s.chan id) h0 h1 d, ?_⟩
  rw [← indexAdjust_eq, ← hindexInt]
  exact expandStep_adpcmIndex_toInt (s.chan id) s.table[k] d

end Sys2Proof.Machine
end

section
/-! PROOFS. What changes nothing (30_encoding.md R98), and where an instruction stops (60_exceptions.md R231, R233). -/

namespace Sys2Proof.Machine

theorem exec_gen_reserved {n : Nat} {s : State} (h : s.params.mixbufLen < n) (id : ChannelId) :
    exec (.gen id n) s = .next s := if_pos h

theorem exec_dmix_reserved {n : Nat} {s : State} (h : s.params.mixbufLen < n) : exec (.dmix n) s = .next s := if_pos h

theorem exec_mix_reserved {b : Nat} {s : State} (h : s.params.mixbufLen < b / 2) : exec (.mix b) s = .next s := if_pos h

theorem exec_adh_absent {s : State} (h : s.params.adpcmExpand = false) (id : ChannelId) :
    exec (.adh id) s = .next s := if_neg (Bool.eq_false_iff.mp h)

theorem exec_adx_absent {s : State} (h : s.params.adpcmExpand = false) (id : ChannelId) (d : BitVec 4) :
    exec (.adx id d) s = .next s := if_neg (Bool.eq_false_iff.mp h)

/-- Settles O35: each is the first test of its instruction. -/
theorem nopAndReservedOperandsChangeNothing : Obligations.NopAndReservedOperandsChangeNothing := by
  refine fun s => ⟨rfl, fun h id d => ⟨exec_adh_absent h id, exec_adx_absent h id d⟩, fun n hn => ?_⟩
  refine ⟨exec_gen_reserved hn, exec_dmix_reserved hn, ?_⟩
  rintro b rfl
  exact exec_mix_reserved hn

/-- An outcome is a next state when there is no reason to stop, and the refusal by that name when there is one. -/
def StopsFor (reason : Option Refusal) (o : Outcome) : Prop :=
  (reason = none → ∃ t, o = .next t) ∧ ∀ r, reason = some r → o = .refused r

theorem stopsFor_none {o : Outcome} (h : ∃ t, o = .next t) : StopsFor none o := ⟨fun _ => h, nofun⟩

theorem stopsFor_ite {p : Prop} [Decidable p] {r : Refusal} {o : Outcome} (hstop : p → o = .refused r)
    (hnext : ¬ p → ∃ t, o = .next t) : StopsFor (if p then some r else none) o := by
  split
  case isTrue hp =>
    refine ⟨nofun, ?_⟩
    rintro _ ⟨⟩
    exact hstop hp
  case isFalse hp => exact stopsFor_none (hnext hp)

/-- A micro-operation needs a call in progress and nothing else (log 14). -/
theorem inCall_stopsFor (s : State) (f : Run → Run) :
    StopsFor (if s.call = none then some .noGenCall else none) (s.inCall f) := by
  refine stopsFor_ite (fun h => ?_) fun h => ?_
  · rw [State.inCall, h]
  · obtain ⟨c, hc⟩ := Option.ne_none_iff_exists'.mp h
    exact ⟨_, inCall_of_call hc f⟩

theorem gen_stopsFor (id : ChannelId) (n : Nat) (s : State) : StopsFor (stopReason (.gen id n) s) (exec (.gen id n) s) := by
  refine stopsFor_ite (fun ⟨hn, hrate⟩ => ?_) fun h => ?_
  · exact (if_neg (Nat.not_lt.mpr hn)).trans (if_pos hrate)
  · by_cases hn : n ≤ s.params.mixbufLen
    · exact ⟨_, exec_gen hn fun hrate => h ⟨hn, hrate⟩⟩
    · exact ⟨_, exec_gen_reserved (Nat.lt_of_not_le hn) id⟩

theorem mix_stopsFor (b : Nat) (s : State) : StopsFor (stopReason (.mix b) s) (exec (.mix b) s) := by
  refine stopsFor_ite (fun ⟨hn, hrate⟩ => ?_) fun h => ?_
  · exact (if_neg (Nat.not_lt.mpr hn)).trans (if_pos hrate)
  · by_cases hn : b / 2 ≤ s.params.mixbufLen
    · exact ⟨_, exec_mix hn fun hrate => h ⟨hn, hrate⟩⟩
    · exact ⟨_, exec_mix_reserved (Nat.lt_of_not_le hn)⟩

theorem dmix_next_exists (n : Nat) (s : State) : ∃ t, exec (.dmix n) s = .next t := by
  by_cases hn : n ≤ s.params.mixbufLen
  · exact ⟨_, exec_dmix hn⟩
  · exact ⟨_, exec_dmix_reserved (Nat.lt_of_not_le hn)⟩

theorem adh_next_exists (id : ChannelId) (s : State) : ∃ t, exec (.adh id) s = .next t := by
  cases h : s.params.adpcmExpand with
  | true => exact ⟨_, exec_adh h id⟩
  | false => exact ⟨_, exec_adh_absent h id⟩

theorem adx_stopsFor (id : ChannelId) (d : BitVec 4) (s : State) :
    StopsFor (stopReason (.adx id d) s) (exec (.adx id d) s) := by
  refine stopsFor_ite (fun ⟨hexpand, hindex⟩ => ?_) fun h => ?_
  · have hnone : tableIndexOf (s.chan id).adpcmIndex = none := dif_neg (Nat.not_lt.mpr hindex)
    simp only [exec, execAdx, hexpand, hnone, if_true]
  · cases hexpand : s.params.adpcmExpand with
    | false => exact ⟨_, exec_adx_absent hexpand id d⟩
    | true =>
      have hindex : (s.chan id).adpcmIndex.toNat < 128 := Nat.lt_of_not_le fun hle => h ⟨hexpand, hle⟩
      exact ⟨_, exec_adx hexpand (tableIndexOf_of_toNat hindex rfl) d⟩

theorem wr_stopsFor (r : Reg) (arg : Dword) (s : State) : StopsFor (stopReason (.wr r arg) s) (exec (.wr r arg) s) :=
  stopsFor_ite (fun h => exec_wr_refused h s) fun h => ⟨_, exec_wr (Bool.eq_false_iff.mpr h) s⟩

/-- Settles O57: by the instructions; those with a reason to stop are WR, GEN, MIX, ADX and the micro-operations. -/
theorem instructionsCompleteUnlessListed : Obligations.InstructionsCompleteUnlessListed := by
  intro i s
  show StopsFor (stopReason i s) (exec i s)
  cases i with
  | nop | reset | init | shutdown | rd _ | tblinit | tblrd _ => exact stopsFor_none ⟨_, rfl⟩
  | wr r arg => exact wr_stopsFor r arg s
  | gen id n => exact gen_stopsFor id n s
  | dmix n => exact stopsFor_none (dmix_next_exists n s)
  | mix b => exact mix_stopsFor b s
  | adh id => exact stopsFor_none (adh_next_exists id s)
  | adx id d => exact adx_stopsFor id d s
  | smpPcm8 | smpPcm16 | smpAdpcm | smpPsg | bndNone | bndLoop | bndStop | bndRsvd => exact inCall_stopsFor s _

end Sys2Proof.Machine
end

section
/-! PROOFS. Resampler and fetch (41_resampler_fetch.md), position, loop and stop (42_position_loop_stop.md): the silence
rows, the played index as the rows a control word selects, and what a whole GEN does to its channel, slots and reads. -/

namespace Sys2Proof.Machine

/-! ### SMP.ADPCM and SMP.PSG (41_resampler_fetch.md R137, R138) -/

theorem decodeFmt_eq_adpcm_iff (w : Word) : decodeFmt w = .adpcm ↔ w.getLsbD 30 = true ∧ w.getLsbD 29 = false := by
  unfold decodeFmt
  rw [selector_toNat]
  cases w.getLsbD 29 <;> cases w.getLsbD 30 <;> decide

theorem decodeFmt_eq_psg_iff (w : Word) : decodeFmt w = .psg ↔ w.getLsbD 30 = true ∧ w.getLsbD 29 = true := by
  unfold decodeFmt
  rw [selector_toNat]
  cases w.getLsbD 29 <;> cases w.getLsbD 30 <;> decide

/-- On the call in progress the addition of the silence value changes slots and free values only. -/
theorem inCall_addSil {s : State} {c : GenCall} (h : s.call = some c) :
    s.inCall addSil = .next (s.updateSlot c.x (addSilence c.sil)) := by
  obtain ⟨a, k, e⟩ := updateSlot_eq s c.x (addSilence c.sil)
  rw [inCall_of_call h]
  simp only [addSil, e, ← h]

/-- Settles O28: both rows add the silence value to the slot of the call. -/
theorem smpAdpcmAndPsgAddTheSilenceValue : Obligations.SmpAdpcmAndPsgAddTheSilenceValue := by
  refine ⟨fun w => (decodeSample_eq_instr_iff w .adpcm).trans (decodeFmt_eq_adpcm_iff w),
    fun w => (decodeSample_eq_instr_iff w .psg).trans (decodeFmt_eq_psg_iff w), fun s c hc => ?_⟩
  obtain ⟨hvalue, hwritten, hothers⟩ := updateSlot_slots (s := s) rfl rfl c.x (addSilence c.sil)
  refine ⟨_, inCall_addSil hc, inCall_addSil hc, hvalue, hwritten, hothers, ?_⟩
  obtain ⟨a, k, e⟩ := updateSlot_eq s c.x (addSilence c.sil)
  rw [e]

/-! ### A played index as the rows its control word selects (30_encoding.md R94, 60_exceptions.md R235) -/

/-- A micro-operation that reads neither lifecycle, engine flags nor the state's call, and keeps lifecycle and engine,
makes the same of the state whatever call stands in it. -/
theorem inCall_withCall {f : Run → Run} {s : State} {c : GenCall}
    (hf : ∀ ls a b k r, f (Run.dress r ls a b k) = (f r).dress ls a b k)
    (heng : (f (c, s)).2.eng = s.eng) (hls : (f (c, s)).2.ls = s.ls) :
    State.inCall { s with call := some c } f = .next { (f (c, s)).2 with call := some (f (c, s)).1 } := by
  have hrun : f (c, { s with call := some c }) = (f (c, s)).dress s.ls s.eng.soundOn s.eng.stereo (some c) :=
    hf s.ls s.eng.soundOn s.eng.stereo (some c) (c, s)
  rw [inCall_of_call (s := { s with call := some c }) rfl, hrun, Run.dress, dress_own_flags s.ls heng, ← hls]
  rfl

theorem exec_decodeSample_withCall (w : Word) (c : GenCall) (s : State) :
    exec (decodeSample w) { s with call := some c } = .next { (sampleOp (decodeFmt w) (c, s)).2 with
      call := some (sampleOp (decodeFmt w) (c, s)).1 } := by
  have hframe := sampleOp_frame (decodeFmt w) (c, s)
  rw [exec_decodeSample]
  exact inCall_withCall (fun ls a b k => dress_sampleOp ls a b k _) hframe.setup.eng hframe.ls

theorem exec_decodeBoundary_withCall (w : Word) (c : GenCall) (s : State) :
    exec (decodeBoundary w) { s with call := some c } = .next { (boundaryOp (decodeLoopMode w) (c, s)).2 with
      call := some c } := by
  have hframe : (boundaryOp (decodeLoopMode w) (c, s)).2.eng = s.eng ∧ (boundaryOp (decodeLoopMode w) (c, s)).2.ls = s.ls :=
    boundaryOp_state (P := fun t => t.eng = s.eng ∧ t.ls = s.ls) ⟨rfl, rfl⟩ (fun _ _ _ => ⟨rfl, rfl⟩)
      (fun _ => ⟨rfl, rfl⟩)
  rw [exec_decodeBoundary, inCall_withCall (fun ls a b k => dress_boundaryOp ls a b k _) hframe.1 hframe.2,
    boundaryOp_call]

/-- A micro-operation of a played index leaves the state's own call alone. -/
theorem sampleOp_stateCall (fmt : Fmt) (r : Run) : (sampleOp fmt r).2.call = r.2.call :=
  sampleOp_state (P := fun t => t.call = r.2.call) rfl (fun s a h => by simpa using h) (fun s a h => by simpa using h)
    (fun s f h => by simpa using h)

theorem boundaryOp_stateCall (lm : LoopMode) (r : Run) : (boundaryOp lm r).2.call = r.2.call :=
  boundaryOp_state (P := fun t => t.call = r.2.call) rfl (fun _ _ _ => rfl) (fun _ => rfl)

theorem boundaryHit_iff (addr : Word) (c : Channel) :
    boundaryHit addr c = true ↔ (c.dataSrc.toNat + c.samples.toNat) % 2 ^ 32 ≤ addr.toNat := by
  rw [boundaryHit, decide_eq_true_iff, boundary, BitVec.toNat_add]

theorem withCall_self {u : State} {k : Option GenCall} (h : u.call = k) : { u with call := k } = u := by
  subst h
  rfl

/-- At the boundary the micro-operation is the row of the control word on the call State holds. -/
theorem atBoundary_as_row (w : Word) {q : Run} (hlm : q.1.lm = decodeLoopMode w) (hcall : q.2.call = none)
    (hhit : boundaryHit q.1.addr (q.2.chan q.1.id) = true) :
    ∃ s2, exec (decodeBoundary w) { q.2 with call := some q.1 } = .next s2 ∧
      atBoundary q = (q.1, { s2 with call := none }) := by
  refine ⟨_, exec_decodeBoundary_withCall w q.1 q.2, ?_⟩
  rw [atBoundary, if_pos hhit, ← hlm]
  exact Prod.ext (boundaryOp_call ..) (withCall_self ((boundaryOp_stateCall ..).trans hcall)).symm

theorem atBoundary_of_miss {q : Run} (h : boundaryHit q.1.addr (q.2.chan q.1.id) = false) : atBoundary q = q := by
  rw [atBoundary, h]
  rfl

/-- Settles O32: a played index is `sampleOp`, at the boundary `boundaryOp`, and the count; the rows run the same
functions on the call State holds. -/
theorem playedIndexRunsTheDecodedMicroOperations : Obligations.PlayedIndexRunsTheDecodedMicroOperations := by
  intro w c s hfmt hlm hcall
  obtain ⟨q, hq⟩ : ∃ q, q = sampleOp (decodeFmt w) (withAddr (c, s)) := ⟨_, rfl⟩
  have hplay : playIndex (c, s) = countPlayed (atBoundary q) := by
    rw [hq, ← hfmt]
    rfl
  have hsample := exec_decodeSample_withCall w (withAddr (c, s)).1 s
  obtain ⟨a, ha⟩ := sampleOp_call (decodeFmt w) (withAddr (c, s))
  have hstate : q.2.call = none := by
    rw [hq, sampleOp_stateCall]
    exact hcall
  rw [← hq] at ha
  have hid : q.1.id = c.id := by rw [ha]; rfl
  have hqlm : q.1.lm = decodeLoopMode w := by rw [ha, ← hlm]; rfl
  have hplayed : q.1.played = c.played := by rw [ha]; rfl
  refine ⟨{ q.2 with call := some q.1 }, q.1, hq ▸ hsample, rfl, fun hhit => ?_, fun hmiss => ?_⟩
  · obtain ⟨s2, hrow, hat⟩ := atBoundary_as_row w hqlm hstate ((boundaryHit_iff ..).mpr (hid ▸ hhit))
    refine ⟨s2, hrow, ?_⟩
    rw [hplay, hat, countPlayed, hplayed]
  · have hfalse : boundaryHit q.1.addr (q.2.chan q.1.id) = false :=
      Bool.eq_false_iff.mpr (mt (boundaryHit_iff ..).mp (Nat.not_le.mpr (hid ▸ hmiss)))
    rw [hplay, atBoundary_of_miss hfalse, countPlayed, hplayed]
    exact congrArg _ (withCall_self hstate).symm

end Sys2Proof.Machine
end

section
/-! PROOFS. A whole GEN (41_resampler_fetch.md, 42_position_loop_stop.md): completion, silent passes, loop modes, reads, and
the channels a command cannot start. -/

namespace Sys2Proof.Machine

/-! ### Completion and the slots written (41_resampler_fetch.md R129) -/

theorem gen_written {n x : Nat} (id : ChannelId) (s : State) (hx : x < n) :
    ∃ v, sparseGet (gen id n s).acc x = some v := genUpto_written (GenCall.start id s, s) hx

/-- Settles O33: by the frame of GEN and the slots it writes. -/
theorem genCompletesAndWritesOnlyItsList : Obligations.GenCompletesAndWritesOnlyItsList :=
  fun id n s hn hrate => ⟨_, exec_gen hn hrate, gen_frame id n s, gen_call id n s, fun _ hx => gen_written id s hx⟩

/-! ### A silent pass (41_resampler_fetch.md R132, R139) -/

theorem playingTest_eq_false {c : Channel} (h : c.samples = 0 ∨ c.playing = false) : playingTest c = false := by
  rcases h with h | h <;> simp [playingTest, h]

/-- The position a silent pass leaves: forced even for PCM16 (42_position_loop_stop.md R157). -/
def silentPosition (c : Channel) : Word := if decodeFmt c.cnt = .pcm16 then evenAddr c.dataPos else c.dataPos

theorem silentPosition_toNat (c : Channel) :
    (silentPosition c).toNat = if decodeFmt c.cnt = .pcm16 then c.dataPos.toNat / 2 * 2 else c.dataPos.toNat := by
  unfold silentPosition
  split
  · exact evenAddr_toNat _
  · rfl

theorem gen_silent_slot {id : ChannelId} {n x : Nat} {s : State} {a : Int} (h : playingTest (s.chan id) = false)
    (hx : x < n) (ha : (id = 0 ∧ a = 0) ∨ (id ≠ 0 ∧ ∃ w, sparseGet s.acc x = some w ∧ a = w.toInt))
    (hf : fitsI32 (addSilence (silenceValue (compositeVolume (s.chan id) s.eng)) a) = true) :
    (gen id n s).slot x = addSilence (silenceValue (compositeVolume (s.chan id) s.eng)) a := by
  obtain ⟨v, hv, hvalue⟩ := genUpto_silent_slot (r := (GenCall.start id s, s)) h hx ha hf
  exact (slot_of_some hv).trans hvalue

/-- Settles O36: the frame is `gen_silent`, the slots are `genUpto_silent_slot`. -/
theorem silentPassAddsTheSilenceValue : Obligations.SilentPassAddsTheSilenceValue := by
  intro id n s hn hrate hsilent
  have hplaying := playingTest_eq_false hsilent
  refine ⟨_, silentPosition (s.chan id), exec_gen hn hrate, ?_, silentPosition_toNat _, fun x hx a ha hf => ?_⟩
  · obtain ⟨a, k, e⟩ := gen_silent (n := n) hplaying
    rw [e]
    rfl
  · exact gen_silent_slot hplaying hx ha hf

/-! ### A GEN of no slots (42_position_loop_stop.md R157) -/

theorem genPosition_zero (id : ChannelId) (s : State) : genPosition id s 0 = silentPosition (s.chan id) := by
  simp only [genPosition, genBefore, genUpto, start_played, advance_zero, start_fmt, silentPosition]

/-- Settles O39: before its first index the chain of GEN is the state itself, and nothing has been played. -/
theorem zeroLengthGenOnlyForcesPcm16Even : Obligations.ZeroLengthGenOnlyForcesPcm16Even := by
  intro id s hrate
  refine ⟨genPosition id s 0, ?_, fun hfmt => ?_, fun hfmt => ?_⟩
  · rw [exec_gen (Nat.zero_le _) hrate, gen_eq]
    rfl
  · rw [genPosition_zero, silentPosition_toNat, if_pos hfmt]
  · rw [genPosition_zero, silentPosition, if_neg hfmt]

/-! ### The loop modes (42_position_loop_stop.md R152 to R155, R159) -/

/-- A predicate on the channel of a GEN is kept when the reload of loop mode 1, the stop of loop mode 2 and a move of the
position keep it: no other step of GEN touches the channel. -/
theorem gen_chan_state {P : Channel → Prop} {id : ChannelId} {n : Nat} {s : State} (h : P (s.chan id))
    (reload : ∀ c u, decodeLoopMode (s.chan id).cnt = .loop → P c → P (loopReload u c))
    (stop : ∀ c, decodeLoopMode (s.chan id).cnt = .stop → P c → P (stopFlags c))
    (move : ∀ c p, P c → P { c with dataPos := p }) : P ((gen id n s).chan id) := by
  refine gen_state (P := fun t => P (t.chan id)) h ?_ ?_ ?_ ?_ ?_ ?_ ?_ ?_
  · intro t a ht
    rwa [afterReadByte_chan]
  · intro t a ht
    rwa [afterReadHalf_chan]
  · intro t x v _ ht
    rwa [setSlot_chan]
  · intro t x f _ ht
    rwa [updateSlot_chan]
  · intro t u hlm _ ht
    rw [chan_setChan_self]
    exact reload _ u hlm ht
  · intro t hlm ht
    rw [chan_setChan_self]
    exact stop _ hlm ht
  · intro t p ht
    rw [chan_setChan_self]
    exact move _ p ht
  · exact fun t ht => ht

theorem stopFlags_cnt_bit31 (c : Channel) : (stopFlags c).cnt.getLsbD 31 = false :=
  (stopFlags_cnt c 31).trans (Bool.and_false _)

/-- Settles O38: by what the reload and the stop leave alone. -/
theorem loopModeBoundsWhatGenChanges : Obligations.LoopModeBoundsWhatGenChanges := by
  intro id n s t h
  rcases gen_next h with ⟨-, rfl⟩ | ⟨-, -, rfl⟩
  · exact ⟨fun _ => ⟨rfl, rfl⟩, fun _ => ⟨rfl, rfl⟩, fun _ => .inl ⟨rfl, rfl⟩⟩
  refine ⟨fun hlm => ?_, fun hlm => ?_, fun hlm => ?_⟩
  · exact gen_chan_state (P := fun c => c.dataSrc = (s.chan id).dataSrc ∧ c.samples = (s.chan id).samples) ⟨rfl, rfl⟩
      (fun _ _ e => absurd e hlm) (fun _ _ hc => hc) (fun _ _ hc => hc)
  · exact gen_chan_state (P := fun c => c.playing = (s.chan id).playing ∧ c.cnt = (s.chan id).cnt) ⟨rfl, rfl⟩
      (fun _ _ _ hc => hc) (fun _ e => absurd e hlm) (fun _ _ hc => hc)
  · exact gen_chan_state (P := fun c => (c.playing = (s.chan id).playing ∧ c.cnt = (s.chan id).cnt) ∨
        (c.playing = false ∧ c.cnt.getLsbD 31 = false)) (.inl ⟨rfl, rfl⟩)
      (fun _ _ e _ => nomatch hlm.symm.trans e) (fun c _ _ => .inr ⟨rfl, stopFlags_cnt_bit31 c⟩) (fun _ _ hc => hc)

/-! ### The reads of a GEN (20_memory.md R69) -/

/-- The reads that a format allows. -/
def FormatReads : Fmt → ReadRequest → Prop
  | .pcm8, q => ∃ a, q = .byte a
  | .pcm16, q => ∃ a, q = .half a ∧ a.getLsbD 0 = false
  | .adpcm, _ => False
  | .psg, _ => False

theorem evenAddr_bit0 (a : Word) : (evenAddr a).getLsbD 0 = false := by simp [evenAddr]

/-- A sample micro-operation adds at most one read, of its format. -/
theorem sampleOp_reads (fmt : Fmt) (r : Run) : ∃ l, (sampleOp fmt r).2.resp.reads = r.2.resp.reads ++ l ∧ l.length ≤ 1 ∧
    ∀ q ∈ l, FormatReads fmt q := by
  cases fmt with
  | pcm8 => exact ⟨[.byte r.1.addr], by simp [sampleOp, smpPcm8], le_refl 1,
    List.forall_mem_singleton.mpr ⟨_, rfl⟩⟩
  | pcm16 =>
    exact ⟨[.half (evenAddr r.1.addr)], by simp [sampleOp, smpPcm16, pcm16At], le_refl 1,
      List.forall_mem_singleton.mpr ⟨_, rfl, evenAddr_bit0 _⟩⟩
  | adpcm | psg => exact ⟨[], by simp [sampleOp, smpAdpcm, smpPsg, addSil], Nat.zero_le 1, nofun⟩

theorem atBoundary_resp (r : Run) : (atBoundary r).2.resp = r.2.resp := by
  unfold atBoundary
  split
  · exact boundaryOp_state (P := fun t => t.resp = r.2.resp) rfl (fun _ _ _ => rfl) (fun _ => rfl)
  · rfl

theorem zseed_resp (r : Run) : (zseed r).2.resp = r.2.resp :=
  zseed_state (P := fun t => t.resp = r.2.resp) rfl fun s v h => by simpa using h

/-- An index adds at most one read, of the format of the call. -/
theorem genIndex_reads (x : Nat) (r : Run) : ∃ l, (genIndex x r).2.resp.reads = r.2.resp.reads ++ l ∧ l.length ≤ 1 ∧
    ∀ q ∈ l, FormatReads r.1.fmt q := by
  have hseed := zseed_resp ({ r.1 with x := x }, r.2)
  have hcall := zseed_call ({ r.1 with x := x }, r.2)
  cases h : playingTest (r.2.chan r.1.id) with
  | true =>
    rw [genIndex_playing h]
    generalize zseed ({ r.1 with x := x }, r.2) = q at hseed hcall
    obtain ⟨l, hl, hlen, hall⟩ := sampleOp_reads q.1.fmt (withAddr q)
    refine ⟨l, ?_, hlen, fun p hp => ?_⟩
    · rw [← hseed]
      exact (congrArg Response.reads (atBoundary_resp _)).trans hl
    · have := hall p hp
      rwa [hcall] at this
  | false =>
    rw [genIndex_silent h]
    exact ⟨[], by simp [smpSil, addSil, hseed], Nat.zero_le 1, nofun⟩

/-- The indices before `n` have added at most `n` reads, of the format of the call. -/
theorem genUpto_reads (n : Nat) (r : Run) : ∃ l, (genUpto n r).2.resp.reads = r.2.resp.reads ++ l ∧ l.length ≤ n ∧
    ∀ q ∈ l, FormatReads r.1.fmt q := by
  induction n with
  | zero => exact ⟨[], (List.append_nil _).symm, le_refl 0, nofun⟩
  | succ n ih =>
    obtain ⟨l, hl, hlen, hall⟩ := ih
    obtain ⟨m, hm, hmlen, hmall⟩ := genIndex_reads n (genUpto n r)
    refine ⟨l ++ m, ?_, ?_, fun q hq => ?_⟩
    · rw [genUpto, hm, hl, List.append_assoc]
    · rw [List.length_append]
      omega
    · rw [genUpto_fmt] at hmall
      exact (List.mem_append.mp hq).elim (hall q) (hmall q)

/-- The reads a GEN adds. -/
theorem gen_next_reads {id : ChannelId} {n : Nat} {s t : State} (h : exec (.gen id n) s = .next t) :
    ∃ l, t.resp.reads = s.resp.reads ++ l ∧ l.length ≤ n ∧ ∀ q ∈ l, FormatReads (decodeFmt (s.chan id).cnt) q := by
  rcases gen_next h with ⟨-, rfl⟩ | ⟨-, -, rfl⟩
  · exact ⟨[], (List.append_nil _).symm, Nat.zero_le n, nofun⟩
  · exact genUpto_reads n (GenCall.start id s, s)

/-- Settles O40: what `FormatReads` says of each format. -/
theorem genReadFootprint : Obligations.GenReadFootprint := by
  intro id n s t h
  obtain ⟨l, hl, hlen, hall⟩ := gen_next_reads h
  refine ⟨l, hl, hlen, fun hfmt => ?_, fun hfmt => ?_, fun hfmt => ?_⟩
  · simpa [hfmt, FormatReads] using hall
  · simpa [hfmt, FormatReads] using hall
  · refine List.eq_nil_iff_forall_not_mem.mpr fun q hq => ?_
    rcases hfmt with hfmt | hfmt
    · simpa [hfmt, FormatReads] using hall q hq
    · simpa [hfmt, FormatReads] using hall q hq

/-! ### What no command starts (42_position_loop_stop.md R160) -/

/-- A GEN of any channel moves at most the position of a channel that is not playing. -/
theorem gen_chan_of_not_playing {j : ChannelId} {s : State} (h : playingTest (s.chan j) = false) (id : ChannelId)
    (n : Nat) : ∃ pos, (gen id n s).chan j = { s.chan j with dataPos := pos } := by
  by_cases e : j = id
  · subst e
    obtain ⟨a, k, e⟩ := gen_silent (n := n) h
    rw [e]
    exact ⟨_, chan_setChan_self s j _⟩
  · exact ⟨(s.chan j).dataPos, (gen_frame id n s).others j e⟩

/-- A channel that is not playing keeps both values that decide it, whatever command but RESET and WR is given. -/
theorem notPlaying_of_next {i : Instr} {s t : State} {id : ChannelId} (h : exec i s = .next t) (hreset : i ≠ .reset)
    (hwr : ∀ r arg, i ≠ .wr r arg) (hk : i.kind = .cmd) (hplaying : playingTest (s.chan id) = false) :
    (t.chan id).playing = (s.chan id).playing ∧ (t.chan id).samples = (s.chan id).samples := by
  refine command_state
    (P := fun u => (u.chan id).playing = (s.chan id).playing ∧ (u.chan id).samples = (s.chan id).samples)
    hk hreset hwr h ⟨rfl, rfl⟩ ?_ ?_ ?_
  · rintro j n u - - ⟨hp, hsm⟩
    have hu : playingTest (u.chan id) = false := by
      rw [playingTest, hp, hsm]
      exact hplaying
    obtain ⟨pos, e⟩ := gen_chan_of_not_playing hu j n
    rw [e]
    exact ⟨hp, hsm⟩
  · rintro u j v k ⟨hp, hsm⟩
    rw [chan_setChan]
    split
    case isTrue e => exact e ▸ ⟨hp, hsm⟩
    case isFalse => exact ⟨hp, hsm⟩
  · exact fun _ _ _ _ _ _ hu => hu

/-- Settles O41: a stopped and a starved channel both fail the playing test. -/
theorem onlyTheHostStartsAChannel : Obligations.OnlyTheHostStartsAChannel := by
  intro i s t id h hreset hwr hk
  refine ⟨fun hstopped => ?_, fun ⟨hplaying, hstarved⟩ => ?_⟩
  · obtain ⟨hp, -⟩ := notPlaying_of_next h hreset hwr hk (playingTest_eq_false (.inr hstopped))
    rw [hp, hstopped]
  · obtain ⟨hp, hsm⟩ := notPlaying_of_next h hreset hwr hk (playingTest_eq_false (.inl hstarved))
    exact ⟨hp.trans hplaying, hsm.trans hstarved⟩

end Sys2Proof.Machine
end

section
/-! PROOFS. The PCM8 stream at ratio 1 (41_resampler_fetch.md R142): one byte per index, in order, and never the boundary. -/

namespace Sys2Proof.Machine

theorem advance_one (pos : Word) (k : Nat) : advance pos 1 k = pos + BitVec.ofNat 32 k := by
  have h : trunc (1 * (k : Rat)) = k := by
    rw [one_mul]
    exact_mod_cast trunc_intCast k
  rw [advance, h, BitVec.ofInt_natCast]

/-- A played index of a PCM8 channel that does not reach its boundary: a byte read and an update of the slot. -/
theorem playIndex_pcm8 {c : GenCall} {u : State} {a : Word} (hfmt : c.fmt = .pcm8)
    (ha : advance (u.chan c.id).dataPos c.ratio c.x = a) (hmiss : boundaryHit a (u.chan c.id) = false) :
    playIndex (c, u) = ({ c with addr := a, played := c.played + 1 },
      (u.afterReadByte a).updateSlot c.x (volScale c.vol ((u.readByte a).toInt * 256))) := by
  subst ha
  have hsample : sampleOp c.fmt (withAddr (c, u)) = smpPcm8 (withAddr (c, u)) := by rw [hfmt]; rfl
  have hat : atBoundary (smpPcm8 (withAddr (c, u))) = smpPcm8 (withAddr (c, u)) :=
    atBoundary_of_miss (by simpa [smpPcm8, withAddr] using hmiss)
  show countPlayed (atBoundary (sampleOp c.fmt (withAddr (c, u)))) = _
  rw [hsample, hat]
  rfl

/-- The premises of 41_resampler_fetch.md R142: channel 0 at the start of a PCM8 stream of `n` bytes at ratio 1. -/
structure Pcm8Stream (s : State) (n : Nat) : Prop where
  rate : s.eng.sampleRate ≠ 0
  stable : s.params.memStable = true
  master : s.eng.channelMasterVolume.toNat ≤ 128
  freq : fval (s.chan 0).freq = (s.eng.sampleRate.toNat : Rat)
  fmt : decodeFmt (s.chan 0).cnt = .pcm8
  playing : (s.chan 0).playing = true
  samples : (s.chan 0).samples.toNat = n
  start : (s.chan 0).dataPos = (s.chan 0).dataSrc
  noWrap : (s.chan 0).dataSrc.toNat + n < 2 ^ 32

/-- The address of byte `x` of the stream. -/
def streamAddr (s : State) (x : Nat) : Word := (s.chan 0).dataSrc + BitVec.ofNat 32 x

/-- The value slot `x` gets from the stream. -/
def streamValue (s : State) (x : Nat) : Int :=
  volScale (compositeVolume (s.chan 0) s.eng) ((s.mem.read (streamAddr s x)).toInt * 256) 0

/-- Where the call stands before index `x`: the channel untouched, `x` bytes read and their slots written. -/
structure StreamProgress (s : State) (x : Nat) (r : Run) : Prop where
  played : r.1.played = x
  chan : r.2.chan 0 = s.chan 0
  params : r.2.params = s.params
  mem : r.2.mem = s.mem
  reads : r.2.resp.reads = s.resp.reads ++ (List.range x).map fun y => ReadRequest.byte (streamAddr s y)
  slots : ∀ y, y < x → ∃ v, sparseGet r.2.acc y = some v ∧ v.toInt = streamValue s y

section Stream
variable {s : State} {n : Nat} (h : Pcm8Stream s n)
include h

theorem Pcm8Stream.ratio : sampleRatio (s.chan 0) s.eng = 1 := by
  have hne : (s.eng.sampleRate.toNat : Rat) ≠ 0 := by
    refine Nat.cast_ne_zero.mpr fun h0 => h.rate (BitVec.eq_of_toNat_eq h0)
  rw [sampleRatio, h.freq, div_self hne]

theorem Pcm8Stream.addr (x : Nat) : advance (s.chan 0).dataPos 1 x = streamAddr s x := by
  rw [advance_one, h.start, streamAddr]

/-- No byte of the stream lies at or beyond the boundary. -/
theorem Pcm8Stream.miss {x : Nat} (hx : x < n) : boundaryHit (streamAddr s x) (s.chan 0) = false := by
  have hwrap := h.noWrap
  refine Bool.eq_false_iff.mpr (mt (boundaryHit_iff ..).mp ?_)
  rw [h.samples, streamAddr, BitVec.toNat_add, BitVec.toNat_ofNat]
  omega

theorem Pcm8Stream.playingTest {x : Nat} (hx : x < n) : playingTest (s.chan 0) = true := by
  refine (playingTest_iff _).mpr ⟨fun h0 => ?_, h.playing⟩
  have := h.samples
  rw [h0] at this
  simp at this
  omega

/-- A scaled byte fits its slot. -/
theorem Pcm8Stream.fits (x : Nat) : fitsI32 (streamValue s x) = true := by
  obtain ⟨hlo, hhi⟩ := byteSample_bounds (s.mem.read (streamAddr s x))
  obtain ⟨hl, hh⟩ := volScale_bounds (s := (s.mem.read (streamAddr s x)).toInt * 256) (a := 0) (lo := -32768)
    (hi := 32512) (compositeVolume_nonneg (s.chan 0) s.eng) (compositeVolume_le_one h.master) (by decide) (by decide)
    (by omega) (by omega)
  unfold streamValue
  exact fitsI32_iff.mpr ⟨by omega, by omega⟩

/-- An index of the stream: from a state that has kept channel and memory, byte `x` is read and slot `x` written. -/
theorem Pcm8Stream.genBefore_succ {x : Nat} (hx : x < n) (hp : StreamProgress s x (genBefore 0 s x)) :
    genBefore 0 s (x + 1) =
      ({ (genBefore 0 s x).1 with x := x, addr := streamAddr s x, played := x + 1 },
        (((genBefore 0 s x).2.setSlot x 0).noteRead (.byte (streamAddr s x))).updateSlot x
          (volScale (compositeVolume (s.chan 0) s.eng) ((s.mem.read (streamAddr s x)).toInt * 256))) := by
  obtain ⟨hid, hratio, hvol, -, hfmt, -⟩ := genBefore_sameCall 0 s x
  have hchan : ((genBefore 0 s x).2.setSlot x 0).chan 0 = s.chan 0 := (setSlot_chan ..).trans hp.chan
  have hstable : ((genBefore 0 s x).2.setSlot x 0).params.memStable = true := by
    rw [setSlot_params, hp.params, h.stable]
  obtain ⟨hread, hafter⟩ := readByte_of_stable hstable (streamAddr s x)
  rw [genBefore_succ_playing 0 s (by rw [hp.chan]; exact h.playingTest hx), genSeeded, if_pos rfl,
    playIndex_pcm8 (a := streamAddr s x), hafter, hread]
  · simp only [setSlot_mem, hp.mem, hp.played, hvol, start_vol]
  · exact hfmt.trans h.fmt
  · simp only [hid, start_id, hchan, hratio, start_ratio, h.ratio, h.addr]
  · simp only [hid, start_id, hchan, h.miss hx]

theorem Pcm8Stream.progress_succ {x : Nat} (hx : x < n) (hp : StreamProgress s x (genBefore 0 s x)) :
    StreamProgress s (x + 1) (genBefore 0 s (x + 1)) := by
  have hstep := h.genBefore_succ hx hp
  refine ⟨?_, ?_, ?_, ?_, ?_, fun y hy => ?_⟩
  · rw [hstep]
  · rw [hstep]
    simpa using hp.chan
  · rw [hstep]
    simpa using hp.params
  · rw [hstep]
    simpa using hp.mem
  · rw [hstep]
    simp [hp.reads, List.range_succ]
  · by_cases e : y = x
    · subst e
      obtain ⟨v, hv, hvalue⟩ := updateSlot_acc_self
        (((genBefore 0 s y).2.setSlot y 0).noteRead (.byte (streamAddr s y))) y
        (volScale (compositeVolume (s.chan 0) s.eng) ((s.mem.read (streamAddr s y)).toInt * 256))
      have hzero : (((genBefore 0 s y).2.setSlot y 0).noteRead (.byte (streamAddr s y))).slot y = 0 :=
        slot_setSlot_of_fits (s := (genBefore 0 s y).2) (by decide)
      rw [hzero] at hvalue
      rw [hstep]
      exact ⟨v, hv, hvalue (h.fits y)⟩
    · obtain ⟨v, hv, hvalue⟩ := hp.slots y (by omega)
      exact ⟨v, (genIndex_slot_other (genBefore 0 s x) e).trans hv, hvalue⟩

theorem Pcm8Stream.progress {x : Nat} (hx : x ≤ n) : StreamProgress s x (genBefore 0 s x) := by
  induction x with
  | zero => exact ⟨rfl, rfl, rfl, rfl, (List.append_nil _).symm, fun _ hy => absurd hy (Nat.not_lt_zero _)⟩
  | succ x ih => exact h.progress_succ hx (ih (Nat.le_of_lt hx))

/-- All `n` indices have been played, so the position has moved by `n` bytes. -/
theorem Pcm8Stream.position : genPosition 0 s n = streamAddr s n := by
  have hp := h.progress (le_refl n)
  obtain ⟨-, hratio, -, -, hfmt, -⟩ := genBefore_sameCall 0 s n
  have hnot : (genBefore 0 s n).1.fmt ≠ .pcm16 := by
    rw [hfmt, start_fmt, h.fmt]
    decide
  simp only [genPosition, hnot, if_false, hp.chan, hratio, start_ratio, h.ratio, hp.played, h.addr]

end Stream

/-- Settles O37: the stream's progress at its last index, and POS.ADV. -/
theorem pcm8AtRatioOnePlaysItsBytes : Obligations.Pcm8AtRatioOnePlaysItsBytes := by
  intro s n hn hrate hstable hmaster hfreq hfmt hplaying hsamples hstart hwrap
  have h : Pcm8Stream s n := ⟨hrate, hstable, hmaster, hfreq, hfmt, hplaying, hsamples, hstart, hwrap⟩
  have hp := h.progress (le_refl n)
  refine ⟨_, exec_gen hn hrate, fun x hx => ?_, hp.reads, ?_⟩
  · obtain ⟨v, hv, hvalue⟩ := hp.slots x hx
    refine (slot_of_some hv).trans (hvalue.trans ?_)
    rw [streamValue, volScale, zero_add, streamAddr]
  · rw [gen_eq, h.position, hp.chan]
    exact chan_setChan_self ..

end Sys2Proof.Machine
end

section
/-! PROOFS. Numbers (00_scope.md R9, R10; 43_volume.md R170 to R172): truncation and the composite volume. -/

namespace Sys2Proof.Machine

/-! ### Truncation -/

/-- What rounding toward zero means of a rational: no larger, off by less than 1, and of its sign or 0. -/
def RoundsTowardZero (q : Rat) (n : Int) : Prop := (n.natAbs : Rat) ≤ |q| ∧ |q - (n : Rat)| < 1 ∧ 0 ≤ (n : Rat) * q

theorem RoundsTowardZero.neg {q : Rat} {n : Int} (h : RoundsTowardZero q n) : RoundsTowardZero (-q) (-n) := by
  obtain ⟨hmag, hdist, hsign⟩ := h
  refine ⟨by rwa [Int.natAbs_neg, abs_neg], ?_, ?_⟩
  · rwa [Int.cast_neg, neg_sub_neg, abs_sub_comm]
  · rwa [Int.cast_neg, neg_mul_neg]

theorem roundsTowardZero_floor {q : Rat} (h : 0 ≤ q) : RoundsTowardZero q ⌊q⌋ := by
  have hfloor : (0 : Rat) ≤ (⌊q⌋ : Rat) := by exact_mod_cast Int.floor_nonneg.mpr h
  have hle := Int.floor_le q
  refine ⟨?_, ?_, mul_nonneg hfloor h⟩
  · rw [Nat.cast_natAbs, Int.cast_abs, abs_of_nonneg hfloor, abs_of_nonneg h]
    exact hle
  · rw [abs_of_nonneg (sub_nonneg.mpr hle)]
    linarith [Int.lt_floor_add_one q]

theorem trunc_roundsTowardZero (q : Rat) : RoundsTowardZero q (trunc q) := by
  rcases le_total 0 q with h | h
  · rw [trunc_of_nonneg h]
    exact roundsTowardZero_floor h
  · have hneg := (roundsTowardZero_floor (neg_nonneg.mpr h)).neg
    rwa [← trunc_of_nonneg (neg_nonneg.mpr h), trunc_neg, neg_neg, neg_neg] at hneg

/-- Settles O42: a fraction by `trunc_div`, a rational by its floor when it is not negative. -/
theorem truncationIsTowardZero : Obligations.TruncationIsTowardZero :=
  ⟨fun n d _ => trunc_div n d, trunc_roundsTowardZero⟩

/-! ### The composite volume -/

/-- The three factors give the greatest product only together at their greatest values. -/
theorem volumeProduct_eq_iff {v m g : Nat} (hv : v ≤ 127) (hm : m ≤ 127) (hg : g ≤ 128) :
    v * m * g = 2064512 ↔ v = 127 ∧ m = 127 ∧ g = 128 := by
  constructor
  · intro h
    have bound : ∀ {v' m' g'}, v ≤ v' → m ≤ m' → g ≤ g' → 2064512 ≤ v' * m' * g' := fun h1 h2 h3 =>
      h.ge.trans (Nat.mul_le_mul (Nat.mul_le_mul h1 h2) h3)
    refine ⟨?_, ?_, ?_⟩ <;> by_contra hne
    · exact absurd (bound (v' := 126) (by omega) hm hg) (by decide)
    · exact absurd (bound (m' := 126) hv (by omega) hg) (by decide)
    · exact absurd (bound (g' := 127) hv hm (by omega)) (by decide)
  · rintro ⟨rfl, rfl, rfl⟩
    rfl

theorem compositeVolume_eq_zero_iff (c : Channel) (e : Engine) :
    compositeVolume c e = 0 ↔ c.volume = 0 ∨ e.mainVolume = 0 ∨ e.channelMasterVolume = 0 := by
  rw [compositeVolume_eq, div_eq_zero_iff, or_iff_left (by norm_num), Nat.cast_eq_zero, Nat.mul_eq_zero, Nat.mul_eq_zero,
    or_assoc]
  simp only [BitVec.toNat_eq]
  rfl

theorem compositeVolume_eq_one_iff {c : Channel} {e : Engine} (h : e.channelMasterVolume.toNat ≤ 128) :
    compositeVolume c e = 1 ↔
      c.volume.toNat = 127 ∧ e.mainVolume.toNat = 127 ∧ e.channelMasterVolume.toNat = 128 := by
  have hv := c.volume.isLt
  have hm := e.mainVolume.isLt
  rw [compositeVolume_eq, div_eq_one_iff_eq (by norm_num), Nat.cast_inj,
    volumeProduct_eq_iff (by omega) (by omega) h]

/-- Settles O43: the closed forms, and the product of the three factors at its two ends. -/
theorem compositeVolumeClosedForm : Obligations.CompositeVolumeClosedForm := by
  refine fun c e => ⟨compositeVolume_eq c e, ?_, compositeVolume_eq_zero_iff c e, fun hg =>
    ⟨compositeVolume_nonneg c e, compositeVolume_le_one hg, compositeVolume_eq_one_iff hg⟩⟩
  rw [silenceValue_eq]
  push_cast
  rfl

end Sys2Proof.Machine
end

section
/-! PROOFS. A whole MIX (44_mixer.md R185 to R190): the slots it leaves, the samples it emits, the old mix buffer, and
sixteen silent channels. -/

namespace Sys2Proof.Machine

/-! ### Slots and samples -/

/-- The sixteen passes write every slot below n: the last one does. -/
theorem genAll_written {n x : Nat} (s : State) (hx : x < n) :
    ∃ v, sparseGet (genEach channelOrder n s).acc x = some v := gen_written 15 _ hx

/-- After its passes a MIX emits each slot divided by 16, and moves `LS`. -/
theorem mixSlots_eq_emitted (n : Nat) (s : State) : mixSlots n s =
    ({ genEach channelOrder n s with resp := { (genEach channelOrder n s).resp with
        samples := s.resp.samples ++ (List.range n).map fun x => downmix ((genEach channelOrder n s).slot x) } } :
      State).firstPull := by
  obtain ⟨-, -, hsamples⟩ := genEach_frame channelOrder n s
  rw [mixSlots, dmixUpto_of_written fun x hx => genAll_written s hx, hsamples]

theorem mixSlots_samples (n : Nat) (s : State) : (mixSlots n s).resp.samples =
    s.resp.samples ++ (List.range n).map fun x => downmix ((genEach channelOrder n s).slot x) := by
  rw [mixSlots_eq_emitted, firstPull_resp]

theorem mixSlots_reads (n : Nat) (s : State) :
    (mixSlots n s).resp.reads = (genEach channelOrder n s).resp.reads := by
  rw [mixSlots_eq_emitted, firstPull_resp]

theorem mixSlots_acc (n : Nat) (s : State) : (mixSlots n s).acc = (genEach channelOrder n s).acc := by
  rw [mixSlots_eq_emitted, firstPull_acc]

theorem mixSlots_freeCount (n : Nat) (s : State) :
    (mixSlots n s).freeCount = (genEach channelOrder n s).freeCount := by
  rw [mixSlots_eq_emitted, firstPull_freeCount]

theorem mixSlots_call (n : Nat) (s : State) : (mixSlots n s).call = none := by
  rw [mixSlots_eq_emitted, firstPull_call]
  exact gen_call 15 n (genEach (channelOrder.take 15) n s)

/-- Settles O47: the bounds of the sixteen passes, which DMIX and the step of `LS` keep. -/
theorem mixKeepsEverySlotInRange : Obligations.MixKeepsEverySlotInRange := by
  intro s t b hg hn h
  rcases mix_next h with ⟨hlt, -⟩ | ⟨-, -, rfl⟩
  · exact absurd hn (Nat.not_le.mpr hlt)
  obtain ⟨hslots, hfree⟩ := genAll_bounds (n := b / 2) hg
  rw [mixSlots_acc, mixSlots_freeCount]
  exact ⟨hslots, hfree⟩

/-- Settles O48: the slots are within the range in which the division by 16 is an exact sample. -/
theorem mixEmitsEverySlotExactly : Obligations.MixEmitsEverySlotExactly := by
  intro s b hg hn hrate
  have h := exec_mix hn hrate
  refine ⟨_, _, h, mix_next_frame h, mixSlots_call _ s, mixSlots_samples _ s, by simp, fun x o ho => ?_⟩
  obtain ⟨hx, hget⟩ := List.getElem?_eq_some_iff.mp ho
  rw [List.length_map, List.length_range] at hx
  obtain ⟨v, hv, hlo, hhi⟩ := (genAll_bounds (n := b / 2) hg).1 x hx
  rw [List.getElem_map, List.getElem_range, slot_of_some hv] at hget
  refine ⟨v, (congrArg (sparseGet · x) (mixSlots_acc _ s)).trans hv, ?_⟩
  rw [← hget, downmix_toInt hlo (hhi.trans (by decide))]

/-! ### The old mix buffer (R186) -/

/-- DMIX over slots on which two states agree. -/
theorem AgreeOn.dmixUpto {P : Nat → Prop} {s t : State} {n : Nat} (h : AgreeOn P s t) (hn : ∀ x, x < n → P x) :
    AgreeOn P (dmixUpto n s) (dmixUpto n t) := by
  induction n with
  | zero => exact h
  | succ n ih =>
    have hi := ih fun x hx => hn x (Nat.lt_succ_of_lt hx)
    obtain ⟨v, hs, ht⟩ := hi.2 n (hn n (Nat.lt_succ_self n))
    simp only [Machine.dmixUpto, dmixSlot, noteSlotRead_of_some hs, noteSlotRead_of_some ht, slot_of_some hs,
      slot_of_some ht]
    exact hi.map (fun u => u.emit (downmix v.toInt)) (fun _ _ => rfl) (fun _ => rfl)

theorem AgreeOn.firstPull {P : Nat → Prop} {s t : State} (h : AgreeOn P s t) : AgreeOn P s.firstPull t.firstPull :=
  h.map State.firstPull (fun u a => by rw [firstPull_eq, firstPull_eq]) firstPull_acc

theorem mixSlots_agree (n : Nat) (s : State) (a : List (Nat × Word)) :
    AgreeOn (· < n) (mixSlots n s) (mixSlots n { s with acc := a }) :=
  ((genAll_agree n s a).dmixUpto fun _ hx => hx).firstPull

/-- Settles O49: the agreement of the sixteen passes, carried through DMIX and the step of `LS`. -/
theorem oldMixBufferHasNoInfluence : Obligations.OldMixBufferHasNoInfluence := by
  intro s t t' a b hn h h'
  rcases mix_next h with ⟨hlt, -⟩ | ⟨-, -, rfl⟩
  · exact absurd hn (Nat.not_le.mpr hlt)
  rcases mix_next h' with ⟨hlt, -⟩ | ⟨-, -, rfl⟩
  · exact absurd hn (Nat.not_le.mpr hlt)
  obtain ⟨hrest, hslots⟩ := mixSlots_agree (b / 2) s a
  refine ⟨hrest, fun x hx => ?_⟩
  obtain ⟨v, hs, ht⟩ := hslots x hx
  exact ht.trans hs.symm

/-! ### Sixteen silent channels (R190, 70_reset_and_hazards.md R251) -/

/-- No channel plays, and the silence value of each is `sil`. -/
def AllSilent (sil : Int) (s : State) : Prop :=
  ∀ id, playingTest (s.chan id) = false ∧ silenceValue (compositeVolume (s.chan id) s.eng) = (sil : Rat)

theorem addSilence_intCast (sil a : Int) : addSilence (sil : Rat) a = a + sil := by
  rw [addSilence]
  exact_mod_cast trunc_intCast (a + sil)

theorem AllSilent.gen {sil : Int} {s : State} (h : AllSilent sil s) (id : ChannelId) (n : Nat) :
    AllSilent sil (gen id n s) := by
  intro j
  obtain ⟨hplaying, hsil⟩ := h j
  obtain ⟨pos, e⟩ := gen_chan_of_not_playing hplaying id n
  rw [e, (gen_frame id n s).setup.eng]
  exact ⟨hplaying, hsil⟩

theorem AllSilent.gen_resp {sil : Int} {s : State} (h : AllSilent sil s) (id : ChannelId) (n : Nat) :
    (Machine.gen id n s).resp = s.resp := by
  obtain ⟨a, k, e⟩ := gen_silent (n := n) (h id).1
  rw [e]
  rfl

/-- Every slot below n holds `v`. -/
def SlotsHold (v : Int) (n : Nat) (s : State) : Prop := ∀ x, x < n → ∃ w, sparseGet s.acc x = some w ∧ w.toInt = v

/-- A silent pass adds its silence value to every slot, channel 0 to 0. -/
theorem AllSilent.gen_slots {sil : Int} {s : State} (h : AllSilent sil s) {id : ChannelId} {n : Nat} {v : Int}
    (hin : (id = 0 ∧ v = 0) ∨ (id ≠ 0 ∧ SlotsHold v n s)) (hf : fitsI32 (v + sil) = true) :
    SlotsHold (v + sil) n (Machine.gen id n s) := by
  intro x hx
  obtain ⟨hplaying, hsil⟩ := h id
  have hadd : addSilence (GenCall.start id s).sil v = v + sil := by
    rw [start_sil, hsil, addSilence_intCast]
  obtain ⟨w, hw, hvalue⟩ := genUpto_silent_slot (r := (GenCall.start id s, s)) hplaying hx (a := v)
    (hin.imp_right fun ⟨hne, hs⟩ => ⟨hne, (hs x hx).imp fun w hw => ⟨hw.1, hw.2.symm⟩⟩) (hadd ▸ hf)
  exact ⟨w, hw, hvalue.trans hadd⟩

/-- After channel 0 and the channels of `l` every slot holds the silence value once for each. -/
theorem AllSilent.genEach_slots {sil : Int} (hlo : -32768 ≤ sil) (hhi : sil ≤ 0) {s : State} (h : AllSilent sil s)
    (n : Nat) (l : List ChannelId) (hl : l.length ≤ 15) (hne : ∀ id ∈ l, id ≠ 0) :
    AllSilent sil (genEach (0 :: l) n s) ∧ (genEach (0 :: l) n s).resp = s.resp ∧
      SlotsHold (sil * (l.length + 1)) n (genEach (0 :: l) n s) := by
  induction l using List.reverseRecOn with
  | nil =>
    refine ⟨h.gen 0 n, h.gen_resp 0 n, ?_⟩
    simpa [genEach] using h.gen_slots (n := n) (.inl ⟨rfl, rfl⟩) (fitsI32_iff.mpr ⟨by omega, by omega⟩)
  | append_singleton l id ih =>
    rw [List.length_append, List.length_singleton] at hl
    obtain ⟨hsilent, hresp, hslots⟩ := ih (by omega) fun j hj => hne j (List.mem_append_left _ hj)
    rw [← List.cons_append, genEach_append]
    refine ⟨hsilent.gen id n, (hsilent.gen_resp id n).trans hresp, ?_⟩
    have hsum : sil * ((l ++ [id]).length + 1 : Nat) = sil * (l.length + 1) + sil := by
      rw [List.length_append, List.length_singleton]
      push_cast
      ring
    have := hsilent.gen_slots (.inr ⟨hne id (by simp), hslots⟩) (fitsI32_iff.mpr ⟨by nlinarith, by nlinarith⟩)
    rw [← hsum] at this
    exact_mod_cast this

/-- A MIX of sixteen silent channels emits the sixteenfold silence value divided by 16, and reads nothing. -/
theorem AllSilent.mixSlots {sil : Int} (hlo : -32768 ≤ sil) (hhi : sil ≤ 0) {s : State} (h : AllSilent sil s) (n : Nat) :
    (Machine.mixSlots n s).resp.samples = s.resp.samples ++ List.replicate n (downmix (sil * 16)) ∧
      (Machine.mixSlots n s).resp.reads = s.resp.reads := by
  obtain ⟨-, hresp, hslots⟩ := h.genEach_slots hlo hhi n [1, 2, 3, 4, 5, 6, 7, 8, 9, 10, 11, 12, 13, 14, 15]
    (by decide) (by decide)
  refine ⟨?_, (mixSlots_reads n s).trans (congrArg Response.reads hresp)⟩
  rw [mixSlots_samples, List.append_cancel_left_eq, List.eq_replicate_iff]
  refine ⟨by simp, fun o ho => ?_⟩
  obtain ⟨x, hx, rfl⟩ := List.mem_map.mp ho
  obtain ⟨w, hw, hvalue⟩ := hslots x (List.mem_range.mp hx)
  rw [slot_of_some (s := genEach channelOrder n s) hw, hvalue]
  rfl

theorem AfterReset.allSilent {s : State} (h : AfterReset s) : AllSilent 0 s := by
  intro id
  rw [h.channels id, (compositeVolume_eq_zero_iff Channel.zero s.eng).mpr (.inl rfl)]
  exact ⟨rfl, by simp [silenceValue]⟩

/-- Settles O50: channels of volume 0 have the silence value 0. -/
theorem mixAfterResetIsSilent : Obligations.MixAfterResetIsSilent := by
  intro s b h hn hrate
  obtain ⟨hsamples, hreads⟩ := h.allSilent.mixSlots (by decide) (le_refl 0) (b / 2)
  exact ⟨_, exec_mix hn hrate, hsamples, hreads⟩

/-- Settles O51: at full volume the silence value is -32768, sixteen times over. -/
theorem sixteenSilentChannelsAtFullVolume : Obligations.SixteenSilentChannelsAtFullVolume := by
  intro s b hchan hmain hmaster hn hrate
  have h : AllSilent (-32768) s := by
    intro id
    obtain ⟨hplaying, hvolume⟩ := hchan id
    refine ⟨playingTest_eq_false (.inr hplaying), ?_⟩
    rw [(compositeVolume_eq_one_iff hmaster.le).mpr ⟨hvolume, hmain, hmaster⟩, silenceValue]
    norm_num
  refine ⟨_, downmix (-32768 * 16), exec_mix hn hrate, by decide, ?_⟩
  exact (h.mixSlots (le_refl _) (by decide) (b / 2)).1

end Sys2Proof.Machine
end

section
/-! PROOFS. The engine flags (10_state.md R34): no instruction but those that name them reads or writes `sound_on` and
`stereo`. -/

namespace Sys2Proof.Machine

section WithFlags
variable {s t : State} (a b : Bool)

/-- Dressing a state in its own lifecycle changes its flags and call only. -/
theorem dress_own_lifecycle (hls : t.ls = s.ls) (k : Option GenCall) :
    t.dress s.ls a b k = { t.withFlags a b with call := k } := by
  rw [← hls]
  rfl

/-- A register that an instruction naming neither flag can name. -/
theorem ne_flags_of_not_named {r : Reg} (h : (r == .eng .soundOn || r == .eng .stereo) = false) :
    r ≠ .eng .soundOn ∧ r ≠ .eng .stereo := by simpa using h

theorem readReg_withFlags {r : Reg} (hon : r ≠ .eng .soundOn) (hstereo : r ≠ .eng .stereo) (s : State) :
    readReg (s.withFlags a b) r = readReg s r := by
  cases r with
  | ch id f => rfl
  | eng e =>
    cases e with
    | soundOn => exact absurd rfl hon
    | stereo => exact absurd rfl hstereo
    | _ => rfl
  | reserved q => rfl

theorem writeReg_withFlags {r : Reg} (hon : r ≠ .eng .soundOn) (hstereo : r ≠ .eng .stereo) (s : State) (arg : Dword) :
    writeReg (s.withFlags a b) arg r = (writeReg s arg r).withFlags a b := by
  cases r with
  | ch id f => rfl
  | eng e =>
    cases e with
    | soundOn => exact absurd rfl hon
    | stereo => exact absurd rfl hstereo
    | _ => rfl
  | reserved q => rfl

theorem gen_withFlags (id : ChannelId) (n : Nat) (s : State) :
    gen id n (s.withFlags a b) = (gen id n s).withFlags a b := by
  calc gen id n (s.withFlags a b)
    _ = (gen id n s).dress s.ls a b none := dress_gen s.ls a b s.call id n s
    _ = (gen id n s).withFlags a b := dress_own_lifecycle a b (gen_frame id n s).ls none

theorem genEach_withFlags (ids : List ChannelId) (n : Nat) (s : State) :
    genEach ids n (s.withFlags a b) = (genEach ids n s).withFlags a b := by
  induction ids generalizing s with
  | nil => rfl
  | cons id ids ih =>
    show genEach ids n (gen id n (s.withFlags a b)) = (genEach ids n (gen id n s)).withFlags a b
    rw [gen_withFlags, ih]

theorem dmixUpto_withFlags (n : Nat) (s : State) :
    dmixUpto n (s.withFlags a b) = (dmixUpto n s).withFlags a b := by
  obtain ⟨l, k, hframe, -⟩ := dmixUpto_frame n s
  calc dmixUpto n (s.withFlags a b)
    _ = (dmixUpto n s).dress s.ls a b s.call := dress_dmixUpto s.ls a b s.call n s
    _ = (dmixUpto n s).withFlags a b := by rw [hframe]; rfl

theorem firstPull_withFlags (s : State) : (s.withFlags a b).firstPull = s.firstPull.withFlags a b := by
  rw [firstPull_eq, firstPull_eq]
  rfl

theorem mixSlots_withFlags (n : Nat) (s : State) : mixSlots n (s.withFlags a b) = (mixSlots n s).withFlags a b := by
  rw [mixSlots, genEach_withFlags, dmixUpto_withFlags, firstPull_withFlags, mixSlots]

/-- A micro-operation that reads neither lifecycle, engine flags nor the state's call, and keeps the lifecycle, acts on the
call in progress whatever the flags are. -/
theorem inCall_withFlags {f : Run → Run} (hf : ∀ ls a b k r, f (Run.dress r ls a b k) = (f r).dress ls a b k)
    (hls : t.ls = s.ls) (h : s.inCall f = .next t) : (s.withFlags a b).inCall f = .next (t.withFlags a b) := by
  obtain ⟨c, hc, rfl⟩ := inCall_next h
  have hrun : f (c, s.withFlags a b) = (f (c, s)).dress s.ls a b s.call := hf s.ls a b s.call (c, s)
  have hstate : (f (c, s)).2.dress s.ls a b s.call = { (f (c, s)).2.withFlags a b with call := s.call } :=
    dress_own_lifecycle a b hls s.call
  rw [inCall_of_call (s := s.withFlags a b) hc, hrun, Run.dress, hstate]
  rfl

theorem gen_next_withFlags {id : ChannelId} {n : Nat} (h : exec (.gen id n) s = .next t) :
    exec (.gen id n) (s.withFlags a b) = .next (t.withFlags a b) := by
  rcases gen_next h with ⟨hn, rfl⟩ | ⟨hn, hrate, rfl⟩
  · exact exec_gen_reserved (s := t.withFlags a b) hn id
  · rw [exec_gen (s := s.withFlags a b) hn hrate, gen_withFlags]

theorem dmix_next_withFlags {n : Nat} (h : exec (.dmix n) s = .next t) :
    exec (.dmix n) (s.withFlags a b) = .next (t.withFlags a b) := by
  by_cases hn : n ≤ s.params.mixbufLen
  · rw [exec_dmix hn] at h
    cases h
    rw [exec_dmix (s := s.withFlags a b) hn, dmixUpto_withFlags]
  · rw [exec_dmix_reserved (Nat.lt_of_not_le hn)] at h
    cases h
    exact exec_dmix_reserved (s := s.withFlags a b) (Nat.lt_of_not_le hn)

theorem mix_next_withFlags {n : Nat} (h : exec (.mix n) s = .next t) :
    exec (.mix n) (s.withFlags a b) = .next (t.withFlags a b) := by
  rcases mix_next h with ⟨hn, rfl⟩ | ⟨hn, hrate, rfl⟩
  · exact exec_mix_reserved (s := t.withFlags a b) hn
  · rw [exec_mix (s := s.withFlags a b) hn hrate, mixSlots_withFlags]

theorem adh_next_withFlags {id : ChannelId} (h : exec (.adh id) s = .next t) :
    exec (.adh id) (s.withFlags a b) = .next (t.withFlags a b) := by
  cases hexpand : s.params.adpcmExpand with
  | true =>
    rw [exec_adh hexpand] at h
    cases h
    exact exec_adh (s := s.withFlags a b) hexpand id
  | false =>
    rw [exec_adh_absent hexpand] at h
    cases h
    exact exec_adh_absent (s := s.withFlags a b) hexpand id

theorem adx_next_withFlags {id : ChannelId} {d : BitVec 4} (h : exec (.adx id d) s = .next t) :
    exec (.adx id d) (s.withFlags a b) = .next (t.withFlags a b) := by
  cases hexpand : s.params.adpcmExpand with
  | false =>
    rw [exec_adx_absent hexpand] at h
    cases h
    exact exec_adx_absent (s := s.withFlags a b) hexpand id d
  | true =>
    cases hindex : tableIndexOf (s.chan id).adpcmIndex with
    | none => simp [exec, execAdx, hexpand, hindex] at h
    | some k =>
      rw [exec_adx hexpand hindex] at h
      cases h
      exact exec_adx (s := s.withFlags a b) hexpand hindex d

/-- A row that is no command acts on the call in progress whatever the flags are. -/
theorem microRow_withFlags {i : Instr} (hk : i.kind ≠ .cmd) (h : exec i s = .next t) :
    exec i (s.withFlags a b) = .next (t.withFlags a b) := by
  rcases microRow_exec hk with ⟨fmt, e⟩ | ⟨lm, e⟩
  · rw [e] at h ⊢
    exact inCall_withFlags a b (fun ls a b k => dress_sampleOp ls a b k fmt) (sampleRow_ls h) h
  · rw [e] at h ⊢
    exact inCall_withFlags a b (fun ls a b k => dress_boundaryOp ls a b k lm) (boundaryRow_ls h) h

end WithFlags

/-- Settles O56: by the instructions, each of which leaves the two flags unread and as they are. -/
theorem soundOnAndStereoHaveNoEffect : Obligations.SoundOnAndStereoHaveNoEffect := by
  intro i s t a b hnames h
  cases i with
  | reset => cases hnames
  | nop | tblinit | tblrd _ =>
    cases h
    rfl
  | init =>
    rw [initOpensTheDeviceAndReports.2] at h ⊢
    cases h
    rfl
  | shutdown =>
    rw [shutdownClosesTheDevice.2] at h ⊢
    cases h
    rfl
  | rd r =>
    obtain ⟨hon, hstereo⟩ := ne_flags_of_not_named hnames
    cases h
    rw [exec_rd, readReg_withFlags a b hon hstereo]
    rfl
  | wr r arg =>
    obtain ⟨hon, hstereo⟩ := ne_flags_of_not_named hnames
    obtain ⟨hlegal, rfl⟩ := wr_next h
    rw [exec_wr hlegal, writeReg_withFlags a b hon hstereo]
  | gen id n => exact gen_next_withFlags a b h
  | dmix n => exact dmix_next_withFlags a b h
  | mix n => exact mix_next_withFlags a b h
  | adh id => exact adh_next_withFlags a b h
  | adx id d => exact adx_next_withFlags a b h
  | smpPcm8 | smpPcm16 | smpAdpcm | smpPsg | bndNone | bndLoop | bndStop | bndRsvd =>
    exact microRow_withFlags a b nofun h

end Sys2Proof.Machine
end
